-- ==== Sys2Proof/Word.lean ====
section
/-! DEFINITION. The block's word types (spec/00_scope.md R5, R9): the host word, the host word
address, the `s16` element, the one-bit element and the correlator accumulator.  Arithmetic that
a test could show wrong stands in `Machine/Arith.lean`. -/

namespace Sys2Proof

/-- The host data word, `WORD` = 32 bits (R5). -/
abbrev Word := BitVec 32

/-- A host word address, `AW` = 19 bits (R5, R60): every value is inside the address space. -/
abbrev Addr := BitVec 19

/-- An `s16` element: a carrier sample (Q1.14), a noise standard deviation or a Gaussian variate
(both Q.12) (R5). -/
abbrev Half := BitVec 16

/-- A `u1` element of a BitSequence (R31). -/
abbrev Bit := BitVec 1

/-- A correlator accumulator, `s64` with 28 fraction bits (R5, R30). -/
abbrev Acc := BitVec 64

end Sys2Proof
end

