-- ==== Sys2Proof/Syntax.lean ====
section
/-! DEFINITION. The command set: one constructor per row of spec/opcode_table.json
(spec/30_encoding.md R93). -/

namespace Sys2Proof

/-- The eleven commands of R93.  Operands are the values R92 assembles from `IMM16`, not its raw
bits. -/
inductive Instr where
  /-- CONFIG, R121. -/
  | config
  /-- GEN_CARRIERS, R142. -/
  | genCarriers
  /-- GEN_BITS, R163. -/
  | genBits
  /-- MODULATE, R176. -/
  | modulate
  /-- ADD_NOISE, R201 with `M = 0`: sigma is CFG_NOISE_STD. -/
  | addNoise
  /-- ADD_NOISE.I, R201 with `M = 1`: sigma is `asS(IMM16)`, in units of `2^-12`. -/
  | addNoiseI (sigma : Int)
  /-- DEMODULATE, R221. -/
  | demodulate
  /-- SCORE, R251. -/
  | score
  /-- RUN_SWEEP, R262: the step count `K = asU(IMM16)`. -/
  | runSweep (k : Nat)
  /-- GET_NAME, R126. -/
  | getName
  /-- SOFT_RESET, R311. -/
  | softReset
  deriving DecidableEq, Repr

end Sys2Proof
end

