-- ==== Sys2Proof/WellFormed.lean ====
section
/-! DEFINITION. Which commands have a command word: the operand ranges of spec/30_encoding.md
R92 and R112. -/

namespace Sys2Proof

/-- R112: sigma is an integer `-32768 <= s <= 32767`. -/
abbrev sigmaFits (sigma : Int) : Prop := -32768 ≤ sigma ∧ sigma ≤ 32767

/-- R92: `K` is unsigned, `0 .. 65535`. -/
abbrev stepCountFits (k : Nat) : Prop := k ≤ 65535

/-- The command has a word: its operand fits `IMM16`. -/
def Instr.wf : Instr → Bool
  | .config => true
  | .genCarriers => true
  | .genBits => true
  | .modulate => true
  | .addNoise => true
  | .addNoiseI sigma => decide (sigmaFits sigma)
  | .demodulate => true
  | .score => true
  | .runSweep k => decide (stepCountFits k)
  | .getName => true
  | .softReset => true

end Sys2Proof
end

