-- ==== Sys2Proof/Decode.lean ====
section
/-! DEFINITION. The command word: fields (spec/30_encoding.md R91, R92), decoder (R93, R94, R97)
and encoder.  R98: one length, one decoding, whatever the state. -/

namespace Sys2Proof

/-- `OPC = w[7:0]` (R92). -/
def fieldOpc (w : Word) : BitVec 8 := w.extractLsb' 0 8

/-- `M = w[8]` (R92). -/
def fieldM (w : Word) : BitVec 1 := w.extractLsb' 8 1

/-- `RSV = w[15:9]` (R92). -/
def fieldRsv (w : Word) : BitVec 7 := w.extractLsb' 9 7

/-- `IMM16 = w[31:16]` (R92). -/
def fieldImm (w : Word) : BitVec 16 := w.extractLsb' 16 16

/-- Why a word is illegal, in the order of R97's list.  All four raise ILLEGAL_CMD. -/
inductive Illegal where
  /-- `OPC` is a reserved opcode: 0x00, 0x0A to 0x0E, 0x10 to 0xFF (R94). -/
  | reservedOpcode
  /-- `RSV != 0`. -/
  | reservedField
  /-- `M = 1` with `OPC != 0x05`. -/
  | modeBit
  /-- `IMM16 != 0` in a format N command, ADD_NOISE with `M = 0` included. -/
  | immediate
  deriving DecidableEq, Repr

/-- The command of an opcode with `RSV = 0` and `M = 0`; RUN_SWEEP alone takes the immediate. -/
def decodeOpcode (opc : BitVec 8) (imm : BitVec 16) : Option Instr :=
  if opc = 0x01 then some .config
  else if opc = 0x02 then some .genCarriers
  else if opc = 0x03 then some .genBits
  else if opc = 0x04 then some .modulate
  else if opc = 0x05 then some .addNoise
  else if opc = 0x06 then some .demodulate
  else if opc = 0x07 then some .score
  else if opc = 0x08 then some (.runSweep imm.toNat)
  else if opc = 0x09 then some .getName
  else if opc = 0x0F then some .softReset
  else none

/-- The opcode takes an immediate when `M = 0` (format I): RUN_SWEEP only (R92). -/
def takesImmediate (opc : BitVec 8) : Bool := opc == 0x08

/-- The decoder of R93: every word is one of the eleven commands or is refused with R97's reason. -/
def decode (w : Word) : Except Illegal Instr :=
  match decodeOpcode (fieldOpc w) (fieldImm w) with
  | none => .error .reservedOpcode
  | some i =>
    if fieldRsv w ≠ 0 then .error .reservedField
    else if fieldM w = 1 then
      if fieldOpc w = 0x05 then .ok (.addNoiseI (fieldImm w).toInt) else .error .modeBit
    else if takesImmediate (fieldOpc w) = false ∧ fieldImm w ≠ 0 then .error .immediate
    else .ok i

/-- The opcode of each command (R93). -/
def opcodeOf : Instr → BitVec 8
  | .config => 0x01
  | .genCarriers => 0x02
  | .genBits => 0x03
  | .modulate => 0x04
  | .addNoise => 0x05
  | .addNoiseI _ => 0x05
  | .demodulate => 0x06
  | .score => 0x07
  | .runSweep _ => 0x08
  | .getName => 0x09
  | .softReset => 0x0F

/-- The `M` bit of each command (R93). -/
def modeOf : Instr → BitVec 1
  | .addNoiseI _ => 1
  | .config => 0
  | .genCarriers => 0
  | .genBits => 0
  | .modulate => 0
  | .addNoise => 0
  | .demodulate => 0
  | .score => 0
  | .runSweep _ => 0
  | .getName => 0
  | .softReset => 0

/-- The `IMM16` of each command (R92, R112): the two's complement of sigma, or `K`, or 0. -/
def immOf : Instr → BitVec 16
  | .addNoiseI sigma => BitVec.ofInt 16 sigma
  | .runSweep k => BitVec.ofNat 16 k
  | .config => 0
  | .genCarriers => 0
  | .genBits => 0
  | .modulate => 0
  | .addNoise => 0
  | .demodulate => 0
  | .score => 0
  | .getName => 0
  | .softReset => 0

/-- The word of a command: `IMM16`, `RSV = 0`, `M`, `OPC` from the most significant bit down (R91). -/
def encode (i : Instr) : Word := immOf i ++ 0#7 ++ modeOf i ++ opcodeOf i

/-- The command of an opcode-table word.  A command is one 32-bit word, so the table's numbering
is the word's own; bits above `nbits` are 0. -/
def decodeTableWord (nbits w : Nat) : Option Instr :=
  match decode (BitVec.ofNat 32 (w % 2 ^ nbits)) with
  | .ok i => some i
  | .error _ => none

end Sys2Proof
end

