-- ==== Sys2Proof/Machine/Arith.lean ====
section
/-! DEFINITION. Integer notation of spec/00_scope.md R9, and the bounded loop of R11. -/

namespace Sys2Proof.Machine

/-- `asr(v, n) = floor(v / 2^n)` for any integer `v` (R9). -/
def asr (v : Int) (n : Nat) : Int := v / 2 ^ n

/-- `sat32(v) = max(-2^31, min(2^31 - 1, v))` (R9). -/
def sat32 (v : Int) : Int := max (-2147483648) (min 2147483647 v)

/-- A sample plus an integer, saturated to the `s32` range (R201, R205). -/
def satAdd32 (x : Word) (n : Int) : Word := BitVec.ofInt 32 (sat32 (x.toInt + n))

/-- `abs` as a mathematical integer, so `abs(-2^31) = 2^31` (R9). -/
def absSample (x : Word) : Nat := x.toInt.natAbs

/-- `sext_32` of an `s16` (R9). -/
def sext32 (x : Half) : Word := x.signExtend 32

/-- `zext_32` (R9). -/
def zext32 {w : Nat} (x : BitVec w) : Word := x.setWidth 32

/-- The signed product of a waveform sample and a carrier sample in 64 bits; exact (R226). -/
def product64 (x : Word) (c : Half) : Acc := BitVec.ofInt 64 (x.toInt * c.toInt)

/-- `for k in 0 .. n - 1`: `k` runs upward, zero times when `n = 0` (R11). -/
def forUpTo {α : Type} (n : Nat) (body : Nat → α → α) (a : α) : α :=
  match n with
  | 0 => a
  | k + 1 => body k (forUpTo k body a)

end Sys2Proof.Machine
end

