-- ==== Sys2Proof/Config.lean ====
section
/-! DEFINITION. What one realisation of the block fixes, and the model's free values: the
parameters of spec/00_scope.md R5, the constants the reset state needs, and the two opaque
functions that stand for the values the spec leaves open. -/

namespace Sys2Proof.Config

/-- The two OPEN parameters of the block (R5, spec/92 D3 and D4, spec/93 U10).  They are an argument of
the machine: `State.params` holds them, and no step changes them (assumption log entry 2). -/
structure Params where
  /-- `FS_MAX`: largest accepted sampling_frequency and depth of the sample and bit buffers. -/
  fsMax : Nat
  /-- `STEP_MAX`: largest accepted sweep step count and depth of LOG and SIGMA_ROM. -/
  stepMax : Nat
  deriving DecidableEq, Repr

/-- The ranges R5 allows: `1 <= FS_MAX <= 65536` and `12 <= STEP_MAX <= 32`. -/
abbrev Params.Valid (P : Params) : Prop :=
  1 ≤ P.fsMax ∧ P.fsMax ≤ 65536 ∧ 12 ≤ P.stepMax ∧ P.stepMax ≤ 32

/-- The values R5 takes: 65536 and 32.  Only `State.reset` uses them (assumption log entry 2). -/
def params : Params := ⟨65536, 32⟩

/-- `STEP_DEFAULT` (R5): the operand of `CMD RUN_SWEEP` when the script gives none (R112). -/
def stepDefault : Nat := 12

/-- `SEED_DEFAULT` (R5): the reset value of PRNG and the substitute for a seed of 0 (R162). -/
def seedDefault : Word := 0x92D68CA2

/-- The reset value of ASK_THRESH (R5): 6554, the quantized 0.4. -/
def askThreshReset : Word := 6554

/-- FREE VALUE (assumption log entry 3): the draws of spec/93 U1 and U2.  Draw number `n` of a run
is `freeWord n`; a narrower element takes its low bits.  It has no body: nothing can be proved
of its values. -/
opaque freeWord : Nat → BitVec 32

/-- FREE VALUE (assumption log entry 4): `GAUSS(0, x2)`, which R10 leaves undefined
(`x1 != 0` is its precondition).  It has no body. -/
opaque gaussAtZero : Word → Half × Half

end Sys2Proof.Config
end

