-- ==== Sys2Proof/Machine/State.lean ====
section
/-! DEFINITION. The state of the block (spec/10_state.md), the host's pending transactions, the
reasons a step can stop, and the reset state (spec/70_reset_and_hazards.md R310). -/

namespace Sys2Proof.Machine

/-- The three schemes (R1, R105).  CFG_SCHEME can hold no other: only CONFIG, which rejects code 3,
and reset write it (R22). -/
inductive Scheme where
  | ask
  | bpsk
  | qpsk
  deriving DecidableEq, Repr

/-- The sequencer (R23): idle, or executing the command word `w`. -/
inductive Seq where
  | idle
  | run (w : Word)
  deriving DecidableEq, Repr

/-- The sweep driver's states (R29); code 3 never occurs. -/
inductive SweepState where
  | init
  | running
  | done
  deriving DecidableEq, Repr

/-- The two error classes (R280). -/
inductive ErrClass where
  | configurationError
  | numericDomainError
  deriving DecidableEq, Repr

/-- The fifteen sub-causes of the table of R281, in its order. -/
inductive Cause where
  | nonintegralDiv
  | zeroBits
  | lengthMismatch
  | zeroFs
  | oddBitsQpsk
  | badScheme
  | zeroFc
  | capacity
  | notConfigured
  | noCarriers
  | badWaveLen
  | badBitsLen
  | illegalCmd
  | stepRange
  | negativeSigma
  deriving DecidableEq, Repr

/-- What reaches the block from outside, one item a step (R6, R7): the host's two transactions, the
script's WAIT (R112), and the hardware reset, which is not a host transaction (R312). -/
inductive Input where
  /-- `HostWrite(a, v)`. -/
  | hostWrite (a : Addr) (v : Word)
  /-- `HostRead(a)`: the script's result list records the value. -/
  | hostRead (a : Addr)
  /-- `WAIT`: repeat `HostRead(STATUS)` until BUSY reads 0. -/
  | wait
  /-- A hardware reset (R312). -/
  | hardwareReset
  deriving DecidableEq, Repr

/-- A buffer of `w`-bit elements (R31): the elements written since reset, by index.  An index that
is not listed holds an unspecified value (R66).  Canonical form: indices strictly rising. -/
abbrev Buffer (w : Nat) := List (Nat × BitVec w)

/-- Staging registers (R21). -/
structure Staging where
  fs : Word
  fc : Word
  nbits : Word
  noiseStd : Half
  scheme : BitVec 2
  deriving DecidableEq, Repr

/-- Active configuration registers, CFG_* and the derived SPB, NSYM, SPS (R22). -/
structure ActiveConfig where
  fs : Word
  fc : Word
  nbits : Word
  noiseStd : Half
  scheme : Scheme
  spb : Word
  nsym : Word
  sps : Word
  deriving DecidableEq, Repr

/-- The sequencer, the flags of STATUS other than BUSY (which is `seq`, R23, R24), ERR_CODE and
ERR_CMD (R25) and CMD (R26). -/
structure Control where
  seq : Seq
  done : Bool
  err : Bool
  cfgValid : Bool
  errCode : Word
  errCmd : Word
  cmd : Word
  deriving DecidableEq, Repr

/-- Length registers (R27). -/
structure Lengths where
  cilen : Word
  cqlen : Word
  txlen : Word
  rxlen : Word
  wlen : Word
  deriving DecidableEq, Repr

/-- Result registers (R28) and the correlator accumulators (R30). -/
structure Results where
  errCount : Word
  berDen : Word
  name : Word
  accI : Acc
  accQ : Acc
  deriving DecidableEq, Repr

/-- Sweep driver registers (R29). -/
structure Sweep where
  state : SweepState
  step : Word
  logCount : Word
  deriving DecidableEq, Repr

/-- The six writable buffers (R31).  LOG is held by words: word `f` of record `r` at index
`8*r + f`.  SIGMA_ROM is a constant table (`sigmaRom`). -/
structure Memory where
  carrI : Buffer 16
  carrQ : Buffer 16
  wave : Buffer 32
  txbits : Buffer 1
  rxbits : Buffer 1
  log : Buffer 32
  deriving DecidableEq, Repr

/-- The host's side of the port: the transactions still to come, next one first (R8), and the
values its `HostRead`s returned, oldest first (R112). -/
structure HostSide where
  script : List Input
  results : List Word
  deriving DecidableEq, Repr

/-- The whole machine. -/
structure State where
  stg : Staging
  cfg : ActiveConfig
  ctl : Control
  len : Lengths
  /-- ASK_THRESH (R28). -/
  askThresh : Word
  /-- PRNG: the state of the random generator (R28, R160). -/
  prng : Word
  res : Results
  sweep : Sweep
  mem : Memory
  host : HostSide
  /-- The model's own field: FS_MAX and STEP_MAX of the realisation (R5), the argument every step takes and
  none changes (assumption log entry 2). -/
  params : Config.Params
  /-- The model's own field: how many unspecified values have been drawn.  The next draw is
  `Config.freeWord draws` (assumption log entry 3). -/
  draws : Nat
  deriving DecidableEq, Repr

/-- Reasons the machine could stop with a fault: there is none.  Errors of the block are states
with `STATUS.ERR = 1` (R290), and no host transaction can fault (R63). -/
inductive Fault where
  deriving DecidableEq, Repr

/-- Reasons an instruction could have no meaning in the model. -/
inductive Refusal where
  /-- Raised by an arm of `exec` whose command has no meaning yet; safe: the run stops. -/
  | notModelled (mnemonic : String)
  deriving DecidableEq, Repr

/-- R310: nothing listed, so every word of every buffer is unspecified. -/
def Memory.empty : Memory :=
  { carrI := [], carrQ := [], wave := [], txbits := [], rxbits := [], log := [] }

/-- The state of a block with the parameters `P` after a hardware reset (R34, R310), with no host
transaction pending. -/
def State.resetWith (P : Config.Params) : State :=
  { stg := { fs := 0, fc := 0, nbits := 0, noiseStd := 0, scheme := 0 }
    cfg := { fs := 0, fc := 0, nbits := 0, noiseStd := 0, scheme := .ask, spb := 0, nsym := 0, sps := 0 }
    ctl := { seq := .idle, done := false, err := false, cfgValid := false, errCode := 0, errCmd := 0, cmd := 0 }
    len := { cilen := 0, cqlen := 0, txlen := 0, rxlen := 0, wlen := 0 }
    askThresh := Config.askThreshReset
    prng := Config.seedDefault
    res := { errCount := 0, berDen := 0, name := 0, accI := 0, accQ := 0 }
    sweep := { state := .init, step := 0, logCount := 0 }
    mem := Memory.empty
    host := { script := [], results := [] }
    params := P
    draws := 0 }

/-- That state at the values R5 takes for FS_MAX and STEP_MAX (assumption log entry 2). -/
def State.reset : State := State.resetWith Config.params

end Sys2Proof.Machine
end

