-- ==== Sys2Proof/Machine/Flags.lean ====
section
/-! DEFINITION. STATUS and ERR_CODE as the host reads them (spec/10_state.md R24, R25), the code
values of spec/30_encoding.md R105 and R106 and spec/60_exceptions.md R281, and the changes of
STATUS at the start and the end of a command (spec/30_encoding.md R95).  The block has no
arithmetic flag (R24). -/

namespace Sys2Proof.Machine

/-- `BUSY = 1` exactly when `SEQ != IDLE` (R23). -/
def busy (s : State) : Bool := s.ctl.seq != .idle

/-- STATUS: bit 0 BUSY, bit 1 DONE, bit 2 ERR, bit 3 CFG_VALID, bits 31:4 read 0 (R24). -/
def statusWord (s : State) : Word :=
  0#28 ++ BitVec.ofBool s.ctl.cfgValid ++ BitVec.ofBool s.ctl.err ++ BitVec.ofBool s.ctl.done
    ++ BitVec.ofBool (busy s)

/-- Scheme codes: 0 ASK, 1 BPSK, 2 QPSK (R105). -/
def schemeCode : Scheme → BitVec 2
  | .ask => 0
  | .bpsk => 1
  | .qpsk => 2

/-- The scheme of a code; 3 is reserved (R105). -/
def schemeOfCode (c : BitVec 2) : Option Scheme :=
  if c = 0 then some .ask else if c = 1 then some .bpsk else if c = 2 then some .qpsk else none

/-- `NAMECODE`: the ASCII name, first character in bits 31:24, zero padded (R106). -/
def nameCode : Scheme → Word
  | .ask => 0x41534B00
  | .bpsk => 0x4250534B
  | .qpsk => 0x5150534B

/-- SWEEP_STATE codes: 0 INIT, 1 RUNNING, 2 DONE (R29). -/
def sweepStateCode : SweepState → Word
  | .init => 0
  | .running => 1
  | .done => 2

/-- The class of a sub-cause (R281): NEGATIVE_SIGMA is the one NumericDomainError. -/
def causeClass : Cause → ErrClass
  | .negativeSigma => .numericDomainError
  | .nonintegralDiv => .configurationError
  | .zeroBits => .configurationError
  | .lengthMismatch => .configurationError
  | .zeroFs => .configurationError
  | .oddBitsQpsk => .configurationError
  | .badScheme => .configurationError
  | .zeroFc => .configurationError
  | .capacity => .configurationError
  | .notConfigured => .configurationError
  | .noCarriers => .configurationError
  | .badWaveLen => .configurationError
  | .badBitsLen => .configurationError
  | .illegalCmd => .configurationError
  | .stepRange => .configurationError

/-- `CLASS` values: 1 ConfigurationError, 2 NumericDomainError (R25). -/
def classCode : ErrClass → BitVec 8
  | .configurationError => 1
  | .numericDomainError => 2

/-- `SUB` values (R281). -/
def subCode : Cause → BitVec 8
  | .nonintegralDiv => 0x01
  | .zeroBits => 0x02
  | .lengthMismatch => 0x03
  | .zeroFs => 0x04
  | .oddBitsQpsk => 0x05
  | .badScheme => 0x10
  | .zeroFc => 0x11
  | .capacity => 0x12
  | .notConfigured => 0x13
  | .noCarriers => 0x14
  | .badWaveLen => 0x15
  | .badBitsLen => 0x16
  | .illegalCmd => 0x17
  | .stepRange => 0x18
  | .negativeSigma => 0x01

/-- ERR_CODE: `{zext_16(0), sub[7:0], class[7:0]}` (R25, R290). -/
def errCodeWord (c : Cause) : Word := 0#16 ++ subCode c ++ classCode (causeClass c)

/-- The start of a command: `CMD <- w ; SEQ <- RUN(w) ; STATUS.BUSY <- 1 ; STATUS.DONE <- 0` (R95). -/
def startCommand (w : Word) (s : State) : State :=
  { s with ctl := { s.ctl with cmd := w, seq := .run w, done := false } }

/-- Normal completion: `SEQ <- IDLE ; STATUS.BUSY <- 0 ; STATUS.DONE <- 1` (R95). -/
def completeCommand (s : State) : State :=
  { s with ctl := { s.ctl with seq := .idle, done := true } }

end Sys2Proof.Machine
end

