-- ==== Sys2Proof/Machine/Prng.lean ====
section
/-! DEFINITION. `PRNG_NEXT` (spec/00_scope.md R10) and the seed rule (spec/42_bitsource.md R162). -/

namespace Sys2Proof.Machine

/-- xorshift32 with shifts 13, 17, 5 (R10). -/
def prngNext (x : Word) : Word :=
  let a := x ^^^ (x <<< 13)
  let b := a ^^^ (a >>> 17)
  b ^^^ (b <<< 5)

/-- What a host write of `v` to PRNG stores (R162). -/
def seedOf (v : Word) : Word := if v = 0 then Config.seedDefault else v

end Sys2Proof.Machine
end

