-- ==== Sys2Proof/Machine/Ops.lean ====
section
/-! DEFINITION. The shared operations: buffers (spec/10_state.md R31, spec/20_memory.md R66),
unspecified values, the random generator (spec/42_bitsource.md R161), the life of a command
(spec/30_encoding.md R95), taking an error and leaving the error state (spec/60_exceptions.md R290,
R291, spec/70_reset_and_hazards.md R310, R311). -/

namespace Sys2Proof.Machine

/-! ## Buffers -/

/-- The element at index `k`, if one was written since reset (R66). -/
def Buffer.read? {w : Nat} : Buffer w → Nat → Option (BitVec w)
  | [], _ => none
  | (i, v) :: rest, k => if i = k then some v else Buffer.read? rest k

/-- Write the element at index `k`, keeping the indices strictly rising. -/
def Buffer.write {w : Nat} : Buffer w → Nat → BitVec w → Buffer w
  | [], k, v => [(k, v)]
  | (i, u) :: rest, k, v =>
    if k < i then (k, v) :: (i, u) :: rest
    else if k = i then (k, v) :: rest
    else (i, u) :: Buffer.write rest k v

/-- The canonical form of a buffer of depth `n`: indices strictly rising and below `n`.  An
unlisted word reads as a draw, never as a fixed value, so no entry can equal what an unlisted word
reads as. -/
abbrev Buffer.wf {w : Nat} (n : Nat) (b : Buffer w) : Prop :=
  b.Pairwise (fun x y => x.1 < y.1) ∧ ∀ e ∈ b, e.1 < n

/-- The canonical form of the buffers of a block with the parameters `P`, at the depths of R31. -/
abbrev Memory.wf (P : Config.Params) (m : Memory) : Prop :=
  Buffer.wf P.fsMax m.carrI ∧ Buffer.wf P.fsMax m.carrQ ∧ Buffer.wf P.fsMax m.wave ∧
  Buffer.wf P.fsMax m.txbits ∧ Buffer.wf P.fsMax m.rxbits ∧ Buffer.wf (8 * P.stepMax) m.log

/-- The value of the next draw of a `w`-bit element. -/
def drawn (s : State) (w : Nat) : BitVec w := (Config.freeWord s.draws).setWidth w

/-- The state once that draw is used up: a later draw is another one. -/
def afterDraw (s : State) : State := { s with draws := s.draws + 1 }

/-- Read element `k` of a buffer: its value, or a draw when nothing has written it (R66, U1). -/
def fetchElem {w : Nat} (b : Buffer w) (k : Nat) (s : State) : BitVec w × State :=
  match b.read? k with
  | some v => (v, s)
  | none => (drawn s w, afterDraw s)

/-- `CARR_I[k]`. -/
def readCarrI (k : Nat) (s : State) : Half × State := fetchElem s.mem.carrI k s
/-- `CARR_Q[k]`. -/
def readCarrQ (k : Nat) (s : State) : Half × State := fetchElem s.mem.carrQ k s
/-- `WAVE[k]`. -/
def readWave (k : Nat) (s : State) : Word × State := fetchElem s.mem.wave k s
/-- `TXBITS[j]`. -/
def readTx (j : Nat) (s : State) : Bit × State := fetchElem s.mem.txbits j s
/-- `RXBITS[j]`. -/
def readRx (j : Nat) (s : State) : Bit × State := fetchElem s.mem.rxbits j s
/-- Word `i` of LOG, `i = 8*r + f`. -/
def readLog (i : Nat) (s : State) : Word × State := fetchElem s.mem.log i s

/-- `CARR_I[k] <- v`. -/
def writeCarrI (k : Nat) (v : Half) (s : State) : State :=
  { s with mem := { s.mem with carrI := s.mem.carrI.write k v } }
/-- `CARR_Q[k] <- v`. -/
def writeCarrQ (k : Nat) (v : Half) (s : State) : State :=
  { s with mem := { s.mem with carrQ := s.mem.carrQ.write k v } }
/-- `WAVE[k] <- v`. -/
def writeWave (k : Nat) (v : Word) (s : State) : State :=
  { s with mem := { s.mem with wave := s.mem.wave.write k v } }
/-- `TXBITS[j] <- v`. -/
def writeTx (j : Nat) (v : Bit) (s : State) : State :=
  { s with mem := { s.mem with txbits := s.mem.txbits.write j v } }
/-- `RXBITS[j] <- v`. -/
def writeRx (j : Nat) (v : Bit) (s : State) : State :=
  { s with mem := { s.mem with rxbits := s.mem.rxbits.write j v } }
/-- Word `i` of LOG `<- v`. -/
def writeLog (i : Nat) (v : Word) (s : State) : State :=
  { s with mem := { s.mem with log := s.mem.log.write i v } }

/-! ## The random generator -/

/-- `next()` on the state: `PRNG <- PRNG_NEXT(PRNG)` (R161); the value returned is the new PRNG. -/
def stepPrng (s : State) : State := { s with prng := prngNext s.prng }

/-! ## Accumulators and the error counter of the sequencer -/

/-- `ACC_I <- i ; ACC_Q <- q`. -/
def setAcc (i q : Acc) (s : State) : State := { s with res := { s.res with accI := i, accQ := q } }

/-! ## The life of a command -/

/-- How the pseudocode of a command ends: it ran to its end, or a `raise` stopped it (R11). -/
inductive Completion where
  | ended (s : State)
  | raised (c : Cause) (s : State)
  deriving DecidableEq, Repr

/-- Go on after a part that ran to its end; a `raise` in it ends the whole (R11, R268). -/
def andThen (r : Completion) (rest : State → Completion) : Completion :=
  match r with
  | .ended s => rest s
  | .raised c s => .raised c s

/-- `require c else raise E` (R11). -/
def requireElse (c : Prop) [Decidable c] (e : Cause) (s : State) (rest : Completion) : Completion :=
  if c then rest else .raised e s

/-- TAKING AN ERROR, the whole of R290: `STATUS.ERR <- 1`, ERR_CODE and ERR_CMD written,
`SEQ <- IDLE`; DONE, 0 since the start of the command, stays 0. -/
def enterError (w : Word) (c : Cause) (s : State) : State :=
  { s with ctl := { s.ctl with err := true, errCode := errCodeWord c, errCmd := w, seq := .idle } }

/-- The state of R310 in the block; its parameters, the host's side and the count of draws stay.  This is the only way out of the error state: there is no return from an error (R291). -/
def resetBlock (s : State) : State :=
  { State.resetWith s.params with host := s.host, draws := s.draws }

/-- One command from its CMD write to its end (R95): start, the pseudocode, then normal completion
or error entry. -/
def runCommand (w : Word) (body : State → Completion) (s : State) :
    Host.Outcome State Fault Refusal :=
  match body (startCommand w s) with
  | .ended t => .next (completeCommand t)
  | .raised c t => .next (enterError w c t)

end Sys2Proof.Machine
end

