-- ==== Sys2Proof/Machine/Rom.lean ====
section
/-! DEFINITION. The sine and cosine ROM, `SINQ` and `COSQ` of spec/00_scope.md R10, and SIGMA_ROM
(spec/47_sweep.md R266).

`SINQ(p, fs) = rne(sin(2*pi*p/fs) * 2^14)` is computed in fixed point with `fixBits` = 160 fraction
bits: the angle is brought into `0 .. pi/4` exactly (the quadrant and the octant are integer
comparisons on `4p`), the Taylor series is summed by Horner's rule, and the sample is rounded once.
The result is the reference value because no reference value stands near a rounding tie
(assumption log entry 5). -/

namespace Sys2Proof.Machine

/-- Fraction bits of the internal fixed-point numbers. -/
def fixBits : Nat := 160

/-- The fixed-point number 1. -/
def fixOne : Nat := 2 ^ fixBits

/-- `floor(pi * 2^160)`. -/
def fixPi : Nat := 4591442807048218921384805199743311128454155024418

/-- Number of Taylor terms kept: past it a term is below `2^-160` for angles up to `pi/4`. -/
def taylorTerms : Nat := 24

/-- Horner's rule for the sine series divided by its argument, from term `k` on:
`1 - x2/((2k)(2k+1)) * (...)`, with `x2` the squared angle. -/
def sinHorner (x2 : Nat) : Nat → Nat → Nat
  | 0, _ => fixOne
  | n + 1, k => fixOne - x2 * sinHorner x2 n (k + 1) / fixOne / ((2 * k) * (2 * k + 1))

/-- Horner's rule for the cosine series: `1 - x2/((2k-1)(2k)) * (...)`. -/
def cosHorner (x2 : Nat) : Nat → Nat → Nat
  | 0, _ => fixOne
  | n + 1, k => fixOne - x2 * cosHorner x2 n (k + 1) / fixOne / ((2 * k - 1) * (2 * k))

/-- The angle `(pi/2) * num/den`. -/
def octantAngle (num den : Nat) : Nat := fixPi * num / (2 * den)

/-- `sin((pi/2) * num/den)` for `num/den` at most `1/2`. -/
def octantSin (num den : Nat) : Nat :=
  let x := octantAngle num den
  x * sinHorner (x * x / fixOne) taylorTerms 1 / fixOne

/-- `cos((pi/2) * num/den)` for `num/den` at most `1/2`. -/
def octantCos (num den : Nat) : Nat :=
  let x := octantAngle num den
  cosHorner (x * x / fixOne) taylorTerms 1

/-- `sin((pi/2) * r/fs)` for `r < fs`: past the octant by the cosine of the complement. -/
def quadrantSin (r fs : Nat) : Nat := if 2 * r < fs then octantSin r fs else octantCos (fs - r) fs

/-- `cos((pi/2) * r/fs)` for `r < fs`. -/
def quadrantCos (r fs : Nat) : Nat := if 2 * r ≤ fs then octantCos r fs else octantSin (fs - r) fs

/-- `sin(2*pi*p/fs)`, signed. -/
def fixSin (p fs : Nat) : Int :=
  let r := 4 * p % fs
  match 4 * p / fs % 4 with
  | 0 => quadrantSin r fs
  | 1 => quadrantCos r fs
  | 2 => -(quadrantSin r fs : Int)
  | _ => -(quadrantCos r fs : Int)

/-- `cos(2*pi*p/fs)`, signed. -/
def fixCos (p fs : Nat) : Int :=
  let r := 4 * p % fs
  match 4 * p / fs % 4 with
  | 0 => quadrantCos r fs
  | 1 => -(quadrantSin r fs : Int)
  | 2 => -(quadrantCos r fs : Int)
  | _ => quadrantSin r fs

/-- The nearest integer to `v / 2^s`, kept within `-limit .. limit`.  It is `rne` on values that are
not ties; the limit is the range R10 gives the function and no reference value exceeds it. -/
def roundWithin (limit s : Nat) (v : Int) : Int :=
  let m : Nat := min limit ((v.natAbs + 2 ^ (s - 1)) / 2 ^ s)
  if 0 ≤ v then m else -(m : Int)

/-- `SINQ(p, fs)`, Q1.14 (R10). -/
def sinq (p fs : Nat) : Half := BitVec.ofInt 16 (roundWithin 16384 (fixBits - 14) (fixSin p fs))

/-- `COSQ(p, fs)`, Q1.14 (R10). -/
def cosq (p fs : Nat) : Half := BitVec.ofInt 16 (roundWithin 16384 (fixBits - 14) (fixCos p fs))

/-- The table of R266, `n` from 0 to 31, with `NOISE_SCALE = 4` folded in (R265). -/
def sigmaRom : List Half :=
  [11585, 10325, 9202, 8202, 7310, 6515, 5806, 5175,
   4612, 4111, 3664, 3265, 2910, 2594, 2312, 2060,
   1836, 1636, 1458, 1300, 1159, 1033, 920, 820,
   731, 651, 581, 517, 461, 411, 366, 327]

/-- `SIGMA_ROM[n]`; the callers keep `n` below `STEP_MAX`. -/
def sigmaRomAt (n : Nat) : Half := sigmaRom.getD n 0

end Sys2Proof.Machine
end

