-- ==== Sys2Proof/Machine/Operands.lean ====
section
/-! DEFINITION. Where commands take their operands from: the active configuration as numbers
(spec/10_state.md R22), the three sources of sigma (spec/44_noise.md R207), and the checks several
commands share (spec/40_config_timebase.md R127, spec/43_modulate.md R176, spec/45_demodulate.md
R221). -/

namespace Sys2Proof.Machine

/-- `FS` (R12). -/
def cfgFs (s : State) : Nat := s.cfg.fs.toNat
/-- `FC`. -/
def cfgFc (s : State) : Nat := s.cfg.fc.toNat
/-- `NBITS`. -/
def cfgNbits (s : State) : Nat := s.cfg.nbits.toNat
/-- `SPB`, samples per bit. -/
def cfgSpb (s : State) : Nat := s.cfg.spb.toNat
/-- `NSYM`, number of symbols. -/
def cfgNsym (s : State) : Nat := s.cfg.nsym.toNat
/-- `SPS`, samples per symbol. -/
def cfgSps (s : State) : Nat := s.cfg.sps.toNat

/-- The operand sigma of an ADD_NOISE (R207). -/
inductive SigmaSource where
  /-- `M = 0`: CFG_NOISE_STD. -/
  | config
  /-- `M = 1`: the immediate `asS(IMM16)`. -/
  | immediate (sigma : Int)
  /-- inside RUN_SWEEP: `SIGMA_ROM[n]` (R263). -/
  | rom (n : Nat)
  deriving DecidableEq, Repr

/-- The value of sigma, in units of `2^-12` (R201). -/
def sigmaOf (src : SigmaSource) (s : State) : Int :=
  match src with
  | .config => s.cfg.noiseStd.toInt
  | .immediate sigma => sigma
  | .rom n => (sigmaRomAt n).toInt

/-- The precondition of seven commands: `STATUS.CFG_VALID = 1`, else NOT_CONFIGURED (R127). -/
def requireConfigured (s : State) (rest : Completion) : Completion :=
  requireElse (s.ctl.cfgValid = true) .notConfigured s rest

/-- Checks 2 and 3 of MODULATE and DEMODULATE: `CILEN = CFG_FS`, and for QPSK `CQLEN = CFG_FS`,
else NO_CARRIERS (R176, R221). -/
def requireCarriers (s : State) (rest : Completion) : Completion :=
  requireElse (s.len.cilen = s.cfg.fs) .noCarriers s <|
    requireElse (s.cfg.scheme = .qpsk → s.len.cqlen = s.cfg.fs) .noCarriers s rest

end Sys2Proof.Machine
end

