-- ==== Sys2Proof/Machine/Configure.lean ====
section
/-! DEFINITION. CONFIG and GET_NAME (spec/40_config_timebase.md). -/

namespace Sys2Proof.Machine

/-- `NSYM`: `nb div 2` for QPSK, `nb` otherwise (R121). -/
def symbolCount (sc : Scheme) (nb : Nat) : Nat := if sc = .qpsk then nb / 2 else nb

/-- The active configuration CONFIG commits for a scheme and the staging registers (R121). -/
def committedConfig (g : Staging) (sc : Scheme) : ActiveConfig :=
  { fs := g.fs
    fc := g.fc
    nbits := g.nbits
    noiseStd := g.noiseStd
    scheme := sc
    spb := BitVec.ofNat 32 (g.fs.toNat / g.nbits.toNat)
    nsym := BitVec.ofNat 32 (symbolCount sc g.nbits.toNat)
    sps := BitVec.ofNat 32 (g.fs.toNat / symbolCount sc g.nbits.toNat) }

/-- What a successful CONFIG writes: the active configuration, the five lengths to 0, CFG_VALID. -/
def commitConfig (sc : Scheme) (s : State) : State :=
  { s with
    cfg := committedConfig s.stg sc
    len := { cilen := 0, cqlen := 0, txlen := 0, rxlen := 0, wlen := 0 }
    ctl := { s.ctl with cfgValid := true } }

/-- CONFIG, the seven checks in their order and the commit (R121). -/
def configBody (P : Config.Params) (s : State) : Completion :=
  match schemeOfCode s.stg.scheme with
  | none => .raised .badScheme s
  | some sc =>
    requireElse (1 ≤ s.stg.fs.toNat) .zeroFs s <|
    requireElse (s.stg.fs.toNat ≤ P.fsMax) .capacity s <|
    requireElse (1 ≤ s.stg.fc.toNat) .zeroFc s <|
    requireElse (1 ≤ s.stg.nbits.toNat) .zeroBits s <|
    requireElse (s.stg.fs.toNat % s.stg.nbits.toNat = 0) .nonintegralDiv s <|
    requireElse (sc = .qpsk → s.stg.nbits.toNat % 2 = 0) .oddBitsQpsk s <|
    .ended (commitConfig sc s)

/-- CONFIG (R121). -/
def execConfig (s : State) : Host.Outcome State Fault Refusal :=
  runCommand (encode .config) (configBody s.params) s

/-- GET_NAME: `NAME <- NAMECODE(CFG_SCHEME)` (R126). -/
def getNameBody (s : State) : Completion :=
  requireConfigured s <|
    .ended { s with res := { s.res with name := nameCode s.cfg.scheme } }

/-- GET_NAME (R126). -/
def execGetName (s : State) : Host.Outcome State Fault Refusal :=
  runCommand (encode .getName) getNameBody s

end Sys2Proof.Machine
end

