-- ==== Sys2Proof/Machine/SoftReset.lean ====
section
/-! DEFINITION. SOFT_RESET (spec/70_reset_and_hazards.md R311). -/

namespace Sys2Proof.Machine

/-- SOFT_RESET: the reset state; STATUS, DONE included, and CMD read 0 at its end (R311, R95). -/
def execSoftReset (s : State) : Host.Outcome State Fault Refusal := .next (resetBlock s)

end Sys2Proof.Machine
end

