-- ==== Sys2Proof/Machine/BitSource.lean ====
section
/-! DEFINITION. GEN_BITS (spec/42_bitsource.md R163). -/

namespace Sys2Proof.Machine

/-- The data bit of a generator state: bit 31 (R163). -/
def dataBit (x : Word) : Bit := x.extractLsb' 31 1

/-- Iteration `j`: `x <- next() ; TXBITS[j] <- x[31]`. -/
def generateBit (j : Nat) (s : State) : State :=
  let t := stepPrng s
  writeTx j (dataBit t.prng) t

/-- GEN_BITS (R163). -/
def genBitsBody (s : State) : Completion :=
  requireConfigured s <|
    let t := forUpTo (cfgNbits s) generateBit s
    .ended { t with len := { t.len with txlen := t.cfg.nbits } }

/-- GEN_BITS (R163). -/
def execGenBits (s : State) : Host.Outcome State Fault Refusal :=
  runCommand (encode .genBits) genBitsBody s

end Sys2Proof.Machine
end

