-- ==== Sys2Proof/Machine/Carrier.lean ====
section
/-! DEFINITION. GEN_CARRIERS (spec/41_carrier.md). -/

namespace Sys2Proof.Machine

/-- Iteration `k` of R142's loop, on the phase accumulator `PH` and the state.  `PH` is not kept
after the command (R143, R33). -/
def carrierSample (inc k : Nat) (a : Nat × State) : Nat × State :=
  let fs := cfgFs a.2
  ((a.1 + inc) % fs,
   if a.2.cfg.scheme = .qpsk then writeCarrQ k (sinq a.1 fs) (writeCarrI k (cosq a.1 fs) a.2)
   else writeCarrI k (sinq a.1 fs) a.2)

/-- GEN_CARRIERS (R142). -/
def genCarriersBody (s : State) : Completion :=
  requireConfigured s <|
    let t := (forUpTo (cfgFs s) (carrierSample (cfgFc s % cfgFs s)) (0, s)).2
    .ended { t with len := { t.len with
      cilen := t.cfg.fs
      cqlen := if t.cfg.scheme = .qpsk then t.cfg.fs else 0 } }

/-- GEN_CARRIERS (R142). -/
def execGenCarriers (s : State) : Host.Outcome State Fault Refusal :=
  runCommand (encode .genCarriers) genCarriersBody s

end Sys2Proof.Machine
end

