-- ==== Sys2Proof/Machine/Demodulator.lean ====
section
/-! DEFINITION. DEMODULATE: threshold comparator with majority vote, correlator bank with sign
comparators (spec/45_demodulate.md). -/

namespace Sys2Proof.Machine

/-- Bit of a correlation: `> 0` is bit 0, `<= 0` is bit 1 (R224, R225). -/
def signBit (acc : Acc) : Bit := if 0 < acc.toInt then 0 else 1

/-- ASK, sample `k`: count it when `abs(WAVE[k]) > ASK_THRESH`, a strict comparison (R223). -/
def countHigh (k : Nat) (s : State) : State :=
  let x := readWave k s
  if x.2.askThresh.toNat < absSample x.1 then setAcc (x.2.res.accI + 1) x.2.res.accQ x.2 else x.2

/-- `ACC_I <- ACC_I + WAVE[k] * CARR_I[k]` (R224). -/
def correlateI (k : Nat) (s : State) : State :=
  let x := readWave k s
  let c := readCarrI k x.2
  setAcc (c.2.res.accI + product64 x.1 c.1) c.2.res.accQ c.2

/-- `ACC_Q <- ACC_Q + WAVE[k] * CARR_Q[k]` (R225). -/
def correlateQ (k : Nat) (s : State) : State :=
  let x := readWave k s
  let c := readCarrQ k x.2
  setAcc c.2.res.accI (c.2.res.accQ + product64 x.1 c.1) c.2

/-- ASK, bit `j`: bit 1 when more than half of the segment's samples are high (R223). -/
def demodulateAsk (j : Nat) (s : State) : State :=
  let spb := cfgSpb s
  let t := forUpTo spb (fun m => countHigh (j * spb + m)) (setAcc 0 0 s)
  writeRx j (if spb < 2 * t.res.accI.toNat then 1 else 0) t

/-- BPSK, bit `j`: the sign of the segment's correlation (R224). -/
def demodulateBpsk (j : Nat) (s : State) : State :=
  let sps := cfgSps s
  let t := forUpTo sps (fun m => correlateI (j * sps + m)) (setAcc 0 0 s)
  writeRx j (signBit t.res.accI) t

/-- QPSK, symbol `n`: the in-phase sign is the even bit, the quadrature sign the odd bit (R225,
spec/90 C1). -/
def demodulateQpsk (n : Nat) (s : State) : State :=
  let sps := cfgSps s
  let t := forUpTo sps (fun m u => correlateQ (n * sps + m) (correlateI (n * sps + m) u)) (setAcc 0 0 s)
  writeRx (2 * n + 1) (signBit t.res.accQ) (writeRx (2 * n) (signBit t.res.accI) t)

/-- The loop over the bits or symbols of the active scheme (R221). -/
def demodulateAll (s : State) : State :=
  match s.cfg.scheme with
  | .ask => forUpTo (cfgNbits s) demodulateAsk s
  | .bpsk => forUpTo (cfgNbits s) demodulateBpsk s
  | .qpsk => forUpTo (cfgNsym s) demodulateQpsk s

/-- DEMODULATE (R221). -/
def demodulateBody (s : State) : Completion :=
  requireConfigured s <|
  requireCarriers s <|
  requireElse (s.len.wlen = s.cfg.fs) .badWaveLen s <|
    let t := demodulateAll s
    .ended { t with len := { t.len with rxlen := t.cfg.nbits } }

/-- DEMODULATE (R221). -/
def execDemodulate (s : State) : Host.Outcome State Fault Refusal :=
  runCommand (encode .demodulate) demodulateBody s

end Sys2Proof.Machine
end

