-- ==== Sys2Proof/Machine/Modulator.lean ====
section
/-! DEFINITION. MODULATE for the three schemes (spec/43_modulate.md). -/

namespace Sys2Proof.Machine

/-- A carrier sample, negated when the bit is 1, in 32 bits (R177, R179, R180). -/
def keyedSample (b : Bit) (c : Half) : Word := if b = 1 then -(sext32 c) else sext32 c

/-- ASK, sample `k`: the carrier when the bit is 1, zero when it is 0 (R178). -/
def modulateAsk (k : Nat) (s : State) : State :=
  let b := readTx (k / cfgSpb s) s
  if b.1 = 1 then
    let c := readCarrI k b.2
    writeWave k (sext32 c.1) c.2
  else writeWave k 0 b.2

/-- BPSK, sample `k`: the carrier, negated when the bit is 1 (R179). -/
def modulateBpsk (k : Nat) (s : State) : State :=
  let b := readTx (k / cfgSpb s) s
  let c := readCarrI k b.2
  writeWave k (keyedSample b.1 c.1) c.2

/-- QPSK, sample `k`: the sum of the two keyed carriers; the even bit of the pair keys the in-phase
carrier and the odd bit the quadrature carrier (R180, spec/90 C1). -/
def modulateQpsk (k : Nat) (s : State) : State :=
  let sym := k / cfgSps s
  let i := readTx (2 * sym) s
  let q := readTx (2 * sym + 1) i.2
  let ci := readCarrI k q.2
  let cq := readCarrQ k ci.2
  writeWave k (keyedSample i.1 ci.1 + keyedSample q.1 cq.1) cq.2

/-- Sample `k` under the active scheme (R176). -/
def modulateSample (k : Nat) (s : State) : State :=
  match s.cfg.scheme with
  | .ask => modulateAsk k s
  | .bpsk => modulateBpsk k s
  | .qpsk => modulateQpsk k s

/-- MODULATE (R176). -/
def modulateBody (s : State) : Completion :=
  requireConfigured s <|
  requireCarriers s <|
  requireElse (s.len.txlen = s.cfg.nbits) .badBitsLen s <|
    let t := forUpTo (cfgFs s) modulateSample s
    .ended { t with len := { t.len with wlen := t.cfg.fs } }

/-- MODULATE (R176). -/
def execModulate (s : State) : Host.Outcome State Fault Refusal :=
  runCommand (encode .modulate) modulateBody s

end Sys2Proof.Machine
end

