-- ==== Sys2Proof/Machine/Gauss.lean ====
section
/-! DEFINITION. The uniform-to-normal transform `GAUSS` of spec/00_scope.md R10 (Box-Muller) and the
noise scaling of spec/44_noise.md R204, in the fixed point of `Machine/Rom.lean`. -/

namespace Sys2Proof.Machine

/-- `floor(ln 2 * 2^160)`. -/
def fixLn2 : Nat := 1013035739299659071135698605846798551586536899366

/-- Terms of the logarithm series kept: with `z <= 1/3` the next one is below `2^-160`. -/
def logTerms : Nat := 60

/-- Horner's rule for `atanh(z)/z` from term `k` on: `1/(2k+1) + z2 * (...)`. -/
def atanhHorner (z2 : Nat) : Nat → Nat → Nat
  | 0, _ => 0
  | n + 1, k => fixOne / (2 * k + 1) + z2 * atanhHorner z2 n (k + 1) / fixOne

/-- `ln m` for a fixed-point `m` in `1 .. 2`, as `2 * atanh((m - 1)/(m + 1))`. -/
def fixLnMantissa (m : Nat) : Nat :=
  let z := (m - fixOne) * fixOne / (m + fixOne)
  2 * (z * atanhHorner (z * z / fixOne) logTerms 0 / fixOne)

/-- `-ln(x / 2^32)` for `1 <= x < 2^32`, with `x = m * 2^(log2 x)`. -/
def fixNegLn (x : Nat) : Nat :=
  (32 - x.log2) * fixLn2 - fixLnMantissa (x * fixOne / 2 ^ x.log2)

/-- Integer square root by Newton's iteration from an overestimate `x`; the fuel bounds the steps. -/
def isqrtFrom (n : Nat) : Nat → Nat → Nat
  | 0, x => x
  | fuel + 1, x =>
    let y := (x + n / x) / 2
    if x ≤ y then x else isqrtFrom n fuel y

/-- `r = sqrt(-2 ln(x1 / 2^32))`; it is below 8, so `8` is an overestimate. -/
def fixRadius (x1 : Nat) : Nat := isqrtFrom (2 * fixNegLn x1 * fixOne) 200 (8 * fixOne)

/-- `GAUSS(x1, x2)`, two variates in Q.12 (R10); with `x1 = 0`, outside its domain, a free value. -/
def gauss (x1 x2 : Word) : Half × Half :=
  if x1 = 0 then Config.gaussAtZero x2
  else
    let r : Int := fixRadius x1.toNat
    let c := fixCos x2.toNat (2 ^ 32)
    let s := fixSin x2.toNat (2 ^ 32)
    (BitVec.ofInt 16 (roundWithin 27281 (2 * fixBits - 12) (r * c)),
     BitVec.ofInt 16 (roundWithin 27281 (2 * fixBits - 12) (r * s)))

/-- `NZ(sigma, Z) = asr(sigma * Z + 512, 10)` (R201, R204). -/
def noiseSample (sigma z : Int) : Int := asr (sigma * z + 512) 10

end Sys2Proof.Machine
end

