-- ==== Sys2Proof/Machine/NoiseChannel.lean ====
section
/-! DEFINITION. ADD_NOISE and ADD_NOISE.I (spec/44_noise.md). -/

namespace Sys2Proof.Machine

/-- `WAVE[k] <- sat32(WAVE[k] + NZ(sigma, z))` (R201). -/
def addNoiseSample (sigma : Int) (k : Nat) (z : Half) (s : State) : State :=
  let x := readWave k s
  writeWave k (satAdd32 x.1 (noiseSample sigma z.toInt)) x.2

/-- Iteration `p`: two generator states, two variates; the even sample takes the first and the odd
one, if it is below `FS`, the second (R201, R203). -/
def addNoisePair (sigma : Int) (p : Nat) (s : State) : State :=
  let s1 := stepPrng s
  let s2 := stepPrng s1
  let z := gauss s1.prng s2.prng
  let s3 := addNoiseSample sigma (2 * p) z.1 s2
  if 2 * p + 1 < cfgFs s then addNoiseSample sigma (2 * p + 1) z.2 s3 else s3

/-- ADD_NOISE with a source of sigma (R201). -/
def addNoiseBody (src : SigmaSource) (s : State) : Completion :=
  requireConfigured s <|
  requireElse (0 ≤ sigmaOf src s) .negativeSigma s <|
  requireElse (s.len.wlen = s.cfg.fs) .badWaveLen s <|
    .ended (forUpTo ((cfgFs s + 1) / 2) (addNoisePair (sigmaOf src s)) s)

/-- ADD_NOISE, sigma from CFG_NOISE_STD (R201). -/
def execAddNoise (s : State) : Host.Outcome State Fault Refusal :=
  runCommand (encode .addNoise) (addNoiseBody .config) s

/-- ADD_NOISE.I, sigma from the immediate (R201). -/
def execAddNoiseI (sigma : Int) (s : State) : Host.Outcome State Fault Refusal :=
  runCommand (encode (.addNoiseI sigma)) (addNoiseBody (.immediate sigma)) s

end Sys2Proof.Machine
end

