-- ==== Sys2Proof/Machine/Scorer.lean ====
section
/-! DEFINITION. SCORE (spec/46_score.md). -/

namespace Sys2Proof.Machine

/-- Iteration `j`: count the position when the two bits differ (R251). -/
def compareBit (j : Nat) (a : Nat × State) : Nat × State :=
  let x := readTx j a.2
  let y := readRx j x.2
  (if x.1 ≠ y.1 then a.1 + 1 else a.1, y.2)

/-- SCORE (R251). -/
def scoreBody (s : State) : Completion :=
  requireElse (s.len.txlen = s.len.rxlen) .lengthMismatch s <|
  requireElse (1 ≤ s.len.txlen.toNat) .zeroBits s <|
    let a := forUpTo s.len.txlen.toNat compareBit (0, s)
    .ended { a.2 with res := { a.2.res with
      errCount := BitVec.ofNat 32 a.1
      berDen := a.2.len.txlen } }

/-- SCORE (R251). -/
def execScore (s : State) : Host.Outcome State Fault Refusal :=
  runCommand (encode .score) scoreBody s

end Sys2Proof.Machine
end

