-- ==== Sys2Proof/Machine/SweepDriver.lean ====
section
/-! DEFINITION. RUN_SWEEP (spec/47_sweep.md). -/

namespace Sys2Proof.Machine

/-- The eight words of the record of step `n` (R267). -/
def sweepRecord (n : Nat) (s : State) : List Word :=
  [zext32 (schemeCode s.cfg.scheme), s.cfg.fs, s.cfg.fc, s.cfg.nbits, zext32 s.cfg.noiseStd,
   BitVec.ofNat 32 n, zext32 (sigmaRomAt n), s.res.errCount]

/-- Write consecutive LOG words from index `i` on. -/
def writeLogWords : Nat → List Word → State → State
  | _, [], s => s
  | i, v :: vs, s => writeLogWords (i + 1) vs (writeLog i v s)

/-- `LOG[n] <- record(n) ; LOG_COUNT <- n + 1` (R262). -/
def appendRecord (n : Nat) (s : State) : State :=
  let t := writeLogWords (8 * n) (sweepRecord n s) s
  { t with sweep := { t.sweep with logCount := BitVec.ofNat 32 (n + 1) } }

/-- `SWEEP_STATE <- RUNNING ; SWEEP_STEP <- n`. -/
def startStep (n : Nat) (s : State) : State :=
  { s with sweep := { s.sweep with state := .running, step := BitVec.ofNat 32 n } }

/-- Step `n`: one trial, checks included, then its record (R262, R263). -/
def sweepStep (n : Nat) (s : State) : Completion :=
  andThen (genBitsBody (startStep n s)) fun s1 =>
  andThen (modulateBody s1) fun s2 =>
  andThen (addNoiseBody (.rom n) s2) fun s3 =>
  andThen (demodulateBody s3) fun s4 =>
  andThen (scoreBody s4) fun s5 =>
  .ended (appendRecord n s5)

/-- Steps `0 .. k - 1` in index order; a `raise` ends the sweep there (R262, R268). -/
def sweepSteps (k : Nat) (s : State) : Completion :=
  match k with
  | 0 => .ended s
  | n + 1 => andThen (sweepSteps n s) (sweepStep n)

/-- `SWEEP_STATE <- INIT ; SWEEP_STEP <- 0 ; LOG_COUNT <- 0`. -/
def startSweep (s : State) : State :=
  { s with sweep := { state := .init, step := 0, logCount := 0 } }

/-- `SWEEP_STATE <- DONE ; SWEEP_STEP <- K`. -/
def endSweep (k : Nat) (s : State) : State :=
  { s with sweep := { s.sweep with state := .done, step := BitVec.ofNat 32 k } }

/-- RUN_SWEEP (R262). -/
def runSweepBody (P : Config.Params) (k : Nat) (s : State) : Completion :=
  requireConfigured s <|
  requireElse (k ≤ P.stepMax) .stepRange s <|
    andThen (genCarriersBody (startSweep s)) fun s1 =>
    andThen (sweepSteps k s1) fun s2 =>
    .ended (endSweep k s2)

/-- RUN_SWEEP (R262). -/
def execRunSweep (k : Nat) (s : State) : Host.Outcome State Fault Refusal :=
  runCommand (encode (.runSweep k)) (runSweepBody s.params k) s

end Sys2Proof.Machine
end

