-- ==== Sys2Proof/Machine/Dispatch.lean ====
section
/-! DEFINITION. One arm per command (spec/30_encoding.md R93). -/

namespace Sys2Proof.Machine

/-- The whole effect of a command word's command, from its CMD write to its end (R7, R95). -/
def exec (i : Instr) (s : State) : Host.Outcome State Fault Refusal :=
  match i with
  | .config => Sys2Proof.Machine.execConfig s
  | .genCarriers => Sys2Proof.Machine.execGenCarriers s
  | .genBits => Sys2Proof.Machine.execGenBits s
  | .modulate => Sys2Proof.Machine.execModulate s
  | .addNoise => Sys2Proof.Machine.execAddNoise s
  | .addNoiseI sigma => Sys2Proof.Machine.execAddNoiseI sigma s
  | .demodulate => Sys2Proof.Machine.execDemodulate s
  | .score => Sys2Proof.Machine.execScore s
  | .runSweep k => Sys2Proof.Machine.execRunSweep k s
  | .getName => Sys2Proof.Machine.execGetName s
  | .softReset => Sys2Proof.Machine.execSoftReset s

end Sys2Proof.Machine
end

