-- ==== Sys2Proof/Machine/HostMap.lean ====
section
/-! DEFINITION. The host's address map (spec/20_memory.md R60, spec/10_state.md R21 to R29) and what
a transaction does at each place of it (spec/20_memory.md R62, R63). -/

namespace Sys2Proof.Machine

/-- The registers, by the names of R21 to R29. -/
inductive Reg where
  | cmd | status | errCode | errCmd
  | stgFs | stgFc | stgNbits | stgNoiseStd | stgScheme
  | askThresh | prng
  | cfgFs | cfgFc | cfgNbits | cfgNoiseStd | cfgScheme | spb | nsym | sps
  | cilen | cqlen | txlen | rxlen | wlen
  | errCount | berDen | name
  | accILo | accIHi | accQLo | accQHi
  | sweepState | sweepStep | logCount
  deriving DecidableEq, Repr

/-- The register at a word address below 0x40; 0x0B to 0x0F and 0x27 to 0x3F are reserved (R60). -/
def regAt : Nat → Option Reg
  | 0x00 => some .cmd
  | 0x01 => some .status
  | 0x02 => some .errCode
  | 0x03 => some .errCmd
  | 0x04 => some .stgFs
  | 0x05 => some .stgFc
  | 0x06 => some .stgNbits
  | 0x07 => some .stgNoiseStd
  | 0x08 => some .stgScheme
  | 0x09 => some .askThresh
  | 0x0A => some .prng
  | 0x10 => some .cfgFs
  | 0x11 => some .cfgFc
  | 0x12 => some .cfgNbits
  | 0x13 => some .cfgNoiseStd
  | 0x14 => some .cfgScheme
  | 0x15 => some .spb
  | 0x16 => some .nsym
  | 0x17 => some .sps
  | 0x18 => some .cilen
  | 0x19 => some .cqlen
  | 0x1A => some .txlen
  | 0x1B => some .rxlen
  | 0x1C => some .wlen
  | 0x1D => some .errCount
  | 0x1E => some .berDen
  | 0x1F => some .name
  | 0x20 => some .accILo
  | 0x21 => some .accIHi
  | 0x22 => some .accQLo
  | 0x23 => some .accQHi
  | 0x24 => some .sweepState
  | 0x25 => some .sweepStep
  | 0x26 => some .logCount
  | _ => none

/-- The word address of a register. -/
def regAddr : Reg → Addr
  | .cmd => 0x00
  | .status => 0x01
  | .errCode => 0x02
  | .errCmd => 0x03
  | .stgFs => 0x04
  | .stgFc => 0x05
  | .stgNbits => 0x06
  | .stgNoiseStd => 0x07
  | .stgScheme => 0x08
  | .askThresh => 0x09
  | .prng => 0x0A
  | .cfgFs => 0x10
  | .cfgFc => 0x11
  | .cfgNbits => 0x12
  | .cfgNoiseStd => 0x13
  | .cfgScheme => 0x14
  | .spb => 0x15
  | .nsym => 0x16
  | .sps => 0x17
  | .cilen => 0x18
  | .cqlen => 0x19
  | .txlen => 0x1A
  | .rxlen => 0x1B
  | .wlen => 0x1C
  | .errCount => 0x1D
  | .berDen => 0x1E
  | .name => 0x1F
  | .accILo => 0x20
  | .accIHi => 0x21
  | .accQLo => 0x22
  | .accQHi => 0x23
  | .sweepState => 0x24
  | .sweepStep => 0x25
  | .logCount => 0x26

/-- The places of the host's map. -/
inductive Place where
  | reg (r : Reg)
  | carrI (k : Nat)
  | carrQ (k : Nat)
  | wave (k : Nat)
  | txbits (j : Nat)
  | rxbits (j : Nat)
  /-- Word `f` of LOG record `r`, at index `8*r + f`. -/
  | log (i : Nat)
  | sigmaRom (n : Nat)
  /-- A reserved register address, an address outside every region, or one past the last element of
  a buffer (R60). -/
  | unmapped
  deriving DecidableEq, Repr

/-- A place inside a window when its index is below the depth, else unmapped (R60). -/
def within (depth : Nat) (mk : Nat → Place) (k : Nat) : Place := if k < depth then mk k else .unmapped

/-- The map of R60: window `a / 2^16`, index `a mod 2^16`. -/
def placeOf (P : Config.Params) (a : Addr) : Place :=
  let k := a.toNat % 0x10000
  match a.toNat / 0x10000 with
  | 0 => match regAt k with
    | some r => .reg r
    | none => .unmapped
  | 1 => within P.fsMax .carrI k
  | 2 => within P.fsMax .carrQ k
  | 3 => within P.fsMax .wave k
  | 4 => within P.fsMax .txbits k
  | 5 => within P.fsMax .rxbits k
  | 6 => within (8 * P.stepMax) .log k
  | _ => within P.stepMax .sigmaRom k

/-- The value a host reads from a register, narrower fields zero-extended (R62). -/
def readReg (s : State) : Reg → Word
  | .cmd => s.ctl.cmd
  | .status => statusWord s
  | .errCode => s.ctl.errCode
  | .errCmd => s.ctl.errCmd
  | .stgFs => s.stg.fs
  | .stgFc => s.stg.fc
  | .stgNbits => s.stg.nbits
  | .stgNoiseStd => zext32 s.stg.noiseStd
  | .stgScheme => zext32 s.stg.scheme
  | .askThresh => s.askThresh
  | .prng => s.prng
  | .cfgFs => s.cfg.fs
  | .cfgFc => s.cfg.fc
  | .cfgNbits => s.cfg.nbits
  | .cfgNoiseStd => zext32 s.cfg.noiseStd
  | .cfgScheme => zext32 (schemeCode s.cfg.scheme)
  | .spb => s.cfg.spb
  | .nsym => s.cfg.nsym
  | .sps => s.cfg.sps
  | .cilen => s.len.cilen
  | .cqlen => s.len.cqlen
  | .txlen => s.len.txlen
  | .rxlen => s.len.rxlen
  | .wlen => s.len.wlen
  | .errCount => s.res.errCount
  | .berDen => s.res.berDen
  | .name => s.res.name
  | .accILo => s.res.accI.extractLsb' 0 32
  | .accIHi => s.res.accI.extractLsb' 32 32
  | .accQLo => s.res.accQ.extractLsb' 0 32
  | .accQHi => s.res.accQ.extractLsb' 32 32
  | .sweepState => sweepStateCode s.sweep.state
  | .sweepStep => s.sweep.step
  | .logCount => s.sweep.logCount

/-- The value of a place and the state after reading it: only a draw is used up (R62). -/
def readPlace (p : Place) (s : State) : Word × State :=
  match p with
  | .reg r => (readReg s r, s)
  | .carrI k => let x := readCarrI k s; (sext32 x.1, x.2)
  | .carrQ k => let x := readCarrQ k s; (sext32 x.1, x.2)
  | .wave k => readWave k s
  | .txbits j => let x := readTx j s; (zext32 x.1, x.2)
  | .rxbits j => let x := readRx j s; (zext32 x.1, x.2)
  | .log i => readLog i s
  | .sigmaRom n => (zext32 (sigmaRomAt n), s)
  | .unmapped => (0, s)

/-- A host write to a register other than CMD: the writable ones of R20 by their rules (R21, R27,
R28, R162), no state change at the others (R63). -/
def writeReg (r : Reg) (v : Word) (s : State) : State :=
  match r with
  | .stgFs => { s with stg := { s.stg with fs := v } }
  | .stgFc => { s with stg := { s.stg with fc := v } }
  | .stgNbits => { s with stg := { s.stg with nbits := v } }
  | .stgNoiseStd => { s with stg := { s.stg with noiseStd := v.extractLsb' 0 16 } }
  | .stgScheme => { s with stg := { s.stg with scheme := v.extractLsb' 0 2 } }
  | .askThresh => { s with askThresh := v }
  | .prng => { s with prng := seedOf v }
  | .txlen => { s with len := { s.len with txlen := v } }
  | .wlen => { s with len := { s.len with wlen := v } }
  | .cmd => s
  | .status => s
  | .errCode => s
  | .errCmd => s
  | .cfgFs => s
  | .cfgFc => s
  | .cfgNbits => s
  | .cfgNoiseStd => s
  | .cfgScheme => s
  | .spb => s
  | .nsym => s
  | .sps => s
  | .cilen => s
  | .cqlen => s
  | .rxlen => s
  | .errCount => s
  | .berDen => s
  | .name => s
  | .accILo => s
  | .accIHi => s
  | .accQLo => s
  | .accQHi => s
  | .sweepState => s
  | .sweepStep => s
  | .logCount => s

/-- A host write to a place other than CMD: WAVE takes the word, TXBITS its bit 0, everything else
that is not a writable register is unchanged (R63). -/
def writePlace (p : Place) (v : Word) (s : State) : State :=
  match p with
  | .reg r => writeReg r v s
  | .wave k => writeWave k v s
  | .txbits j => writeTx j (v.extractLsb' 0 1) s
  | .carrI _ => s
  | .carrQ _ => s
  | .rxbits _ => s
  | .log _ => s
  | .sigmaRom _ => s
  | .unmapped => s

end Sys2Proof.Machine
end

