-- ==== Sys2Proof/Machine/HostPort.lean ====
section
/-! DEFINITION. The host's transactions: dispatch of a CMD write (spec/30_encoding.md R95 to R97),
reads and writes while idle and while busy (spec/20_memory.md R62 to R64), WAIT
(spec/30_encoding.md R112) and the hardware reset (spec/70_reset_and_hazards.md R312). -/

namespace Sys2Proof.Machine

/-- A command word that matches no row: ConfigurationError, ILLEGAL_CMD (R97). -/
def illegalCommand (w : Word) (s : State) : Host.Outcome State Fault Refusal :=
  runCommand w (fun t => .raised .illegalCmd t) s

/-- `HostWrite(CMD, w)` while `BUSY = 0` (R95): with `ERR = 1` only SOFT_RESET is executed and any
other word changes nothing (R96). -/
def writeCmd (w : Word) (s : State) : Host.Outcome State Fault Refusal :=
  if s.ctl.err = true then
    if w = encode .softReset then exec .softReset s else .next s
  else
    match decode w with
    | .ok i => exec i s
    | .error _ => illegalCommand w s

/-- `HostWrite(a, v)` (R63); dropped while `BUSY = 1` (R64). -/
def hostWrite (a : Addr) (v : Word) (s : State) : Host.Outcome State Fault Refusal :=
  if busy s = true then .next s
  else if placeOf s.params a = .reg .cmd then writeCmd v s
  else .next (writePlace (placeOf s.params a) v s)

/-- The value `HostRead(a)` returns, and the state with any draw used up (R62); while `BUSY = 1` a
read of anything but STATUS returns an unspecified word (R64). -/
def hostReadValue (a : Addr) (s : State) : Word × State :=
  if busy s = true ∧ placeOf s.params a ≠ .reg .status then (drawn s 32, afterDraw s)
  else readPlace (placeOf s.params a) s

/-- `RD a`: the value joins the script's result list (R112). -/
def recordResult (r : Word × State) : State :=
  { r.2 with host := { r.2.host with results := r.2.host.results ++ [r.1] } }

/-- `HostRead(a)`. -/
def hostRead (a : Addr) (s : State) : State := recordResult (hostReadValue a s)

/-- WAIT repeats `HostRead(STATUS)` until BUSY reads 0: while busy the statement stays in front of the
script, otherwise it is over (R112). -/
def hostWait (s : State) : State :=
  if busy s = true then { s with host := { s.host with script := .wait :: s.host.script } } else s

/-- What one item from outside does to the machine, the item already taken off the script. -/
def handleInput (x : Input) (s : State) : Host.Outcome State Fault Refusal :=
  match x with
  | .hostWrite a v => hostWrite a v s
  | .hostRead a => .next (hostRead a s)
  | .wait => .next (hostWait s)
  | .hardwareReset => .next (resetBlock s)

/-- The next item of the script and the state without it. -/
def nextInput (s : State) : Option (Input × State) :=
  match s.host.script with
  | [] => none
  | x :: rest => some (x, { s with host := { s.host with script := rest } })

/-- The host transaction that issues a table word: a write of it to CMD. -/
def commandInput (nbits w : Nat) : Input := .hostWrite (regAddr .cmd) (BitVec.ofNat 32 (w % 2 ^ nbits))

/-- A transaction put in front of the script, so that it is the next one. -/
def pushInput (x : Input) (s : State) : State :=
  { s with host := { s.host with script := x :: s.host.script } }

end Sys2Proof.Machine
end

