-- ==== Sys2Proof/Machine/Step.lean ====
section
/-! DEFINITION. One step: one item from outside (spec/00_scope.md R7). -/

namespace Sys2Proof.Machine

/-- One step takes the next item of the host's script; a command is one step with its whole effect
(R7).  With the script exhausted the run has ended (R8) and the block stays as it is (assumption log
entry 7). -/
def step (s : State) : Host.Outcome State Fault Refusal :=
  match nextInput s with
  | none => .next s
  | some (x, t) => handleInput x t

/-- The state in which the next step issues the command word `w`: the host's write of it to CMD
stands in front of its script (assumption log entry 8). -/
def State.withFetchWord (s : State) (nbits w : Nat) : State := pushInput (commandInput nbits w) s

end Sys2Proof.Machine
end

