-- ==== Sys2Proof/Machine/Script.lean ====
section
/-! DEFINITION. The host script statements and pseudo-instructions of spec/30_encoding.md R112 and
R113, as the transactions they stand for. -/

namespace Sys2Proof.Machine

/-- `WR register, value`. -/
def scriptWr (r : Reg) (v : Word) : List Input := [.hostWrite (regAddr r) v]

/-- `RD register`. -/
def scriptRd (r : Reg) : List Input := [.hostRead (regAddr r)]

/-- `WR WAVE+k, value`. -/
def scriptWrWave (k : Nat) (v : Word) : List Input := [.hostWrite (BitVec.ofNat 19 (0x30000 + k)) v]

/-- `WR TXBITS+j, value`. -/
def scriptWrTx (j : Nat) (v : Word) : List Input := [.hostWrite (BitVec.ofNat 19 (0x40000 + j)) v]

/-- `CMD mnemonic`, `CMD ADD_NOISE #s`, `CMD RUN_SWEEP #K`: the word to CMD, then WAIT. -/
def scriptCmd (i : Instr) : List Input := scriptWr .cmd (encode i) ++ [.wait]

/-- `CMD RUN_SWEEP`: the operand's default is 12. -/
def scriptRunSweepDefault : List Input := scriptCmd (.runSweep Config.stepDefault)

/-- `SETCFG fs, fc, nbits, noise, scheme`. -/
def scriptSetCfg (fs fc nbits noise scheme : Word) : List Input :=
  scriptWr .stgFs fs ++ scriptWr .stgFc fc ++ scriptWr .stgNbits nbits ++ scriptWr .stgNoiseStd noise
    ++ scriptWr .stgScheme scheme ++ scriptCmd .config

/-- The bit writes of LDBITS, from index `j` on. -/
def scriptBitWrites : Nat → List Word → List Input
  | _, [] => []
  | j, b :: bs => scriptWrTx j b ++ scriptBitWrites (j + 1) bs

/-- `LDBITS b0 b1 ... b(n-1)`. -/
def scriptLdBits (bs : List Word) : List Input :=
  scriptBitWrites 0 bs ++ scriptWr .txlen (BitVec.ofNat 32 bs.length)

/-- A trial with a given noise command. -/
def scriptTrialWith (noise : Instr) : List Input :=
  scriptCmd .genBits ++ scriptCmd .modulate ++ scriptCmd noise ++ scriptCmd .demodulate
    ++ scriptCmd .score

/-- `TRIAL`. -/
def scriptTrial : List Input := scriptTrialWith .addNoise

/-- `TRIAL #s`. -/
def scriptTrialAt (sigma : Int) : List Input := scriptTrialWith (.addNoiseI sigma)

/-- `SEED v`. -/
def scriptSeed (v : Word) : List Input := scriptWr .prng v

end Sys2Proof.Machine
end

