-- ==== Sys2Proof/Safety.lean ====
section
/-! DEFINITION. What claims are stated in: the end of a run (spec/00_scope.md R8), a valid active
configuration (spec/10_state.md R22), the control registers after a command
(spec/30_encoding.md R95, spec/60_exceptions.md R290), host accesses as relations, sequences of
commands, and the invariant of the machine. -/

namespace Sys2Proof.Machine

/-! ## The end of a run (R8) -/

/-- The script is exhausted. -/
def runEnded (s : State) : Prop := s.host.script = []

/-- A good end state: `STATUS.ERR = 0` and `STATUS.BUSY = 0`. -/
def goodEnd (s : State) : Prop := runEnded s ∧ s.ctl.err = false ∧ busy s = false

/-- A faulted run: the end state has `STATUS.ERR = 1`. -/
def faultedRun (s : State) : Prop := runEnded s ∧ s.ctl.err = true

/-! ## Control registers after a command -/

/-- CMD, SEQ and DONE after a command that completed; ERR and its registers as before (R95). -/
def doneCtl (i : Instr) (s : State) : Control := { s.ctl with cmd := encode i, seq := .idle, done := true }

/-- The control registers after the word `w` raised `c` (R95, R290). -/
def errorCtl (w : Word) (c : Cause) (s : State) : Control :=
  { s.ctl with cmd := w, seq := .idle, done := false, err := true, errCode := errCodeWord c, errCmd := w }

/-- The command changes nothing but the control registers, which report `c`: a precise error (R290). -/
def raises (i : Instr) (c : Cause) (s : State) : Prop :=
  exec i s = .next { s with ctl := errorCtl (encode i) c s }

/-! ## Host accesses as relations -/

/-- The machine `s` with the item `x` next and the script `rest` after it. -/
def facing (x : Input) (rest : List Input) (s : State) : State :=
  { s with host := { s.host with script := x :: rest } }

/-- A host read of `a` returns `v` and changes nothing but the host's list of results. -/
def readsTo (s : State) (a : Addr) (v : Word) : Prop :=
  ∀ rest, step (facing (.hostRead a) rest s) =
    .next { s with host := { script := rest, results := s.host.results ++ [v] } }

/-- A host read of `a` returns `v` and uses up one draw. -/
def drawsTo (s : State) (a : Addr) (v : Word) : Prop :=
  ∀ rest, step (facing (.hostRead a) rest s) =
    .next { s with host := { script := rest, results := s.host.results ++ [v] }, draws := s.draws + 1 }

/-- A host write of `v` to `a` takes the machine from `s` to `t`, both seen without the script. -/
def writesTo (s : State) (a : Addr) (v : Word) (t : State) : Prop :=
  ∀ rest, step (facing (.hostWrite a v) rest s) = .next { t with host := { s.host with script := rest } }

/-! ## Sequences of commands -/

/-- Commands one after another; it stops at a fault, a refusal or an error of the block. -/
def execAll : List Instr → State → Host.Outcome State Fault Refusal
  | [], s => .next s
  | i :: rest, s =>
    match exec i s with
    | .next t => if t.ctl.err = true then .next t else execAll rest t
    | .fault r => .fault r
    | .refused r => .refused r

/-- One manual trial with a given noise command (R12, R113). -/
def manualTrialWith (noise : Instr) : List Instr := [.genBits, .modulate, noise, .demodulate, .score]

/-- One manual trial at a given sigma. -/
def manualTrial (sigma : Int) : List Instr := manualTrialWith (.addNoiseI sigma)

/-- The manual trials at the noise levels of sweep steps `0 .. k - 1`, in order. -/
def manualTrials : Nat → List Instr
  | 0 => []
  | n + 1 => manualTrials n ++ manualTrial (sigmaRomAt n).toInt

/-- Two states agree on everything a trial reads or writes, buffers element by element. -/
structure SameTrialState (s t : State) : Prop where
  cfg : t.cfg = s.cfg
  len : t.len = s.len
  askThresh : t.askThresh = s.askThresh
  prng : t.prng = s.prng
  res : t.res = s.res
  carrI : ∀ k, t.mem.carrI.read? k = s.mem.carrI.read? k
  carrQ : ∀ k, t.mem.carrQ.read? k = s.mem.carrQ.read? k
  wave : ∀ k, t.mem.wave.read? k = s.mem.wave.read? k
  txbits : ∀ k, t.mem.txbits.read? k = s.mem.txbits.read? k
  rxbits : ∀ k, t.mem.rxbits.read? k = s.mem.rxbits.read? k
  draws : t.draws = s.draws

/-! ## Sums over a segment (R68, R230) -/

/-- The correlation of segment `j` of `L` samples: `sum of x[k] * c[k]` over its indices. -/
def segmentCorrelation (x : Nat → Word) (c : Nat → Half) (L j : Nat) : Int :=
  ∑ m ∈ Finset.range L, (x (j * L + m)).toInt * (c (j * L + m)).toInt

/-- `sum of c[k] * d[k]` over segment `j`: `E_I`, `E_Q` and `X` of R230. -/
def segmentProduct (c d : Nat → Half) (L j : Nat) : Int :=
  ∑ m ∈ Finset.range L, (c (j * L + m)).toInt * (d (j * L + m)).toInt

/-- The sign a bit gives a carrier: -1 for bit 1, 1 for bit 0 (R233). -/
def keySign (b : Bit) : Int := if b = 1 then -1 else 1

/-! ## The invariant of the machine -/

/-- The invariant of R22, in a block with parameters `P` that R5 allows. -/
structure ActiveConfig.Valid (P : Config.Params) (c : ActiveConfig) : Prop where
  params : P.Valid
  nbits_pos : 1 ≤ c.nbits.toNat
  nbits_le : c.nbits.toNat ≤ c.fs.toNat
  fs_le : c.fs.toNat ≤ P.fsMax
  fc_pos : 1 ≤ c.fc.toNat
  spb_mul : c.spb.toNat * c.nbits.toNat = c.fs.toNat
  sps_mul : c.sps.toNat * c.nsym.toNat = c.fs.toNat
  spb_pos : 1 ≤ c.spb.toNat
  sps_pos : 1 ≤ c.sps.toNat
  qpsk : c.scheme = .qpsk → 2 * c.nsym.toNat = c.nbits.toNat ∧ c.sps.toNat = 2 * c.spb.toNat
  single : c.scheme ≠ .qpsk → c.nsym = c.nbits ∧ c.sps = c.spb

/-- The phase of sample `k`, `PH_k = (k * FC) mod FS` (R141). -/
def phaseAt (c : ActiveConfig) (k : Nat) : Nat := k * c.fc.toNat % c.fs.toNat

/-- The sample of CARR_I at index `k`: cosine for QPSK, sine otherwise (R142). -/
def inPhaseReference (c : ActiveConfig) (k : Nat) : Half :=
  if c.scheme = .qpsk then cosq (phaseAt c k) c.fs.toNat else sinq (phaseAt c k) c.fs.toNat

/-- The sample of CARR_Q at index `k`, QPSK only (R142). -/
def quadratureReference (c : ActiveConfig) (k : Nat) : Half := sinq (phaseAt c k) c.fs.toNat

/-- The first `n` elements of a buffer have been written since reset. -/
def Buffer.filled {w : Nat} (b : Buffer w) (n : Nat) : Prop := ∀ k, k < n → ∃ v, b.read? k = some v

/-- What holds at reset and is kept by every step. -/
structure State.Inv (s : State) : Prop where
  /-- A step never ends while a command runs (R7, R320). -/
  idle : s.ctl.seq = .idle
  /-- The parameters are those of a block R5 allows. -/
  params : s.params.Valid
  /-- R22. -/
  config : s.ctl.cfgValid = true → s.cfg.Valid s.params
  /-- Without a configuration the sequencer's objects are absent (R27, R310). -/
  unconfigured : s.ctl.cfgValid = false → s.len.cilen = 0 ∧ s.len.cqlen = 0 ∧ s.len.rxlen = 0
  /-- PRNG is never 0 (R161). -/
  prng : s.prng ≠ 0
  /-- The buffers are in canonical form, within their depths. -/
  memory : s.mem.wf s.params
  /-- CARR_I is absent or holds the references of the active configuration (R27, R32, R142). -/
  carrI : s.len.cilen = 0 ∨ s.len.cilen = s.cfg.fs ∧
    ∀ k, k < s.cfg.fs.toNat → s.mem.carrI.read? k = some (inPhaseReference s.cfg k)
  /-- CARR_Q is absent or holds the quadrature references, QPSK only (R27, R32, R142). -/
  carrQ : s.len.cqlen = 0 ∨ s.len.cqlen = s.cfg.fs ∧ s.cfg.scheme = .qpsk ∧
    ∀ k, k < s.cfg.fs.toNat → s.mem.carrQ.read? k = some (quadratureReference s.cfg k)
  /-- RXBITS is absent or holds a whole recovered sequence (R27). -/
  rxbits : s.len.rxlen = 0 ∨ s.len.rxlen = s.cfg.nbits ∧ s.mem.rxbits.filled s.cfg.nbits.toNat
  /-- ERR_CODE and ERR_CMD read 0 while there is no error (R25). -/
  noError : s.ctl.err = false → s.ctl.errCode = 0 ∧ s.ctl.errCmd = 0
  /-- They describe the one error since reset, raised by the last command word (R25, R26, R291). -/
  error : s.ctl.err = true → s.ctl.done = false ∧ s.ctl.errCmd = s.ctl.cmd ∧
    ∃ c, s.ctl.errCode = errCodeWord c
  /-- BER is in [0,1] (R253). -/
  score : s.res.errCount.toNat ≤ s.res.berDen.toNat
  /-- The sweep driver is in INIT or DONE between commands: no sub-operation of a sweep can raise
  (R29, R268). -/
  sweep : s.sweep = { state := .init, step := 0, logCount := 0 } ∨
    s.sweep.state = .done ∧ s.sweep.step = s.sweep.logCount ∧
      s.sweep.logCount.toNat ≤ s.params.stepMax
  /-- Every record LOG_COUNT counts has been written (R29). -/
  log : s.mem.log.filled (8 * s.sweep.logCount.toNat)

end Sys2Proof.Machine
end

