-- ==== Sys2Proof/Certificates/Slice0/Obligations.lean ====
section
/-! DEFINITION. The statements for the provers, in the order of OBLIGATIONS.json. -/

open Sys2Proof Sys2Proof.Machine

/-! ## Command words -/

/-- Decode and encode agree: the word of a well-formed command decodes to it (R91 to R93). -/
def Obligations.DecodeOfEncode : Prop :=
  ∀ i : Instr, i.wf = true → decode (encode i) = .ok i

/-- A word that decodes is the word of its command, operand and all: no two words share a meaning
(R93). -/
def Obligations.EncodeOfDecode : Prop :=
  ∀ (w : Word) (i : Instr), decode w = .ok i → i.wf = true ∧ encode i = w

/-- R97: which words are illegal, and that an idle block without an error answers one with
ConfigurationError ILLEGAL_CMD and no other change. -/
def Obligations.IllegalWordsRaiseIllegalCmd : Prop :=
  (∀ w : Word, (∃ e, decode w = .error e) ↔
    (w.toNat % 256 = 0 ∨ 0x0A ≤ w.toNat % 256 ∧ w.toNat % 256 ≤ 0x0E ∨ 0x10 ≤ w.toNat % 256) ∨
    w.toNat / 512 % 128 ≠ 0 ∨
    (w.toNat / 256 % 2 = 1 ∧ w.toNat % 256 ≠ 0x05) ∨
    (w.toNat / 65536 ≠ 0 ∧ w.toNat % 256 ≠ 0x08 ∧ ¬ (w.toNat % 256 = 0x05 ∧ w.toNat / 256 % 2 = 1))) ∧
  (∀ (w : Word) (e : Illegal) (s : State), decode w = .error e → busy s = false → s.ctl.err = false →
    writesTo s (regAddr .cmd) w { s with ctl := errorCtl w .illegalCmd s } ∧
    errCodeWord .illegalCmd = 0x1701)

/-- Words written out from R91 to R93 decode to their commands. -/
def Obligations.WrittenWordsDecode : Prop :=
  decode 0x00000001 = .ok .config ∧ decode 0x00000002 = .ok .genCarriers ∧
  decode 0x00000003 = .ok .genBits ∧ decode 0x00000004 = .ok .modulate ∧
  decode 0x00000005 = .ok .addNoise ∧ decode 0xFFFF0105 = .ok (.addNoiseI (-1)) ∧
  decode 0x00000006 = .ok .demodulate ∧ decode 0x00000007 = .ok .score ∧
  decode 0x000C0008 = .ok (.runSweep 12) ∧ decode 0x00000009 = .ok .getName ∧
  decode 0x0000000F = .ok .softReset

/-! ## Steps and dispatch -/

/-- When the host's next transaction writes to CMD a word that decodes to `i`, the block being idle
and without an error, the step is `exec i` on the state with that transaction taken off the script
(R7, R95). -/
def Obligations.StepRunsDecodedCommand : Prop :=
  ∀ (s : State) (w : Word) (i : Instr) (rest : List Input),
    s.host.script = .hostWrite (regAddr .cmd) w :: rest → busy s = false → s.ctl.err = false →
    decode w = .ok i →
    step s = exec i { s with host := { s.host with script := rest } }

/-- R96: while `ERR = 1` a CMD write of the SOFT_RESET word performs SOFT_RESET, any other CMD write
changes nothing, and writes and reads elsewhere do what they do without the error; STATUS reads with
its ERR bit. -/
def Obligations.ErrorStateExecutesOnlyReset : Prop :=
  ∀ s : State, busy s = false → s.ctl.err = true →
    writesTo s (regAddr .cmd) 0x0000000F (resetBlock s) ∧
    (∀ w : Word, w ≠ 0x0000000F → writesTo s (regAddr .cmd) w s) ∧
    (∀ (a : Addr) (v : Word) (t : State), a ≠ regAddr .cmd →
      writesTo { s with ctl := { s.ctl with err := false } } a v t →
      writesTo s a v { t with ctl := { t.ctl with err := true } }) ∧
    (∀ (a : Addr) (v : Word) (d : Nat), a ≠ regAddr .status →
      (∀ rest, step (facing (.hostRead a) rest { s with ctl := { s.ctl with err := false } }) =
        .next { s with ctl := { s.ctl with err := false }
                       host := { script := rest, results := s.host.results ++ [v] }, draws := d }) →
      ∀ rest, step (facing (.hostRead a) rest s) =
        .next { s with host := { script := rest, results := s.host.results ++ [v] }, draws := d }) ∧
    readsTo s (regAddr .status) (statusWord s)

/-- While `BUSY = 1` a write is dropped, a read of STATUS is as always (R64), and any other read returns a
draw and moves the counter of draws on by one: the model's form of an unspecified value, its choice
(log entry 3).  The model reaches no busy state between two steps, by its choice too (log entry 1). -/
def Obligations.BusyBlockDropsWrites : Prop :=
  ∀ s : State, busy s = true →
    (∀ (a : Addr) (v : Word), writesTo s a v s) ∧
    readsTo s (regAddr .status) (statusWord s) ∧
    (∀ (a : Addr) (rest : List Input), a ≠ regAddr .status →
      step (facing (.hostRead a) rest s) =
        .next { s with host := { script := rest, results := s.host.results ++ [Config.freeWord s.draws] }
                       draws := s.draws + 1 })

/-- Every step answers a next state: no command word, address or state stops the machine (R63,
R97, R323); past the end of the script the state stays (the model's choice, log entry 7). -/
def Obligations.StepAlwaysAnswersNext : Prop :=
  ∀ s : State, ∃ t, step s = .next t

/-- R22: the active configuration is written only by a CMD write whose word is CONFIG's, by
SOFT_RESET's, and by a hardware reset; CONFIG commits the staging registers. -/
def Obligations.ActiveConfigChangesOnlyByConfigOrReset : Prop :=
  ∀ s t : State, step s = .next t → t.cfg ≠ s.cfg →
    (s.host.script.head? = some (.hostWrite (regAddr .cmd) 0x00000001) ∧
      ∃ sc, schemeOfCode s.stg.scheme = some sc ∧ t.cfg = committedConfig s.stg sc ∧
        t.ctl.cfgValid = true ∧ t.ctl.err = false) ∨
    (s.host.script.head? = some (.hostWrite (regAddr .cmd) 0x0000000F) ∧ t.cfg = State.reset.cfg) ∨
    (s.host.script.head? = some .hardwareReset ∧ t.cfg = State.reset.cfg)

/-- Once set, ERR stays set with ERR_CODE and ERR_CMD, whatever the host does, until SOFT_RESET or a
hardware reset clears everything (R291); until then nothing a command would write and the host can not
is changed.  That a reset leaves the rest of the script and the results (log entry 9), lists no buffer
word (log entry 10) and leaves the count of draws (log entry 3) is the model's choice, and so is that it
leaves the parameters, the model's argument (log entry 2). -/
def Obligations.ErrorIsStickyUntilReset : Prop :=
  ∀ s t : State, s.ctl.err = true → step s = .next t →
    (t.ctl = s.ctl ∧ t.cfg = s.cfg ∧ t.res = s.res ∧ t.sweep = s.sweep ∧ t.len.cilen = s.len.cilen ∧
      t.len.cqlen = s.len.cqlen ∧ t.len.rxlen = s.len.rxlen ∧ t.mem.carrI = s.mem.carrI ∧
      t.mem.carrQ = s.mem.carrQ ∧ t.mem.rxbits = s.mem.rxbits ∧ t.mem.log = s.mem.log) ∨
    ((s.host.script.head? = some (.hostWrite (regAddr .cmd) 0x0000000F) ∨
      s.host.script.head? = some .hardwareReset) ∧
      t = { State.resetWith s.params with
        host := { s.host with script := s.host.script.tail }, draws := s.draws })

/-- R312, R112, R8: a hardware reset gives the reset state whatever the block was doing, WAIT is over
at once when the block is idle and stays when it is busy, and with the script exhausted nothing
changes (the model's choice, log entry 7; that a reset leaves the host's side alone is log entry 9, the
count of draws log entry 3, the parameters log entry 2, and that it lists no buffer word log entry 10). -/
def Obligations.ResetWaitAndEndOfScript : Prop :=
  (∀ (s : State) (rest : List Input), step (facing .hardwareReset rest s) =
    .next { State.resetWith s.params with host := { s.host with script := rest }, draws := s.draws }) ∧
  (∀ (s : State) (rest : List Input), busy s = false →
    step (facing .wait rest s) = .next { s with host := { s.host with script := rest } }) ∧
  (∀ (s : State) (rest : List Input), busy s = true →
    step (facing .wait rest s) = .next (facing .wait rest s)) ∧
  (∀ s : State, s.host.script = [] → step s = .next s)

/-! ## Host reads and writes -/

/-- R62: a host read changes nothing of the block; only the host's results and the model's count of
draws move. -/
def Obligations.HostReadHasNoSideEffect : Prop :=
  ∀ (s : State) (a : Addr) (rest : List Input), ∃ v d,
    step (facing (.hostRead a) rest s) =
      .next { s with host := { script := rest, results := s.host.results ++ [v] }, draws := d }

/-- The register map of R21 to R29 with R62: the value at every register address, narrower fields
zero-extended. -/
def Obligations.RegisterReads : Prop :=
  ∀ s : State, busy s = false →
    readsTo s 0x00 s.ctl.cmd ∧
    (∃ v : Word, readsTo s 0x01 v ∧ v.toNat = (if s.ctl.done = true then 2 else 0)
      + (if s.ctl.err = true then 4 else 0) + (if s.ctl.cfgValid = true then 8 else 0)) ∧
    readsTo s 0x02 s.ctl.errCode ∧ readsTo s 0x03 s.ctl.errCmd ∧
    readsTo s 0x04 s.stg.fs ∧ readsTo s 0x05 s.stg.fc ∧ readsTo s 0x06 s.stg.nbits ∧
    readsTo s 0x07 (s.stg.noiseStd.setWidth 32) ∧ readsTo s 0x08 (s.stg.scheme.setWidth 32) ∧
    readsTo s 0x09 s.askThresh ∧ readsTo s 0x0A s.prng ∧
    readsTo s 0x10 s.cfg.fs ∧ readsTo s 0x11 s.cfg.fc ∧ readsTo s 0x12 s.cfg.nbits ∧
    readsTo s 0x13 (s.cfg.noiseStd.setWidth 32) ∧
    readsTo s 0x14 (match s.cfg.scheme with | .ask => 0 | .bpsk => 1 | .qpsk => 2) ∧
    readsTo s 0x15 s.cfg.spb ∧ readsTo s 0x16 s.cfg.nsym ∧ readsTo s 0x17 s.cfg.sps ∧
    readsTo s 0x18 s.len.cilen ∧ readsTo s 0x19 s.len.cqlen ∧ readsTo s 0x1A s.len.txlen ∧
    readsTo s 0x1B s.len.rxlen ∧ readsTo s 0x1C s.len.wlen ∧
    readsTo s 0x1D s.res.errCount ∧ readsTo s 0x1E s.res.berDen ∧ readsTo s 0x1F s.res.name ∧
    (∃ lo hi : Word, readsTo s 0x20 lo ∧ readsTo s 0x21 hi ∧
      s.res.accI.toNat = hi.toNat * 2 ^ 32 + lo.toNat) ∧
    (∃ lo hi : Word, readsTo s 0x22 lo ∧ readsTo s 0x23 hi ∧
      s.res.accQ.toNat = hi.toNat * 2 ^ 32 + lo.toNat) ∧
    readsTo s 0x24 (match s.sweep.state with | .init => 0 | .running => 1 | .done => 2) ∧
    readsTo s 0x25 s.sweep.step ∧ readsTo s 0x26 s.sweep.logCount

/-- R60 and R62: what a read returns at every buffer word that has been written, at every SIGMA_ROM
word, and at the reserved and unmapped addresses, at the depths of the block's own FS_MAX and STEP_MAX
(R5; that they stand in `State.params` is the model's form of an argument, log entry 2). -/
def Obligations.BufferAndUnmappedReads : Prop :=
  ∀ s : State, s.params.Valid → busy s = false →
    (∀ k x, k < s.params.fsMax → s.mem.carrI.read? k = some x →
      readsTo s (BitVec.ofNat 19 (0x10000 + k)) (x.signExtend 32)) ∧
    (∀ k x, k < s.params.fsMax → s.mem.carrQ.read? k = some x →
      readsTo s (BitVec.ofNat 19 (0x20000 + k)) (x.signExtend 32)) ∧
    (∀ k x, k < s.params.fsMax → s.mem.wave.read? k = some x → readsTo s (BitVec.ofNat 19 (0x30000 + k)) x) ∧
    (∀ j x, j < s.params.fsMax → s.mem.txbits.read? j = some x →
      readsTo s (BitVec.ofNat 19 (0x40000 + j)) (x.setWidth 32)) ∧
    (∀ j x, j < s.params.fsMax → s.mem.rxbits.read? j = some x →
      readsTo s (BitVec.ofNat 19 (0x50000 + j)) (x.setWidth 32)) ∧
    (∀ r f x, r < s.params.stepMax → f < 8 → s.mem.log.read? (8 * r + f) = some x →
      readsTo s (BitVec.ofNat 19 (0x60000 + 8 * r + f)) x) ∧
    (∀ n, n < s.params.stepMax → readsTo s (BitVec.ofNat 19 (0x70000 + n)) ((sigmaRomAt n).setWidth 32)) ∧
    (∀ a : Addr, (0x0B ≤ a.toNat ∧ a.toNat ≤ 0x0F ∨ 0x27 ≤ a.toNat ∧ a.toNat ≤ 0xFFFF ∨
        0x10000 ≤ a.toNat ∧ a.toNat ≤ 0x5FFFF ∧ s.params.fsMax ≤ a.toNat % 0x10000 ∨
        0x60000 + 8 * s.params.stepMax ≤ a.toNat ∧ a.toNat ≤ 0x6FFFF ∨
        0x70000 + s.params.stepMax ≤ a.toNat) →
      readsTo s a 0)

/-- R66, U1: a read of a word of any of the six buffers that nothing has written since reset returns a
draw, as wide as the element and extended as R62 says, and the next such read another one.  The draw and
its counter are the model's form of an unspecified value (log entries 3 and 14), and that the depths
FS_MAX and STEP_MAX (R5) stand in `State.params` is its form of an argument (log entry 2). -/
def Obligations.UnwrittenWordReadsAsDraw : Prop :=
  ∀ s : State, s.params.Valid → busy s = false →
    (∀ k, k < s.params.fsMax → s.mem.carrI.read? k = none →
      drawsTo s (BitVec.ofNat 19 (0x10000 + k)) (((Config.freeWord s.draws).setWidth 16).signExtend 32)) ∧
    (∀ k, k < s.params.fsMax → s.mem.carrQ.read? k = none →
      drawsTo s (BitVec.ofNat 19 (0x20000 + k)) (((Config.freeWord s.draws).setWidth 16).signExtend 32)) ∧
    (∀ k, k < s.params.fsMax → s.mem.wave.read? k = none →
      drawsTo s (BitVec.ofNat 19 (0x30000 + k)) (Config.freeWord s.draws)) ∧
    (∀ j, j < s.params.fsMax → s.mem.txbits.read? j = none →
      drawsTo s (BitVec.ofNat 19 (0x40000 + j)) (((Config.freeWord s.draws).setWidth 1).setWidth 32)) ∧
    (∀ j, j < s.params.fsMax → s.mem.rxbits.read? j = none →
      drawsTo s (BitVec.ofNat 19 (0x50000 + j)) (((Config.freeWord s.draws).setWidth 1).setWidth 32)) ∧
    (∀ r f, r < s.params.stepMax → f < 8 → s.mem.log.read? (8 * r + f) = none →
      drawsTo s (BitVec.ofNat 19 (0x60000 + 8 * r + f)) (Config.freeWord s.draws))

/-- R63: a host write to a read-only register or buffer, to a reserved or to an unmapped address, those at
FS_MAX and above in the windows of WAVE and TXBITS among them (R5, log entry 2), changes nothing. -/
def Obligations.ReadOnlyWritesAreIgnored : Prop :=
  ∀ (s : State) (a : Addr) (v : Word), busy s = false →
    (1 ≤ a.toNat ∧ a.toNat ≤ 3 ∨ 0x0B ≤ a.toNat ∧ a.toNat ≤ 0x19 ∨ a.toNat = 0x1B ∨
      0x1D ≤ a.toNat ∧ a.toNat ≤ 0x2FFFF ∨
      0x30000 ≤ a.toNat ∧ a.toNat ≤ 0x4FFFF ∧ s.params.fsMax ≤ a.toNat % 0x10000 ∨
      0x50000 ≤ a.toNat) →
    writesTo s a v s

/-- R21, R27, R28, R63: what a host write stores at the writable registers other than CMD and PRNG, and
in WAVE and TXBITS below FS_MAX; nothing else changes.  That FS_MAX (R5) stands in `State.params` is the
model's form of an argument (log entry 2). -/
def Obligations.WritableTargetsStore : Prop :=
  ∀ (s : State) (v : Word), s.params.Valid → busy s = false →
    writesTo s 0x04 v { s with stg := { s.stg with fs := v } } ∧
    writesTo s 0x05 v { s with stg := { s.stg with fc := v } } ∧
    writesTo s 0x06 v { s with stg := { s.stg with nbits := v } } ∧
    writesTo s 0x07 v { s with stg := { s.stg with noiseStd := v.setWidth 16 } } ∧
    writesTo s 0x08 v { s with stg := { s.stg with scheme := v.setWidth 2 } } ∧
    writesTo s 0x09 v { s with askThresh := v } ∧
    writesTo s 0x1A v { s with len := { s.len with txlen := v } } ∧
    writesTo s 0x1C v { s with len := { s.len with wlen := v } } ∧
    (∀ k, k < s.params.fsMax → ∃ b, writesTo s (BitVec.ofNat 19 (0x30000 + k)) v
      { s with mem := { s.mem with wave := b } } ∧
      ∀ n, b.read? n = if n = k then some v else s.mem.wave.read? n) ∧
    (∀ j, j < s.params.fsMax → ∃ b, writesTo s (BitVec.ofNat 19 (0x40000 + j)) v
      { s with mem := { s.mem with txbits := b } } ∧
      ∀ n, b.read? n = if n = j then some (v.setWidth 1) else s.mem.txbits.read? n)

/-- R162: a write to PRNG seeds it, a write of 0 stores `SEED_DEFAULT`, a read returns the current
state, and reset sets `SEED_DEFAULT`; so a stream position can be saved and restored. -/
def Obligations.PrngSeedingAndReadback : Prop :=
  (∀ (s : State) (v : Word), busy s = false →
    writesTo s 0x0A v { s with prng := if v = 0 then 0x92D68CA2 else v }) ∧
  (∀ s : State, busy s = false → readsTo s 0x0A s.prng) ∧
  State.reset.prng = 0x92D68CA2

/-! ## CONFIG and GET_NAME -/

/-- R121, R95: with the seven checks met CONFIG completes: the active configuration is the staging
registers with the derived counts, the five lengths are 0, CFG_VALID is 1, and nothing else
changes.  FS_MAX (R5) is the block's own, in `State.params` (the model's form of an argument, log
entry 2). -/
def Obligations.ConfigCommitsValidStaging : Prop :=
  ∀ (s : State) (sc : Scheme), s.stg.scheme = (match sc with | .ask => 0 | .bpsk => 1 | .qpsk => 2) →
    s.params.Valid → 1 ≤ s.stg.fs.toNat → s.stg.fs.toNat ≤ s.params.fsMax → 1 ≤ s.stg.fc.toNat → 1 ≤ s.stg.nbits.toNat →
    s.stg.fs.toNat % s.stg.nbits.toNat = 0 → (sc = .qpsk → s.stg.nbits.toNat % 2 = 0) →
    ∃ spb nsym sps : Word,
      spb.toNat = s.stg.fs.toNat / s.stg.nbits.toNat ∧
      nsym.toNat = (if sc = .qpsk then s.stg.nbits.toNat / 2 else s.stg.nbits.toNat) ∧
      sps.toNat = s.stg.fs.toNat / nsym.toNat ∧
      exec .config s = .next { s with
        cfg := { fs := s.stg.fs, fc := s.stg.fc, nbits := s.stg.nbits, noiseStd := s.stg.noiseStd,
                 scheme := sc, spb := spb, nsym := nsym, sps := sps }
        len := { cilen := 0, cqlen := 0, txlen := 0, rxlen := 0, wlen := 0 }
        ctl := { doneCtl .config s with cfgValid := true } }

/-- R121 and R286: CONFIG reports its first failing check, in the order of the seven, and then changes
nothing but the control registers; the codes are those of R281, the capacity is the block's own FS_MAX
(R5), in `State.params` (the model's form of an argument, log entry 2). -/
def Obligations.ConfigReportsFirstFailingCheck : Prop :=
  ∀ s : State,
    (s.stg.scheme = 3 → raises .config .badScheme s) ∧
    (s.stg.scheme ≠ 3 →
      (s.stg.fs = 0 → raises .config .zeroFs s) ∧
      (s.params.fsMax < s.stg.fs.toNat → raises .config .capacity s) ∧
      (1 ≤ s.stg.fs.toNat → s.stg.fs.toNat ≤ s.params.fsMax →
        (s.stg.fc = 0 → raises .config .zeroFc s) ∧
        (s.stg.fc ≠ 0 →
          (s.stg.nbits = 0 → raises .config .zeroBits s) ∧
          (s.stg.nbits ≠ 0 →
            (s.stg.fs.toNat % s.stg.nbits.toNat ≠ 0 → raises .config .nonintegralDiv s) ∧
            (s.stg.fs.toNat % s.stg.nbits.toNat = 0 → s.stg.scheme = 2 → s.stg.nbits.toNat % 2 = 1 →
              raises .config .oddBitsQpsk s))))) ∧
    errCodeWord .badScheme = 0x1001 ∧ errCodeWord .zeroFs = 0x0401 ∧ errCodeWord .capacity = 0x1201 ∧
    errCodeWord .zeroFc = 0x1101 ∧ errCodeWord .zeroBits = 0x0201 ∧
    errCodeWord .nonintegralDiv = 0x0101 ∧ errCodeWord .oddBitsQpsk = 0x0501

/-- What CONFIG commits meets the invariant of R22, whatever was staged and whatever was active, in every
block whose parameters R5 allows. -/
def Obligations.ConfigEstablishesValidConfiguration : Prop :=
  ∀ s t : State, s.params.Valid → s.ctl.err = false → exec .config s = .next t → t.ctl.err = false →
    t.cfg.Valid s.params

/-- R126 with the codes of R106: GET_NAME writes the packed name, or is refused as not configured;
nothing else changes. -/
def Obligations.GetNamePacksSchemeName : Prop :=
  ∀ s : State,
    (s.ctl.cfgValid = true → exec .getName s = .next { s with
      res := { s.res with name := match s.cfg.scheme with
        | .ask => 0x41534B00 | .bpsk => 0x4250534B | .qpsk => 0x5150534B }
      ctl := doneCtl .getName s }) ∧
    (s.ctl.cfgValid = false → raises .getName .notConfigured s)

/-- R127: with `CFG_VALID = 0` the commands it names raise NOT_CONFIGURED before any other check and
any write; CONFIG, SCORE and SOFT_RESET never raise it. -/
def Obligations.UnconfiguredCommandsAreRefused : Prop :=
  (∀ (s : State) (i : Instr), s.ctl.cfgValid = false →
    i ≠ .config → i ≠ .score → i ≠ .softReset → raises i .notConfigured s) ∧
  (∀ (s t : State) (i : Instr), i = .config ∨ i = .score ∨ i = .softReset → s.ctl.err = false →
    exec i s = .next t → t.ctl.err = true → t.ctl.errCode ≠ errCodeWord .notConfigured) ∧
  errCodeWord .notConfigured = 0x1301

/-- R290: a command that raises leaves ERR set, its code and its word in ERR_CODE and ERR_CMD, the
sequencer idle and DONE 0; a command other than RUN_SWEEP changes nothing else. -/
def Obligations.FailingCommandChangesOnlyErrorRegisters : Prop :=
  ∀ (s t : State) (i : Instr), s.ctl.err = false → exec i s = .next t → t.ctl.err = true →
    ∃ c, t.ctl = errorCtl (encode i) c s ∧
      t.ctl.errCode = 0#16 ++ subCode c ++ classCode (causeClass c) ∧
      ((∀ k, i ≠ .runSweep k) → t = { s with ctl := errorCtl (encode i) c s })

/-! ## The carrier synthesizer -/

/-- R142, R141, R143: GEN_CARRIERS completes and fills CARR_I, and for QPSK CARR_Q, below `FS` with the
ROM values at phase `(k*FC) mod FS`; nothing else changes. -/
def Obligations.GenCarriersFillsReferences : Prop :=
  ∀ s : State, s.ctl.cfgValid = true → ∃ ci cq,
    exec .genCarriers s = .next { s with
      mem := { s.mem with carrI := ci, carrQ := cq }
      len := { s.len with cilen := s.cfg.fs, cqlen := if s.cfg.scheme = .qpsk then s.cfg.fs else 0 }
      ctl := doneCtl .genCarriers s } ∧
    (∀ k, ci.read? k =
      if k < s.cfg.fs.toNat then
        some (if s.cfg.scheme = .qpsk then cosq (k * s.cfg.fc.toNat % s.cfg.fs.toNat) s.cfg.fs.toNat
          else sinq (k * s.cfg.fc.toNat % s.cfg.fs.toNat) s.cfg.fs.toNat)
      else s.mem.carrI.read? k) ∧
    (∀ k, cq.read? k =
      if s.cfg.scheme = .qpsk ∧ k < s.cfg.fs.toNat then
        some (sinq (k * s.cfg.fc.toNat % s.cfg.fs.toNat) s.cfg.fs.toNat)
      else s.mem.carrQ.read? k)

/-- R10 and R145: the ROM samples lie in `-16384 .. 16384`, the sine is 0 and the cosine 16384 at phase
0, the sine is odd and the cosine even around the full turn. -/
def Obligations.RomRangeAndSymmetry : Prop :=
  (∀ p fs, -16384 ≤ (sinq p fs).toInt ∧ (sinq p fs).toInt ≤ 16384 ∧
    -16384 ≤ (cosq p fs).toInt ∧ (cosq p fs).toInt ≤ 16384) ∧
  (∀ fs, 1 ≤ fs → sinq 0 fs = 0 ∧ cosq 0 fs = 16384) ∧
  (∀ p fs, 0 < p → p < fs →
    (sinq p fs).toInt = -(sinq (fs - p) fs).toInt ∧ (cosq p fs).toInt = (cosq (fs - p) fs).toInt)

/-- R146: the ROM tables for `fs` 4, 8, 12 and 16. -/
def Obligations.RomTables : Prop :=
  (List.range 4).map (fun p => (sinq p 4).toInt) = [0, 16384, 0, -16384] ∧
  (List.range 4).map (fun p => (cosq p 4).toInt) = [16384, 0, -16384, 0] ∧
  (List.range 8).map (fun p => (sinq p 8).toInt) =
    [0, 11585, 16384, 11585, 0, -11585, -16384, -11585] ∧
  (List.range 8).map (fun p => (cosq p 8).toInt) =
    [16384, 11585, 0, -11585, -16384, -11585, 0, 11585] ∧
  (List.range 12).map (fun p => (sinq p 12).toInt) =
    [0, 8192, 14189, 16384, 14189, 8192, 0, -8192, -14189, -16384, -14189, -8192] ∧
  (List.range 12).map (fun p => (cosq p 12).toInt) =
    [16384, 14189, 8192, 0, -8192, -14189, -16384, -14189, -8192, 0, 8192, 14189] ∧
  (List.range 16).map (fun p => (sinq p 16).toInt) =
    [0, 6270, 11585, 15137, 16384, 15137, 11585, 6270, 0, -6270, -11585, -15137, -16384, -15137,
     -11585, -6270] ∧
  (List.range 16).map (fun p => (cosq p 16).toInt) =
    [16384, 15137, 11585, 6270, 0, -6270, -11585, -15137, -16384, -15137, -11585, -6270, 0, 6270,
     11585, 15137]

/-- R232, R145: with a valid configuration whose `2*FC` is a multiple of `FS` every sample of the sine
reference GEN_CARRIERS writes for ASK and BPSK is 0. -/
def Obligations.DegenerateCarrierIsAllZero : Prop :=
  ∀ s : State, s.ctl.cfgValid = true → s.cfg.Valid s.params → s.cfg.scheme ≠ .qpsk →
    2 * s.cfg.fc.toNat % s.cfg.fs.toNat = 0 →
    ∃ t, exec .genCarriers s = .next t ∧ ∀ k, k < s.cfg.fs.toNat → t.mem.carrI.read? k = some 0

/-! ## The random generator and the bit source -/

/-- R10 (c), R161: `PRNG_NEXT` is xorshift32 and maps 0, and only 0, to 0. -/
def Obligations.PrngNextIsXorshiftAndKeepsNonzero : Prop :=
  (∀ x : Word, ∃ a b : Word, a = x ^^^ (x <<< 13) ∧ b = a ^^^ (a >>> 17) ∧ prngNext x = b ^^^ (b <<< 5)) ∧
  (∀ x : Word, prngNext x = 0 ↔ x = 0)

/-- R163: GEN_BITS completes; bit `j` is bit 31 of the `j+1`-th successor of PRNG, PRNG advances
`NBITS` times, TXLEN is `NBITS`, and nothing else changes. -/
def Obligations.GenBitsWritesTopBits : Prop :=
  ∀ s : State, s.ctl.cfgValid = true → ∃ tx,
    exec .genBits s = .next { s with
      mem := { s.mem with txbits := tx }
      len := { s.len with txlen := s.cfg.nbits }
      prng := prngNext^[s.cfg.nbits.toNat] s.prng
      ctl := doneCtl .genBits s } ∧
    ∀ j, tx.read? j = if j < s.cfg.nbits.toNat
      then some (BitVec.ofBool ((prngNext^[j + 1] s.prng).getLsbD 31)) else s.mem.txbits.read? j

/-! ## The modulator -/

/-- R176, R177: MODULATE with its four checks met completes, writes exactly `WAVE[0 .. FS-1]` and WLEN,
and changes nothing else; each sample is the rule of the scheme (R178, R179, R180) applied to the bit
or bits and the carrier samples that have been written, and no draw is used up where everything it reads
has been (ASK reads a carrier sample only for a bit 1; draws are the model's form, log entry 3). -/
def Obligations.ModulateWritesKeyedCarriers : Prop :=
  ∀ s : State, s.ctl.cfgValid = true → s.len.cilen = s.cfg.fs →
    (s.cfg.scheme = .qpsk → s.len.cqlen = s.cfg.fs) → s.len.txlen = s.cfg.nbits →
    ∃ w d, exec .modulate s = .next { s with
        mem := { s.mem with wave := w }
        len := { s.len with wlen := s.cfg.fs }
        ctl := doneCtl .modulate s
        draws := d } ∧
      w.filled s.cfg.fs.toNat ∧
      (∀ k, s.cfg.fs.toNat ≤ k → w.read? k = s.mem.wave.read? k) ∧
      ((∀ k, k < s.cfg.fs.toNat →
          (s.cfg.scheme = .ask → ∃ b, s.mem.txbits.read? (k / s.cfg.spb.toNat) = some b ∧
            (b = 1 → ∃ c, s.mem.carrI.read? k = some c)) ∧
          (s.cfg.scheme = .bpsk → ∃ b c, s.mem.txbits.read? (k / s.cfg.spb.toNat) = some b ∧
            s.mem.carrI.read? k = some c) ∧
          (s.cfg.scheme = .qpsk → ∃ i q ci cq, s.mem.txbits.read? (2 * (k / s.cfg.sps.toNat)) = some i ∧
            s.mem.txbits.read? (2 * (k / s.cfg.sps.toNat) + 1) = some q ∧
            s.mem.carrI.read? k = some ci ∧ s.mem.carrQ.read? k = some cq)) → d = s.draws) ∧
      ∀ k, k < s.cfg.fs.toNat →
        (s.cfg.scheme = .ask → ∀ b, s.mem.txbits.read? (k / s.cfg.spb.toNat) = some b →
          (b = 0 → w.read? k = some 0) ∧
          (b = 1 → ∀ c, s.mem.carrI.read? k = some c → w.read? k = some (c.signExtend 32))) ∧
        (s.cfg.scheme = .bpsk → ∀ b c, s.mem.txbits.read? (k / s.cfg.spb.toNat) = some b →
          s.mem.carrI.read? k = some c →
          w.read? k = some (BitVec.ofInt 32 (if b = 1 then -c.toInt else c.toInt))) ∧
        (s.cfg.scheme = .qpsk → ∀ i q ci cq,
          s.mem.txbits.read? (2 * (k / s.cfg.sps.toNat)) = some i →
          s.mem.txbits.read? (2 * (k / s.cfg.sps.toNat) + 1) = some q →
          s.mem.carrI.read? k = some ci → s.mem.carrQ.read? k = some cq →
          w.read? k = some (BitVec.ofInt 32
            ((if i = 1 then -ci.toInt else ci.toInt) + (if q = 1 then -cq.toInt else cq.toInt))))

/-- R177: with carriers in `-16384 .. 16384` a transmitted sample lies in `-16384 .. 16384` for ASK and
BPSK and in `-32768 .. 32768` for QPSK. -/
def Obligations.TransmittedSampleRange : Prop :=
  ∀ (s t : State), s.ctl.cfgValid = true → s.cfg.Valid s.params → s.ctl.err = false →
    s.mem.txbits.filled s.cfg.nbits.toNat →
    (∀ k, k < s.cfg.fs.toNat → ∃ c, s.mem.carrI.read? k = some c ∧ -16384 ≤ c.toInt ∧ c.toInt ≤ 16384) →
    (s.cfg.scheme = .qpsk → ∀ k, k < s.cfg.fs.toNat →
      ∃ c, s.mem.carrQ.read? k = some c ∧ -16384 ≤ c.toInt ∧ c.toInt ≤ 16384) →
    exec .modulate s = .next t → t.ctl.err = false →
    ∀ k, k < s.cfg.fs.toNat → ∃ x, t.mem.wave.read? k = some x ∧
      (s.cfg.scheme ≠ .qpsk → -16384 ≤ x.toInt ∧ x.toInt ≤ 16384) ∧
      -32768 ≤ x.toInt ∧ x.toInt ≤ 32768

/-- R176, R221, R201, R286: the checks of the middle commands after CFG_VALID, in their order; each
changes nothing but the control registers; codes as in R281. -/
def Obligations.MissingArgumentsAreReportedInOrder : Prop :=
  ∀ s : State, s.ctl.cfgValid = true →
    (s.len.cilen ≠ s.cfg.fs ∨ s.cfg.scheme = .qpsk ∧ s.len.cqlen ≠ s.cfg.fs →
      raises .modulate .noCarriers s ∧ raises .demodulate .noCarriers s) ∧
    (s.len.cilen = s.cfg.fs → (s.cfg.scheme = .qpsk → s.len.cqlen = s.cfg.fs) →
      (s.len.txlen ≠ s.cfg.nbits → raises .modulate .badBitsLen s) ∧
      (s.len.wlen ≠ s.cfg.fs → raises .demodulate .badWaveLen s)) ∧
    (s.cfg.noiseStd.toInt < 0 → raises .addNoise .negativeSigma s) ∧
    (0 ≤ s.cfg.noiseStd.toInt → s.len.wlen ≠ s.cfg.fs → raises .addNoise .badWaveLen s) ∧
    (∀ sigma, sigma < 0 → raises (.addNoiseI sigma) .negativeSigma s) ∧
    (∀ sigma, 0 ≤ sigma → s.len.wlen ≠ s.cfg.fs → raises (.addNoiseI sigma) .badWaveLen s) ∧
    errCodeWord .noCarriers = 0x1401 ∧ errCodeWord .badBitsLen = 0x1601 ∧
    errCodeWord .badWaveLen = 0x1501 ∧ errCodeWord .negativeSigma = 0x0102

/-! ## The noise channel -/

/-- R201, R203, R204: both ADD_NOISE forms complete with a non-negative sigma and a waveform of `FS`
samples: PRNG advances `2*((FS+1) div 2)` times, sample `k` gets the variate of its pair scaled by
sigma and saturated, and nothing else changes; no draw is used up where WAVE has been written below `FS`
(draws are the model's form, log entry 3). -/
def Obligations.AddNoiseAddsScaledVariates : Prop :=
  ∀ (s : State) (i : Instr) (sigma : Int),
    (i = .addNoise ∧ sigma = s.cfg.noiseStd.toInt ∨ i = .addNoiseI sigma) →
    s.ctl.cfgValid = true → 0 ≤ sigma → s.len.wlen = s.cfg.fs →
    ∃ w d, exec i s = .next { s with
        mem := { s.mem with wave := w }
        prng := prngNext^[2 * ((s.cfg.fs.toNat + 1) / 2)] s.prng
        ctl := doneCtl i s
        draws := d } ∧
      w.filled s.cfg.fs.toNat ∧
      (∀ k, s.cfg.fs.toNat ≤ k → w.read? k = s.mem.wave.read? k) ∧
      (s.mem.wave.filled s.cfg.fs.toNat → d = s.draws) ∧
      ∀ k x, k < s.cfg.fs.toNat → s.mem.wave.read? k = some x →
        ∃ z : Half,
          z = (if k % 2 = 0
            then (gauss (prngNext^[2 * (k / 2) + 1] s.prng) (prngNext^[2 * (k / 2) + 2] s.prng)).1
            else (gauss (prngNext^[2 * (k / 2) + 1] s.prng) (prngNext^[2 * (k / 2) + 2] s.prng)).2) ∧
          w.read? k = some (BitVec.ofInt 32
            (max (-2147483648) (min 2147483647 (x.toInt + (sigma * z.toInt + 512) / 1024))))

/-- R202: sigma 0 is a pass-through: WAVE is unchanged, sample by sample, and PRNG still advances. -/
def Obligations.ZeroSigmaIsPassThrough : Prop :=
  (∀ z : Int, noiseSample 0 z = 0) ∧
  ∀ (s : State) (i : Instr), (i = .addNoise ∧ s.cfg.noiseStd = 0 ∨ i = .addNoiseI 0) →
    s.ctl.cfgValid = true → s.len.wlen = s.cfg.fs → s.mem.wave.filled s.cfg.fs.toNat →
    ∃ w, exec i s = .next { s with
        mem := { s.mem with wave := w }
        prng := prngNext^[2 * ((s.cfg.fs.toNat + 1) / 2)] s.prng
        ctl := doneCtl i s } ∧
      ∀ k, w.read? k = s.mem.wave.read? k

/-- R10 (d), R204: a variate's magnitude is at most 27281 and a noise sample's at most 872965. -/
def Obligations.NoiseIsBounded : Prop :=
  (∀ x1 x2 : Word, x1 ≠ 0 →
    -27281 ≤ (gauss x1 x2).1.toInt ∧ (gauss x1 x2).1.toInt ≤ 27281 ∧
    -27281 ≤ (gauss x1 x2).2.toInt ∧ (gauss x1 x2).2.toInt ≤ 27281) ∧
  (∀ sigma z : Int, 0 ≤ sigma → sigma ≤ 32767 → -27281 ≤ z → z ≤ 27281 →
    -872965 ≤ noiseSample sigma z ∧ noiseSample sigma z ≤ 872965)

/-! ## The demodulator -/

/-- R221, R223: DEMODULATE for ASK completes: bit `j` is 1 exactly when more than half of its segment's
samples exceed the threshold in magnitude; ACC_I ends as the last segment's count and ACC_Q as 0 (R229);
nothing else changes. -/
def Obligations.DemodulateAskTakesMajority : Prop :=
  ∀ s : State, s.ctl.cfgValid = true → s.cfg.Valid s.params → s.cfg.scheme = .ask → s.len.cilen = s.cfg.fs →
    s.len.wlen = s.cfg.fs →
    ∃ rx accI d, exec .demodulate s = .next { s with
        mem := { s.mem with rxbits := rx }
        len := { s.len with rxlen := s.cfg.nbits }
        res := { s.res with accI := accI, accQ := 0 }
        ctl := doneCtl .demodulate s
        draws := d } ∧
      rx.filled s.cfg.nbits.toNat ∧
      (∀ j, s.cfg.nbits.toNat ≤ j → rx.read? j = s.mem.rxbits.read? j) ∧
      ∀ x : Nat → Word, (∀ k, k < s.cfg.fs.toNat → s.mem.wave.read? k = some (x k)) →
        d = s.draws ∧
        (∀ j, j < s.cfg.nbits.toNat → rx.read? j = some
          (if s.cfg.spb.toNat < 2 * ((Finset.range s.cfg.spb.toNat).filter
              (fun m => s.askThresh.toNat < (x (j * s.cfg.spb.toNat + m)).toInt.natAbs)).card
            then 1 else 0)) ∧
        accI.toNat = ((Finset.range s.cfg.spb.toNat).filter (fun m => s.askThresh.toNat <
          (x ((s.cfg.nbits.toNat - 1) * s.cfg.spb.toNat + m)).toInt.natAbs)).card

/-- R221, R224: DEMODULATE for BPSK completes: bit `j` is 0 exactly when the correlation of its segment
with the carrier is positive; ACC_I ends as the last correlation, exactly (R226), and ACC_Q as 0 (R229);
nothing else changes. -/
def Obligations.DemodulateBpskTakesCorrelationSign : Prop :=
  ∀ s : State, s.ctl.cfgValid = true → s.cfg.Valid s.params → s.cfg.scheme = .bpsk → s.len.cilen = s.cfg.fs →
    s.len.wlen = s.cfg.fs →
    ∃ rx accI d, exec .demodulate s = .next { s with
        mem := { s.mem with rxbits := rx }
        len := { s.len with rxlen := s.cfg.nbits }
        res := { s.res with accI := accI, accQ := 0 }
        ctl := doneCtl .demodulate s
        draws := d } ∧
      rx.filled s.cfg.nbits.toNat ∧
      (∀ j, s.cfg.nbits.toNat ≤ j → rx.read? j = s.mem.rxbits.read? j) ∧
      ∀ (x : Nat → Word) (c : Nat → Half), (∀ k, k < s.cfg.fs.toNat →
          s.mem.wave.read? k = some (x k) ∧ s.mem.carrI.read? k = some (c k)) →
        d = s.draws ∧
        (∀ j, j < s.cfg.nbits.toNat → rx.read? j = some
          (if 0 < segmentCorrelation x c s.cfg.sps.toNat j then 0 else 1)) ∧
        accI.toInt = segmentCorrelation x c s.cfg.sps.toNat (s.cfg.nbits.toNat - 1)

/-- R221, R225: DEMODULATE for QPSK completes: of symbol `n`, the even bit is decided by the in-phase
correlation and the odd bit by the quadrature correlation, by the rule of BPSK; ACC_I and ACC_Q end as
the correlations of the last symbol, exactly (R226, R229); nothing else changes. -/
def Obligations.DemodulateQpskTakesBothSigns : Prop :=
  ∀ s : State, s.ctl.cfgValid = true → s.cfg.Valid s.params → s.cfg.scheme = .qpsk → s.len.cilen = s.cfg.fs →
    s.len.cqlen = s.cfg.fs → s.len.wlen = s.cfg.fs →
    ∃ rx accI accQ d, exec .demodulate s = .next { s with
        mem := { s.mem with rxbits := rx }
        len := { s.len with rxlen := s.cfg.nbits }
        res := { s.res with accI := accI, accQ := accQ }
        ctl := doneCtl .demodulate s
        draws := d } ∧
      rx.filled s.cfg.nbits.toNat ∧
      (∀ j, s.cfg.nbits.toNat ≤ j → rx.read? j = s.mem.rxbits.read? j) ∧
      ∀ (x : Nat → Word) (ci cq : Nat → Half), (∀ k, k < s.cfg.fs.toNat →
          s.mem.wave.read? k = some (x k) ∧ s.mem.carrI.read? k = some (ci k) ∧
          s.mem.carrQ.read? k = some (cq k)) →
        d = s.draws ∧
        (∀ n, n < s.cfg.nsym.toNat →
          rx.read? (2 * n) = some (if 0 < segmentCorrelation x ci s.cfg.sps.toNat n then 0 else 1) ∧
          rx.read? (2 * n + 1) = some (if 0 < segmentCorrelation x cq s.cfg.sps.toNat n then 0 else 1)) ∧
        accI.toInt = segmentCorrelation x ci s.cfg.sps.toNat (s.cfg.nsym.toNat - 1) ∧
        accQ.toInt = segmentCorrelation x cq s.cfg.sps.toNat (s.cfg.nsym.toNat - 1)

/-- R220: the recovered bits and the accumulators do not depend on TXBITS, TXLEN or PRNG: two states that
differ only there demodulate to states that differ only there. -/
def Obligations.DemodulateIgnoresTransmittedBits : Prop :=
  ∀ (s t : State) (tx : Buffer 1) (len prng : Word), exec .demodulate s = .next t →
    exec .demodulate { s with
      mem := { s.mem with txbits := tx }, len := { s.len with txlen := len }, prng := prng } =
    .next { t with
      mem := { t.mem with txbits := tx }, len := { t.len with txlen := len }, prng := prng }

/-! ## Round trips without noise -/

/-- R231: MODULATE then DEMODULATE under BPSK: a transmitted 1 is always recovered, and a transmitted 0
exactly when its carrier segment has a non-zero sample. -/
def Obligations.BpskRoundTrip : Prop :=
  ∀ (s : State) (b : Nat → Bit) (c : Nat → Half), s.ctl.cfgValid = true → s.cfg.Valid s.params →
    s.ctl.err = false → s.cfg.scheme = .bpsk → s.len.cilen = s.cfg.fs → s.len.txlen = s.cfg.nbits →
    (∀ j, j < s.cfg.nbits.toNat → s.mem.txbits.read? j = some (b j)) →
    (∀ k, k < s.cfg.fs.toNat → s.mem.carrI.read? k = some (c k)) →
    ∃ t, execAll [.modulate, .demodulate] s = .next t ∧ t.ctl.err = false ∧
      ∀ j, j < s.cfg.nbits.toNat →
        (b j = 1 → t.mem.rxbits.read? j = some 1) ∧
        (b j = 0 → (t.mem.rxbits.read? j = some 0 ↔
          ∃ m, m < s.cfg.spb.toNat ∧ c (j * s.cfg.spb.toNat + m) ≠ 0))

/-- R233: MODULATE then DEMODULATE under QPSK: with signs `a`, `e` of the transmitted pair the even bit is
decided by `a*E_I + e*X` and the odd one by `a*X + e*E_Q`; so every pair is recovered where `abs(X)`
lies below both energies. -/
def Obligations.QpskRoundTrip : Prop :=
  ∀ (s : State) (b : Nat → Bit) (ci cq : Nat → Half), s.ctl.cfgValid = true → s.cfg.Valid s.params →
    s.ctl.err = false → s.cfg.scheme = .qpsk → s.len.cilen = s.cfg.fs → s.len.cqlen = s.cfg.fs →
    s.len.txlen = s.cfg.nbits →
    (∀ j, j < s.cfg.nbits.toNat → s.mem.txbits.read? j = some (b j)) →
    (∀ k, k < s.cfg.fs.toNat → s.mem.carrI.read? k = some (ci k) ∧ s.mem.carrQ.read? k = some (cq k)) →
    ∃ t, execAll [.modulate, .demodulate] s = .next t ∧ t.ctl.err = false ∧
      ∀ n, n < s.cfg.nsym.toNat →
        t.mem.rxbits.read? (2 * n) = some
          (if 0 < keySign (b (2 * n)) * segmentProduct ci ci s.cfg.sps.toNat n +
            keySign (b (2 * n + 1)) * segmentProduct ci cq s.cfg.sps.toNat n then 0 else 1) ∧
        t.mem.rxbits.read? (2 * n + 1) = some
          (if 0 < keySign (b (2 * n)) * segmentProduct ci cq s.cfg.sps.toNat n +
            keySign (b (2 * n + 1)) * segmentProduct cq cq s.cfg.sps.toNat n then 0 else 1) ∧
        (|segmentProduct ci cq s.cfg.sps.toNat n| < segmentProduct ci ci s.cfg.sps.toNat n →
          |segmentProduct ci cq s.cfg.sps.toNat n| < segmentProduct cq cq s.cfg.sps.toNat n →
          t.mem.rxbits.read? (2 * n) = some (b (2 * n)) ∧
          t.mem.rxbits.read? (2 * n + 1) = some (b (2 * n + 1)))

/-- R234: MODULATE then DEMODULATE under ASK: a transmitted 0 is always recovered, and a transmitted 1
exactly when a strict majority of its segment's carrier samples lies above the threshold. -/
def Obligations.AskRoundTrip : Prop :=
  ∀ (s : State) (b : Nat → Bit) (c : Nat → Half), s.ctl.cfgValid = true → s.cfg.Valid s.params →
    s.ctl.err = false → s.cfg.scheme = .ask → s.len.cilen = s.cfg.fs → s.len.txlen = s.cfg.nbits →
    (∀ j, j < s.cfg.nbits.toNat → s.mem.txbits.read? j = some (b j)) →
    (∀ k, k < s.cfg.fs.toNat → s.mem.carrI.read? k = some (c k)) →
    ∃ t, execAll [.modulate, .demodulate] s = .next t ∧ t.ctl.err = false ∧
      ∀ j, j < s.cfg.nbits.toNat →
        (b j = 0 → t.mem.rxbits.read? j = some 0) ∧
        (b j = 1 → (t.mem.rxbits.read? j = some 1 ↔
          s.cfg.spb.toNat < 2 * ((Finset.range s.cfg.spb.toNat).filter
            (fun m => s.askThresh.toNat < (c (j * s.cfg.spb.toNat + m)).toInt.natAbs)).card))

/-! ## The scorer -/

/-- R251: SCORE completes on two sequences of one length, at least 1: BER_DEN is that length and ERR_COUNT
the number of differing positions; nothing else changes. -/
def Obligations.ScoreCountsDifferingPositions : Prop :=
  ∀ s : State, s.len.txlen = s.len.rxlen → 1 ≤ s.len.txlen.toNat →
    ∃ n d, exec .score s = .next { s with
        res := { s.res with errCount := n, berDen := s.len.txlen }
        ctl := doneCtl .score s
        draws := d } ∧
      n.toNat ≤ s.len.txlen.toNat ∧
      ∀ x y : Nat → Bit, (∀ j, j < s.len.txlen.toNat →
          s.mem.txbits.read? j = some (x j) ∧ s.mem.rxbits.read? j = some (y j)) →
        d = s.draws ∧
        n.toNat = ((Finset.range s.len.txlen.toNat).filter (fun j => x j ≠ y j)).card

/-- R253: BER is in [0,1], 0 for identical and 1 for fully complementary sequences. -/
def Obligations.BerBounds : Prop :=
  ∀ s t : State, s.ctl.err = false → exec .score s = .next t → t.ctl.err = false →
    t.res.errCount.toNat ≤ t.res.berDen.toNat ∧
    (s.mem.txbits.filled s.len.txlen.toNat →
      (∀ j, j < s.len.txlen.toNat → s.mem.rxbits.read? j = s.mem.txbits.read? j) →
      t.res.errCount = 0) ∧
    (s.mem.txbits.filled s.len.txlen.toNat →
      (∀ j x, j < s.len.txlen.toNat → s.mem.txbits.read? j = some x →
        s.mem.rxbits.read? j = some (x ^^^ 1)) →
      t.res.errCount = t.res.berDen)

/-- R251, R286: SCORE reports a length mismatch before an empty pair; nothing else changes. -/
def Obligations.ScoreRejectsMismatchThenEmpty : Prop :=
  ∀ s : State,
    (s.len.txlen ≠ s.len.rxlen → raises .score .lengthMismatch s) ∧
    (s.len.txlen = s.len.rxlen → s.len.txlen = 0 → raises .score .zeroBits s) ∧
    errCodeWord .lengthMismatch = 0x0301 ∧ errCodeWord .zeroBits = 0x0201

/-! ## The sweep driver -/

/-- R262, R263, R267, R269: with a valid configuration and `K <= STEP_MAX` RUN_SWEEP completes in DONE with
`K` records in step order, word 7 of record `r` being the ERR_COUNT that the sweep of `r + 1` steps from
the same state ends with; the generator has advanced `K*(NBITS + 2*((FS+1) div 2))` states; the active
configuration, the name, the threshold, the staging registers and the host are unchanged, and so is
every buffer element at or above the count the commands write.  STEP_MAX (R5) is the block's own, in
`State.params` (the model's form of an argument, log entry 2). -/
def Obligations.RunSweepReachesDoneWithOrderedRecords : Prop :=
  ∀ (s : State) (k : Nat), s.ctl.cfgValid = true → s.cfg.Valid s.params → k ≤ s.params.stepMax →
    ∃ t, exec (.runSweep k) s = .next t ∧
      t.ctl = doneCtl (.runSweep k) s ∧
      t.sweep = { state := .done, step := BitVec.ofNat 32 k, logCount := BitVec.ofNat 32 k } ∧
      (∀ r, r < k →
        t.mem.log.read? (8 * r) =
          some (match s.cfg.scheme with | .ask => 0 | .bpsk => 1 | .qpsk => 2) ∧
        t.mem.log.read? (8 * r + 1) = some s.cfg.fs ∧
        t.mem.log.read? (8 * r + 2) = some s.cfg.fc ∧
        t.mem.log.read? (8 * r + 3) = some s.cfg.nbits ∧
        t.mem.log.read? (8 * r + 4) = some (s.cfg.noiseStd.setWidth 32) ∧
        t.mem.log.read? (8 * r + 5) = some (BitVec.ofNat 32 r) ∧
        t.mem.log.read? (8 * r + 6) = some ((sigmaRomAt r).setWidth 32) ∧
        ∃ u, exec (.runSweep (r + 1)) s = .next u ∧ u.ctl = doneCtl (.runSweep (r + 1)) s ∧
          t.mem.log.read? (8 * r + 7) = some u.res.errCount ∧
          u.res.errCount.toNat ≤ s.cfg.nbits.toNat) ∧
      (∀ i, 8 * k ≤ i → t.mem.log.read? i = s.mem.log.read? i) ∧
      t.prng = prngNext^[k * (s.cfg.nbits.toNat + 2 * ((s.cfg.fs.toNat + 1) / 2))] s.prng ∧
      t.stg = s.stg ∧ t.cfg = s.cfg ∧ t.askThresh = s.askThresh ∧ t.host = s.host ∧
      t.draws = s.draws ∧ t.params = s.params ∧ t.res.name = s.res.name ∧
      t.len.cilen = s.cfg.fs ∧ t.len.cqlen = (if s.cfg.scheme = .qpsk then s.cfg.fs else 0) ∧
      (k = 0 → t.res = s.res ∧ t.mem.wave = s.mem.wave ∧ t.mem.txbits = s.mem.txbits ∧
        t.mem.rxbits = s.mem.rxbits ∧ t.len.txlen = s.len.txlen ∧ t.len.rxlen = s.len.rxlen ∧
        t.len.wlen = s.len.wlen) ∧
      (0 < k → t.len.txlen = s.cfg.nbits ∧ t.len.rxlen = s.cfg.nbits ∧ t.len.wlen = s.cfg.fs ∧
        t.res.berDen = s.cfg.nbits ∧ t.mem.log.read? (8 * (k - 1) + 7) = some t.res.errCount) ∧
      (∀ n, s.cfg.fs.toNat ≤ n → t.mem.carrI.read? n = s.mem.carrI.read? n ∧
        t.mem.carrQ.read? n = s.mem.carrQ.read? n ∧ t.mem.wave.read? n = s.mem.wave.read? n) ∧
      (∀ n, s.cfg.nbits.toNat ≤ n → t.mem.txbits.read? n = s.mem.txbits.read? n ∧
        t.mem.rxbits.read? n = s.mem.rxbits.read? n)

/-- R260, R262, R263: a sweep is the manual trials: GEN_CARRIERS and then, for each step in order, GEN_BITS,
MODULATE, ADD_NOISE.I at the step's noise level, DEMODULATE and SCORE leave the same trial state; and word
7 of record `r` is the ERR_COUNT the SCORE of trial `r` produced (R267).  STEP_MAX (R5) is the block's own,
in `State.params` (the model's form of an argument, log entry 2). -/
def Obligations.SweepIsManualTrials : Prop :=
  ∀ (s : State) (k : Nat), s.ctl.cfgValid = true → s.cfg.Valid s.params → s.ctl.err = false →
    k ≤ s.params.stepMax →
    ∃ t u, exec (.runSweep k) s = .next t ∧
      execAll (.genCarriers :: manualTrials k) s = .next u ∧ u.ctl.err = false ∧ SameTrialState t u ∧
      ∀ r, r < k → ∃ v, execAll (.genCarriers :: manualTrials (r + 1)) s = .next v ∧ v.ctl.err = false ∧
        t.mem.log.read? (8 * r + 7) = some v.res.errCount

/-- R262, R270, R286: a step count above STEP_MAX is refused with STEP_RANGE and nothing else is written,
whatever an earlier sweep left; STEP_MAX (R5) is the block's own, in `State.params` (the model's form of an
argument, log entry 2). -/
def Obligations.StepCountAboveMaximumIsRefused : Prop :=
  (∀ (s : State) (k : Nat), s.ctl.cfgValid = true → s.params.stepMax < k → raises (.runSweep k) .stepRange s) ∧
  errCodeWord .stepRange = 0x1801

/-- R266: SIGMA_ROM is positive and strictly decreasing over its 32 entries, and each entry is the nearest
integer `v` to `(4/sqrt(2*10^(n/10))) * 2^12`: `2v - 1` and `2v + 1` bracket twice that number, which is
the 20th root of `2^290 / 10^n`. -/
def Obligations.SigmaRomFollowsNoiseFormula : Prop :=
  ∀ n, n < 32 →
    0 < (sigmaRomAt n).toInt ∧
    (n + 1 < 32 → (sigmaRomAt (n + 1)).toInt < (sigmaRomAt n).toInt) ∧
    (2 * (sigmaRomAt n).toNat - 1) ^ 20 * 10 ^ n < 2 ^ 290 ∧
    2 ^ 290 < (2 * (sigmaRomAt n).toNat + 1) ^ 20 * 10 ^ n

/-- R73: nothing an earlier trial left in TXBITS, WAVE, RXBITS, the lengths, the results or the sweep driver
reaches a trial, with ADD_NOISE or with ADD_NOISE.I: two states of one block that agree on the active configuration,
PRNG, ASK_THRESH and the carriers the trial reads both run it without an error, score the same and end
with the same bits and samples. -/
def Obligations.TrialReadsNothingOfEarlierTrials : Prop :=
  ∀ (s t : State) (noise : Instr), (noise = .addNoise ∧ 0 ≤ s.cfg.noiseStd.toInt ∨
      ∃ sigma, noise = .addNoiseI sigma ∧ 0 ≤ sigma) → s.ctl.cfgValid = true → t.ctl.cfgValid = true → s.ctl.err = false →
    t.ctl.err = false → s.cfg.Valid s.params → t.params = s.params →
    t.cfg = s.cfg → t.prng = s.prng → t.askThresh = s.askThresh → s.len.cilen = s.cfg.fs → t.len.cilen = s.cfg.fs →
    (s.cfg.scheme = .qpsk → s.len.cqlen = s.cfg.fs ∧ t.len.cqlen = s.cfg.fs) →
    (∀ k, k < s.cfg.fs.toNat → ∃ c, s.mem.carrI.read? k = some c ∧ t.mem.carrI.read? k = some c) →
    (s.cfg.scheme = .qpsk → ∀ k, k < s.cfg.fs.toNat →
      ∃ c, s.mem.carrQ.read? k = some c ∧ t.mem.carrQ.read? k = some c) →
    ∃ s' t', execAll (manualTrialWith noise) s = .next s' ∧ execAll (manualTrialWith noise) t = .next t' ∧
      s'.ctl.err = false ∧ t'.ctl.err = false ∧
      t'.res.errCount = s'.res.errCount ∧ t'.res.berDen = s'.res.berDen ∧ t'.prng = s'.prng ∧
      t'.res.accI = s'.res.accI ∧ t'.res.accQ = s'.res.accQ ∧
      (∀ k, k < s.cfg.fs.toNat → t'.mem.wave.read? k = s'.mem.wave.read? k) ∧
      (∀ j, j < s.cfg.nbits.toNat → t'.mem.txbits.read? j = s'.mem.txbits.read? j ∧
        t'.mem.rxbits.read? j = s'.mem.rxbits.read? j)

/-! ## Reset and the invariant -/

/-- R311, R310: SOFT_RESET completes from every state and puts every register of R310's table to the value
listed there, DONE and CMD included; that no buffer word counts as written afterwards is the model's
form of unspecified contents (log entries 3 and 10), and that it leaves the host's side and the parameters
is its choice (log entries 9 and 2). -/
def Obligations.SoftResetRestoresResetState : Prop :=
  ∀ s : State, ∃ t, exec .softReset s = .next t ∧
    t.ctl = { seq := .idle, done := false, err := false, cfgValid := false, errCode := 0, errCmd := 0,
              cmd := 0 } ∧
    t.stg = { fs := 0, fc := 0, nbits := 0, noiseStd := 0, scheme := 0 } ∧
    (t.cfg.fs = 0 ∧ t.cfg.fc = 0 ∧ t.cfg.nbits = 0 ∧ t.cfg.noiseStd = 0 ∧ t.cfg.scheme = .ask ∧
      t.cfg.spb = 0 ∧ t.cfg.nsym = 0 ∧ t.cfg.sps = 0) ∧
    t.len = { cilen := 0, cqlen := 0, txlen := 0, rxlen := 0, wlen := 0 } ∧
    t.res = { errCount := 0, berDen := 0, name := 0, accI := 0, accQ := 0 } ∧
    t.sweep = { state := .init, step := 0, logCount := 0 } ∧
    t.askThresh = 6554 ∧ t.prng = 0x92D68CA2 ∧ statusWord t = 0 ∧
    (∀ k, t.mem.carrI.read? k = none ∧ t.mem.carrQ.read? k = none ∧ t.mem.wave.read? k = none ∧
      t.mem.txbits.read? k = none ∧ t.mem.rxbits.read? k = none ∧ t.mem.log.read? k = none) ∧
    t.host = s.host ∧ t.params = s.params

/-- The invariant holds at reset, in every block whose parameters R5 allows. -/
def Obligations.InvHoldsAtReset : Prop :=
  State.reset.Inv ∧ ∀ P : Config.Params, P.Valid → (State.resetWith P).Inv

/-- The invariant passes over every step, whatever the host does. -/
def Obligations.StepKeepsInv : Prop :=
  ∀ s t : State, s.Inv → step s = .next t → t.Inv

/-- R5: FS_MAX and STEP_MAX are an argument of the machine: no step, whatever the host does, changes them.
That they stand in `State.params` is the model's form of an argument (log entry 2). -/
def Obligations.StepKeepsParameters : Prop :=
  ∀ s t : State, step s = .next t → t.params = s.params
end

