-- ==== Sys2Proof/Laws/Buffer.lean ====
section
/-! SUPPORT. Buffers: read after write, and that a write keeps the canonical form. -/

namespace Sys2Proof.Machine

@[simp] theorem Buffer.read?_nil {w : Nat} (k : Nat) : Buffer.read? ([] : Buffer w) k = none := rfl

@[simp] theorem Buffer.read?_write_same {w : Nat} (b : Buffer w) (k : Nat) (v : BitVec w) :
    (b.write k v).read? k = some v := by
  induction b with
  | nil => simp [Buffer.write, Buffer.read?]
  | cons e rest ih =>
    obtain ⟨i, u⟩ := e
    unfold Buffer.write
    split
    · simp [Buffer.read?]
    · split
      · simp [Buffer.read?]
      · have : i ≠ k := fun h => by omega
        simpa [Buffer.read?, this] using ih

theorem Buffer.read?_write_other {w : Nat} (b : Buffer w) {k j : Nat} (v : BitVec w) (h : j ≠ k) :
    (b.write k v).read? j = b.read? j := by
  have hk : ¬ k = j := fun e => h e.symm
  induction b with
  | nil => simp [Buffer.write, Buffer.read?, hk]
  | cons e rest ih =>
    obtain ⟨i, u⟩ := e
    unfold Buffer.write
    split
    · simp [Buffer.read?, hk]
    · split
      · rename_i hi
        subst hi
        simp [Buffer.read?, hk]
      · simp only [Buffer.read?]
        rw [ih]

theorem Buffer.read?_write {w : Nat} (b : Buffer w) (k j : Nat) (v : BitVec w) :
    (b.write k v).read? j = if j = k then some v else b.read? j := by
  split
  · rename_i h
    rw [h, Buffer.read?_write_same]
  · rename_i h
    exact Buffer.read?_write_other b v h

/-- Every index of a written buffer is the written one or an old one. -/
theorem Buffer.index_of_mem_write {w : Nat} {b : Buffer w} {k : Nat} {v : BitVec w} {e : Nat × BitVec w}
    (h : e ∈ b.write k v) : e.1 = k ∨ e ∈ b := by
  induction b with
  | nil => simp_all [Buffer.write]
  | cons d rest ih =>
    obtain ⟨i, u⟩ := d
    unfold Buffer.write at h
    split at h
    · simp only [List.mem_cons] at h ⊢
      rcases h with rfl | rfl | h
      · exact .inl rfl
      · exact .inr (.inl rfl)
      · exact .inr (.inr h)
    · split at h
      · simp only [List.mem_cons] at h ⊢
        rcases h with rfl | h
        · exact .inl rfl
        · exact .inr (.inr h)
      · simp only [List.mem_cons] at h ⊢
        rcases h with rfl | h
        · exact .inr (.inl rfl)
        · exact (ih h).imp_right .inr

theorem Buffer.write_sorted {w : Nat} {b : Buffer w} (hb : b.Pairwise fun x y => x.1 < y.1) (k : Nat)
    (v : BitVec w) : (b.write k v).Pairwise fun x y => x.1 < y.1 := by
  induction b with
  | nil => simp [Buffer.write]
  | cons d rest ih =>
    obtain ⟨i, u⟩ := d
    obtain ⟨hi, hr⟩ := List.pairwise_cons.mp hb
    unfold Buffer.write
    split
    · rename_i hk
      refine List.pairwise_cons.mpr ⟨fun e he => ?_, hb⟩
      rcases List.mem_cons.mp he with rfl | he
      · exact hk
      · exact Nat.lt_trans hk (hi e he)
    · split
      · rename_i hk
        exact List.pairwise_cons.mpr ⟨fun e he => hk ▸ hi e he, hr⟩
      · rename_i h1 h2
        refine List.pairwise_cons.mpr ⟨fun e he => ?_, ih hr⟩
        rcases Buffer.index_of_mem_write he with h | h
        · exact h ▸ by simp only; omega
        · exact hi e h

/-- A write inside the depth keeps the canonical form. -/
theorem Buffer.write_wf {w n : Nat} {b : Buffer w} (hb : b.wf n) {k : Nat} (hk : k < n) (v : BitVec w) :
    (b.write k v).wf n :=
  ⟨Buffer.write_sorted hb.1 k v, fun e he =>
    (Buffer.index_of_mem_write he).elim (fun h => h ▸ hk) (hb.2 e)⟩

/-- Reading is lookup of a listed pair, so in the canonical form it loses nothing. -/
theorem Buffer.read?_of_mem {w : Nat} {b : Buffer w} (hb : b.Pairwise fun x y => x.1 < y.1)
    {e : Nat × BitVec w} (he : e ∈ b) : b.read? e.1 = some e.2 := by
  induction b with
  | nil => simp at he
  | cons d rest ih =>
    obtain ⟨i, u⟩ := d
    obtain ⟨hi, hr⟩ := List.pairwise_cons.mp hb
    rcases List.mem_cons.mp he with rfl | he
    · simp [Buffer.read?]
    · have : i ≠ e.1 := Nat.ne_of_lt (hi e he)
      simpa [Buffer.read?, this] using ih hr he

theorem Buffer.mem_of_read? {w : Nat} {b : Buffer w} {k : Nat} {v : BitVec w} (h : b.read? k = some v) :
    (k, v) ∈ b := by
  induction b with
  | nil => simp at h
  | cons d rest ih =>
    obtain ⟨i, u⟩ := d
    unfold Buffer.read? at h
    split at h
    · simp_all
    · exact List.mem_cons_of_mem _ (ih h)

/-- In the canonical form nothing outside the depth was ever written. -/
theorem Buffer.read?_eq_none_of_wf {w n : Nat} {b : Buffer w} (hb : b.wf n) {k : Nat} (hk : n ≤ k) :
    b.read? k = none := by
  cases h : b.read? k with
  | none => rfl
  | some v => exact absurd (hb.2 _ (Buffer.mem_of_read? h)) (Nat.not_lt.mpr hk)

end Sys2Proof.Machine
end

