-- ==== Sys2Proof/Laws/Loop.lean ====
section
/-! SUPPORT. The bounded loop of `Machine/Arith.lean`: its two equations and its induction. -/

namespace Sys2Proof.Machine

@[simp] theorem forUpTo_zero {α : Type} (body : Nat → α → α) (a : α) : forUpTo 0 body a = a := rfl

theorem forUpTo_succ {α : Type} (n : Nat) (body : Nat → α → α) (a : α) :
    forUpTo (n + 1) body a = body n (forUpTo n body a) := rfl

/-- What holds before the first iteration and passes from each iteration to the next holds after the
last one. -/
theorem forUpTo_induct {α : Type} {n : Nat} {body : Nat → α → α} {a : α} (p : Nat → α → Prop)
    (start : p 0 a) (pass : ∀ k x, k < n → p k x → p (k + 1) (body k x)) :
    p n (forUpTo n body a) := by
  have all : ∀ m, m ≤ n → p m (forUpTo m body a) := by
    intro m
    induction m with
    | zero => exact fun _ => start
    | succ m ih => exact fun h => pass m _ h (ih (Nat.le_of_lt h))
  exact all n (Nat.le_refl n)

/-- A part of the value that no iteration changes is unchanged by the loop. -/
theorem forUpTo_keeps {α β : Type} (f : α → β) {n : Nat} {body : Nat → α → α} {a : α}
    (keep : ∀ k x, k < n → f (body k x) = f x) : f (forUpTo n body a) = f a :=
  forUpTo_induct (fun _ x => f x = f a) rfl fun k x hk hx => (keep k x hk).trans hx

end Sys2Proof.Machine
end

