-- ==== Sys2Proof/Laws/State.lean ====
section
/-! SUPPORT. One lemma per update and field group: which groups of the state an update leaves alone and
what it puts into the others.  All hold by definition; later proofs cite them and unfold no update. -/

namespace Sys2Proof.Machine

/-! ### writeCarrI -/

@[simp] theorem writeCarrI_stg (k : Nat) (v : Half) (s : State) : (writeCarrI k v s).stg = s.stg := rfl
@[simp] theorem writeCarrI_cfg (k : Nat) (v : Half) (s : State) : (writeCarrI k v s).cfg = s.cfg := rfl
@[simp] theorem writeCarrI_ctl (k : Nat) (v : Half) (s : State) : (writeCarrI k v s).ctl = s.ctl := rfl
@[simp] theorem writeCarrI_len (k : Nat) (v : Half) (s : State) : (writeCarrI k v s).len = s.len := rfl
@[simp] theorem writeCarrI_askThresh (k : Nat) (v : Half) (s : State) : (writeCarrI k v s).askThresh = s.askThresh := rfl
@[simp] theorem writeCarrI_prng (k : Nat) (v : Half) (s : State) : (writeCarrI k v s).prng = s.prng := rfl
@[simp] theorem writeCarrI_res (k : Nat) (v : Half) (s : State) : (writeCarrI k v s).res = s.res := rfl
@[simp] theorem writeCarrI_sweep (k : Nat) (v : Half) (s : State) : (writeCarrI k v s).sweep = s.sweep := rfl
@[simp] theorem writeCarrI_mem (k : Nat) (v : Half) (s : State) : (writeCarrI k v s).mem = { s.mem with carrI := s.mem.carrI.write k v } := rfl
@[simp] theorem writeCarrI_host (k : Nat) (v : Half) (s : State) : (writeCarrI k v s).host = s.host := rfl
@[simp] theorem writeCarrI_draws (k : Nat) (v : Half) (s : State) : (writeCarrI k v s).draws = s.draws := rfl
@[simp] theorem writeCarrI_params (k : Nat) (v : Half) (s : State) : (writeCarrI k v s).params = s.params := rfl

/-! ### writeCarrQ -/

@[simp] theorem writeCarrQ_stg (k : Nat) (v : Half) (s : State) : (writeCarrQ k v s).stg = s.stg := rfl
@[simp] theorem writeCarrQ_cfg (k : Nat) (v : Half) (s : State) : (writeCarrQ k v s).cfg = s.cfg := rfl
@[simp] theorem writeCarrQ_ctl (k : Nat) (v : Half) (s : State) : (writeCarrQ k v s).ctl = s.ctl := rfl
@[simp] theorem writeCarrQ_len (k : Nat) (v : Half) (s : State) : (writeCarrQ k v s).len = s.len := rfl
@[simp] theorem writeCarrQ_askThresh (k : Nat) (v : Half) (s : State) : (writeCarrQ k v s).askThresh = s.askThresh := rfl
@[simp] theorem writeCarrQ_prng (k : Nat) (v : Half) (s : State) : (writeCarrQ k v s).prng = s.prng := rfl
@[simp] theorem writeCarrQ_res (k : Nat) (v : Half) (s : State) : (writeCarrQ k v s).res = s.res := rfl
@[simp] theorem writeCarrQ_sweep (k : Nat) (v : Half) (s : State) : (writeCarrQ k v s).sweep = s.sweep := rfl
@[simp] theorem writeCarrQ_mem (k : Nat) (v : Half) (s : State) : (writeCarrQ k v s).mem = { s.mem with carrQ := s.mem.carrQ.write k v } := rfl
@[simp] theorem writeCarrQ_host (k : Nat) (v : Half) (s : State) : (writeCarrQ k v s).host = s.host := rfl
@[simp] theorem writeCarrQ_draws (k : Nat) (v : Half) (s : State) : (writeCarrQ k v s).draws = s.draws := rfl
@[simp] theorem writeCarrQ_params (k : Nat) (v : Half) (s : State) : (writeCarrQ k v s).params = s.params := rfl

/-! ### writeWave -/

@[simp] theorem writeWave_stg (k : Nat) (v : Word) (s : State) : (writeWave k v s).stg = s.stg := rfl
@[simp] theorem writeWave_cfg (k : Nat) (v : Word) (s : State) : (writeWave k v s).cfg = s.cfg := rfl
@[simp] theorem writeWave_ctl (k : Nat) (v : Word) (s : State) : (writeWave k v s).ctl = s.ctl := rfl
@[simp] theorem writeWave_len (k : Nat) (v : Word) (s : State) : (writeWave k v s).len = s.len := rfl
@[simp] theorem writeWave_askThresh (k : Nat) (v : Word) (s : State) : (writeWave k v s).askThresh = s.askThresh := rfl
@[simp] theorem writeWave_prng (k : Nat) (v : Word) (s : State) : (writeWave k v s).prng = s.prng := rfl
@[simp] theorem writeWave_res (k : Nat) (v : Word) (s : State) : (writeWave k v s).res = s.res := rfl
@[simp] theorem writeWave_sweep (k : Nat) (v : Word) (s : State) : (writeWave k v s).sweep = s.sweep := rfl
@[simp] theorem writeWave_mem (k : Nat) (v : Word) (s : State) : (writeWave k v s).mem = { s.mem with wave := s.mem.wave.write k v } := rfl
@[simp] theorem writeWave_host (k : Nat) (v : Word) (s : State) : (writeWave k v s).host = s.host := rfl
@[simp] theorem writeWave_draws (k : Nat) (v : Word) (s : State) : (writeWave k v s).draws = s.draws := rfl
@[simp] theorem writeWave_params (k : Nat) (v : Word) (s : State) : (writeWave k v s).params = s.params := rfl

/-! ### writeTx -/

@[simp] theorem writeTx_stg (k : Nat) (v : Bit) (s : State) : (writeTx k v s).stg = s.stg := rfl
@[simp] theorem writeTx_cfg (k : Nat) (v : Bit) (s : State) : (writeTx k v s).cfg = s.cfg := rfl
@[simp] theorem writeTx_ctl (k : Nat) (v : Bit) (s : State) : (writeTx k v s).ctl = s.ctl := rfl
@[simp] theorem writeTx_len (k : Nat) (v : Bit) (s : State) : (writeTx k v s).len = s.len := rfl
@[simp] theorem writeTx_askThresh (k : Nat) (v : Bit) (s : State) : (writeTx k v s).askThresh = s.askThresh := rfl
@[simp] theorem writeTx_prng (k : Nat) (v : Bit) (s : State) : (writeTx k v s).prng = s.prng := rfl
@[simp] theorem writeTx_res (k : Nat) (v : Bit) (s : State) : (writeTx k v s).res = s.res := rfl
@[simp] theorem writeTx_sweep (k : Nat) (v : Bit) (s : State) : (writeTx k v s).sweep = s.sweep := rfl
@[simp] theorem writeTx_mem (k : Nat) (v : Bit) (s : State) : (writeTx k v s).mem = { s.mem with txbits := s.mem.txbits.write k v } := rfl
@[simp] theorem writeTx_host (k : Nat) (v : Bit) (s : State) : (writeTx k v s).host = s.host := rfl
@[simp] theorem writeTx_draws (k : Nat) (v : Bit) (s : State) : (writeTx k v s).draws = s.draws := rfl
@[simp] theorem writeTx_params (k : Nat) (v : Bit) (s : State) : (writeTx k v s).params = s.params := rfl

/-! ### writeRx -/

@[simp] theorem writeRx_stg (k : Nat) (v : Bit) (s : State) : (writeRx k v s).stg = s.stg := rfl
@[simp] theorem writeRx_cfg (k : Nat) (v : Bit) (s : State) : (writeRx k v s).cfg = s.cfg := rfl
@[simp] theorem writeRx_ctl (k : Nat) (v : Bit) (s : State) : (writeRx k v s).ctl = s.ctl := rfl
@[simp] theorem writeRx_len (k : Nat) (v : Bit) (s : State) : (writeRx k v s).len = s.len := rfl
@[simp] theorem writeRx_askThresh (k : Nat) (v : Bit) (s : State) : (writeRx k v s).askThresh = s.askThresh := rfl
@[simp] theorem writeRx_prng (k : Nat) (v : Bit) (s : State) : (writeRx k v s).prng = s.prng := rfl
@[simp] theorem writeRx_res (k : Nat) (v : Bit) (s : State) : (writeRx k v s).res = s.res := rfl
@[simp] theorem writeRx_sweep (k : Nat) (v : Bit) (s : State) : (writeRx k v s).sweep = s.sweep := rfl
@[simp] theorem writeRx_mem (k : Nat) (v : Bit) (s : State) : (writeRx k v s).mem = { s.mem with rxbits := s.mem.rxbits.write k v } := rfl
@[simp] theorem writeRx_host (k : Nat) (v : Bit) (s : State) : (writeRx k v s).host = s.host := rfl
@[simp] theorem writeRx_draws (k : Nat) (v : Bit) (s : State) : (writeRx k v s).draws = s.draws := rfl
@[simp] theorem writeRx_params (k : Nat) (v : Bit) (s : State) : (writeRx k v s).params = s.params := rfl

/-! ### writeLog -/

@[simp] theorem writeLog_stg (k : Nat) (v : Word) (s : State) : (writeLog k v s).stg = s.stg := rfl
@[simp] theorem writeLog_cfg (k : Nat) (v : Word) (s : State) : (writeLog k v s).cfg = s.cfg := rfl
@[simp] theorem writeLog_ctl (k : Nat) (v : Word) (s : State) : (writeLog k v s).ctl = s.ctl := rfl
@[simp] theorem writeLog_len (k : Nat) (v : Word) (s : State) : (writeLog k v s).len = s.len := rfl
@[simp] theorem writeLog_askThresh (k : Nat) (v : Word) (s : State) : (writeLog k v s).askThresh = s.askThresh := rfl
@[simp] theorem writeLog_prng (k : Nat) (v : Word) (s : State) : (writeLog k v s).prng = s.prng := rfl
@[simp] theorem writeLog_res (k : Nat) (v : Word) (s : State) : (writeLog k v s).res = s.res := rfl
@[simp] theorem writeLog_sweep (k : Nat) (v : Word) (s : State) : (writeLog k v s).sweep = s.sweep := rfl
@[simp] theorem writeLog_mem (k : Nat) (v : Word) (s : State) : (writeLog k v s).mem = { s.mem with log := s.mem.log.write k v } := rfl
@[simp] theorem writeLog_host (k : Nat) (v : Word) (s : State) : (writeLog k v s).host = s.host := rfl
@[simp] theorem writeLog_draws (k : Nat) (v : Word) (s : State) : (writeLog k v s).draws = s.draws := rfl
@[simp] theorem writeLog_params (k : Nat) (v : Word) (s : State) : (writeLog k v s).params = s.params := rfl

/-! ### stepPrng -/

@[simp] theorem stepPrng_stg (s : State) : (stepPrng s).stg = s.stg := rfl
@[simp] theorem stepPrng_cfg (s : State) : (stepPrng s).cfg = s.cfg := rfl
@[simp] theorem stepPrng_ctl (s : State) : (stepPrng s).ctl = s.ctl := rfl
@[simp] theorem stepPrng_len (s : State) : (stepPrng s).len = s.len := rfl
@[simp] theorem stepPrng_askThresh (s : State) : (stepPrng s).askThresh = s.askThresh := rfl
@[simp] theorem stepPrng_prng (s : State) : (stepPrng s).prng = prngNext s.prng := rfl
@[simp] theorem stepPrng_res (s : State) : (stepPrng s).res = s.res := rfl
@[simp] theorem stepPrng_sweep (s : State) : (stepPrng s).sweep = s.sweep := rfl
@[simp] theorem stepPrng_mem (s : State) : (stepPrng s).mem = s.mem := rfl
@[simp] theorem stepPrng_host (s : State) : (stepPrng s).host = s.host := rfl
@[simp] theorem stepPrng_draws (s : State) : (stepPrng s).draws = s.draws := rfl
@[simp] theorem stepPrng_params (s : State) : (stepPrng s).params = s.params := rfl

/-! ### setAcc -/

@[simp] theorem setAcc_stg (i q : Acc) (s : State) : (setAcc i q s).stg = s.stg := rfl
@[simp] theorem setAcc_cfg (i q : Acc) (s : State) : (setAcc i q s).cfg = s.cfg := rfl
@[simp] theorem setAcc_ctl (i q : Acc) (s : State) : (setAcc i q s).ctl = s.ctl := rfl
@[simp] theorem setAcc_len (i q : Acc) (s : State) : (setAcc i q s).len = s.len := rfl
@[simp] theorem setAcc_askThresh (i q : Acc) (s : State) : (setAcc i q s).askThresh = s.askThresh := rfl
@[simp] theorem setAcc_prng (i q : Acc) (s : State) : (setAcc i q s).prng = s.prng := rfl
@[simp] theorem setAcc_res (i q : Acc) (s : State) : (setAcc i q s).res = { s.res with accI := i, accQ := q } := rfl
@[simp] theorem setAcc_sweep (i q : Acc) (s : State) : (setAcc i q s).sweep = s.sweep := rfl
@[simp] theorem setAcc_mem (i q : Acc) (s : State) : (setAcc i q s).mem = s.mem := rfl
@[simp] theorem setAcc_host (i q : Acc) (s : State) : (setAcc i q s).host = s.host := rfl
@[simp] theorem setAcc_draws (i q : Acc) (s : State) : (setAcc i q s).draws = s.draws := rfl
@[simp] theorem setAcc_params (i q : Acc) (s : State) : (setAcc i q s).params = s.params := rfl

/-! ### afterDraw -/

@[simp] theorem afterDraw_stg (s : State) : (afterDraw s).stg = s.stg := rfl
@[simp] theorem afterDraw_cfg (s : State) : (afterDraw s).cfg = s.cfg := rfl
@[simp] theorem afterDraw_ctl (s : State) : (afterDraw s).ctl = s.ctl := rfl
@[simp] theorem afterDraw_len (s : State) : (afterDraw s).len = s.len := rfl
@[simp] theorem afterDraw_askThresh (s : State) : (afterDraw s).askThresh = s.askThresh := rfl
@[simp] theorem afterDraw_prng (s : State) : (afterDraw s).prng = s.prng := rfl
@[simp] theorem afterDraw_res (s : State) : (afterDraw s).res = s.res := rfl
@[simp] theorem afterDraw_sweep (s : State) : (afterDraw s).sweep = s.sweep := rfl
@[simp] theorem afterDraw_mem (s : State) : (afterDraw s).mem = s.mem := rfl
@[simp] theorem afterDraw_host (s : State) : (afterDraw s).host = s.host := rfl
@[simp] theorem afterDraw_draws (s : State) : (afterDraw s).draws = s.draws + 1 := rfl
@[simp] theorem afterDraw_params (s : State) : (afterDraw s).params = s.params := rfl

/-! ### startCommand -/

@[simp] theorem startCommand_stg (w : Word) (s : State) : (startCommand w s).stg = s.stg := rfl
@[simp] theorem startCommand_cfg (w : Word) (s : State) : (startCommand w s).cfg = s.cfg := rfl
@[simp] theorem startCommand_ctl (w : Word) (s : State) : (startCommand w s).ctl = { s.ctl with cmd := w, seq := .run w, done := false } := rfl
@[simp] theorem startCommand_len (w : Word) (s : State) : (startCommand w s).len = s.len := rfl
@[simp] theorem startCommand_askThresh (w : Word) (s : State) : (startCommand w s).askThresh = s.askThresh := rfl
@[simp] theorem startCommand_prng (w : Word) (s : State) : (startCommand w s).prng = s.prng := rfl
@[simp] theorem startCommand_res (w : Word) (s : State) : (startCommand w s).res = s.res := rfl
@[simp] theorem startCommand_sweep (w : Word) (s : State) : (startCommand w s).sweep = s.sweep := rfl
@[simp] theorem startCommand_mem (w : Word) (s : State) : (startCommand w s).mem = s.mem := rfl
@[simp] theorem startCommand_host (w : Word) (s : State) : (startCommand w s).host = s.host := rfl
@[simp] theorem startCommand_draws (w : Word) (s : State) : (startCommand w s).draws = s.draws := rfl
@[simp] theorem startCommand_params (w : Word) (s : State) : (startCommand w s).params = s.params := rfl

/-! ### completeCommand -/

@[simp] theorem completeCommand_stg (s : State) : (completeCommand s).stg = s.stg := rfl
@[simp] theorem completeCommand_cfg (s : State) : (completeCommand s).cfg = s.cfg := rfl
@[simp] theorem completeCommand_ctl (s : State) : (completeCommand s).ctl = { s.ctl with seq := .idle, done := true } := rfl
@[simp] theorem completeCommand_len (s : State) : (completeCommand s).len = s.len := rfl
@[simp] theorem completeCommand_askThresh (s : State) : (completeCommand s).askThresh = s.askThresh := rfl
@[simp] theorem completeCommand_prng (s : State) : (completeCommand s).prng = s.prng := rfl
@[simp] theorem completeCommand_res (s : State) : (completeCommand s).res = s.res := rfl
@[simp] theorem completeCommand_sweep (s : State) : (completeCommand s).sweep = s.sweep := rfl
@[simp] theorem completeCommand_mem (s : State) : (completeCommand s).mem = s.mem := rfl
@[simp] theorem completeCommand_host (s : State) : (completeCommand s).host = s.host := rfl
@[simp] theorem completeCommand_draws (s : State) : (completeCommand s).draws = s.draws := rfl
@[simp] theorem completeCommand_params (s : State) : (completeCommand s).params = s.params := rfl

/-! ### enterError -/

@[simp] theorem enterError_stg (w : Word) (c : Cause) (s : State) : (enterError w c s).stg = s.stg := rfl
@[simp] theorem enterError_cfg (w : Word) (c : Cause) (s : State) : (enterError w c s).cfg = s.cfg := rfl
@[simp] theorem enterError_ctl (w : Word) (c : Cause) (s : State) : (enterError w c s).ctl = { s.ctl with err := true, errCode := errCodeWord c, errCmd := w, seq := .idle } := rfl
@[simp] theorem enterError_len (w : Word) (c : Cause) (s : State) : (enterError w c s).len = s.len := rfl
@[simp] theorem enterError_askThresh (w : Word) (c : Cause) (s : State) : (enterError w c s).askThresh = s.askThresh := rfl
@[simp] theorem enterError_prng (w : Word) (c : Cause) (s : State) : (enterError w c s).prng = s.prng := rfl
@[simp] theorem enterError_res (w : Word) (c : Cause) (s : State) : (enterError w c s).res = s.res := rfl
@[simp] theorem enterError_sweep (w : Word) (c : Cause) (s : State) : (enterError w c s).sweep = s.sweep := rfl
@[simp] theorem enterError_mem (w : Word) (c : Cause) (s : State) : (enterError w c s).mem = s.mem := rfl
@[simp] theorem enterError_host (w : Word) (c : Cause) (s : State) : (enterError w c s).host = s.host := rfl
@[simp] theorem enterError_draws (w : Word) (c : Cause) (s : State) : (enterError w c s).draws = s.draws := rfl
@[simp] theorem enterError_params (w : Word) (c : Cause) (s : State) : (enterError w c s).params = s.params := rfl

/-! ### startStep -/

@[simp] theorem startStep_stg (n : Nat) (s : State) : (startStep n s).stg = s.stg := rfl
@[simp] theorem startStep_cfg (n : Nat) (s : State) : (startStep n s).cfg = s.cfg := rfl
@[simp] theorem startStep_ctl (n : Nat) (s : State) : (startStep n s).ctl = s.ctl := rfl
@[simp] theorem startStep_len (n : Nat) (s : State) : (startStep n s).len = s.len := rfl
@[simp] theorem startStep_askThresh (n : Nat) (s : State) : (startStep n s).askThresh = s.askThresh := rfl
@[simp] theorem startStep_prng (n : Nat) (s : State) : (startStep n s).prng = s.prng := rfl
@[simp] theorem startStep_res (n : Nat) (s : State) : (startStep n s).res = s.res := rfl
@[simp] theorem startStep_sweep (n : Nat) (s : State) : (startStep n s).sweep = { s.sweep with state := .running, step := BitVec.ofNat 32 n } := rfl
@[simp] theorem startStep_mem (n : Nat) (s : State) : (startStep n s).mem = s.mem := rfl
@[simp] theorem startStep_host (n : Nat) (s : State) : (startStep n s).host = s.host := rfl
@[simp] theorem startStep_draws (n : Nat) (s : State) : (startStep n s).draws = s.draws := rfl
@[simp] theorem startStep_params (n : Nat) (s : State) : (startStep n s).params = s.params := rfl

/-! ### startSweep -/

@[simp] theorem startSweep_stg (s : State) : (startSweep s).stg = s.stg := rfl
@[simp] theorem startSweep_cfg (s : State) : (startSweep s).cfg = s.cfg := rfl
@[simp] theorem startSweep_ctl (s : State) : (startSweep s).ctl = s.ctl := rfl
@[simp] theorem startSweep_len (s : State) : (startSweep s).len = s.len := rfl
@[simp] theorem startSweep_askThresh (s : State) : (startSweep s).askThresh = s.askThresh := rfl
@[simp] theorem startSweep_prng (s : State) : (startSweep s).prng = s.prng := rfl
@[simp] theorem startSweep_res (s : State) : (startSweep s).res = s.res := rfl
@[simp] theorem startSweep_sweep (s : State) : (startSweep s).sweep = { state := .init, step := 0, logCount := 0 } := rfl
@[simp] theorem startSweep_mem (s : State) : (startSweep s).mem = s.mem := rfl
@[simp] theorem startSweep_host (s : State) : (startSweep s).host = s.host := rfl
@[simp] theorem startSweep_draws (s : State) : (startSweep s).draws = s.draws := rfl
@[simp] theorem startSweep_params (s : State) : (startSweep s).params = s.params := rfl

/-! ### endSweep -/

@[simp] theorem endSweep_stg (n : Nat) (s : State) : (endSweep n s).stg = s.stg := rfl
@[simp] theorem endSweep_cfg (n : Nat) (s : State) : (endSweep n s).cfg = s.cfg := rfl
@[simp] theorem endSweep_ctl (n : Nat) (s : State) : (endSweep n s).ctl = s.ctl := rfl
@[simp] theorem endSweep_len (n : Nat) (s : State) : (endSweep n s).len = s.len := rfl
@[simp] theorem endSweep_askThresh (n : Nat) (s : State) : (endSweep n s).askThresh = s.askThresh := rfl
@[simp] theorem endSweep_prng (n : Nat) (s : State) : (endSweep n s).prng = s.prng := rfl
@[simp] theorem endSweep_res (n : Nat) (s : State) : (endSweep n s).res = s.res := rfl
@[simp] theorem endSweep_sweep (n : Nat) (s : State) : (endSweep n s).sweep = { s.sweep with state := .done, step := BitVec.ofNat 32 n } := rfl
@[simp] theorem endSweep_mem (n : Nat) (s : State) : (endSweep n s).mem = s.mem := rfl
@[simp] theorem endSweep_host (n : Nat) (s : State) : (endSweep n s).host = s.host := rfl
@[simp] theorem endSweep_draws (n : Nat) (s : State) : (endSweep n s).draws = s.draws := rfl
@[simp] theorem endSweep_params (n : Nat) (s : State) : (endSweep n s).params = s.params := rfl

/-! ### pushInput -/

@[simp] theorem pushInput_stg (x : Input) (s : State) : (pushInput x s).stg = s.stg := rfl
@[simp] theorem pushInput_cfg (x : Input) (s : State) : (pushInput x s).cfg = s.cfg := rfl
@[simp] theorem pushInput_ctl (x : Input) (s : State) : (pushInput x s).ctl = s.ctl := rfl
@[simp] theorem pushInput_len (x : Input) (s : State) : (pushInput x s).len = s.len := rfl
@[simp] theorem pushInput_askThresh (x : Input) (s : State) : (pushInput x s).askThresh = s.askThresh := rfl
@[simp] theorem pushInput_prng (x : Input) (s : State) : (pushInput x s).prng = s.prng := rfl
@[simp] theorem pushInput_res (x : Input) (s : State) : (pushInput x s).res = s.res := rfl
@[simp] theorem pushInput_sweep (x : Input) (s : State) : (pushInput x s).sweep = s.sweep := rfl
@[simp] theorem pushInput_mem (x : Input) (s : State) : (pushInput x s).mem = s.mem := rfl
@[simp] theorem pushInput_host (x : Input) (s : State) : (pushInput x s).host = { s.host with script := x :: s.host.script } := rfl
@[simp] theorem pushInput_draws (x : Input) (s : State) : (pushInput x s).draws = s.draws := rfl
@[simp] theorem pushInput_params (x : Input) (s : State) : (pushInput x s).params = s.params := rfl

/-! ### commitConfig -/

@[simp] theorem commitConfig_stg (sc : Scheme) (s : State) : (commitConfig sc s).stg = s.stg := rfl
@[simp] theorem commitConfig_cfg (sc : Scheme) (s : State) : (commitConfig sc s).cfg = committedConfig s.stg sc := rfl
@[simp] theorem commitConfig_ctl (sc : Scheme) (s : State) : (commitConfig sc s).ctl = { s.ctl with cfgValid := true } := rfl
@[simp] theorem commitConfig_len (sc : Scheme) (s : State) : (commitConfig sc s).len = { cilen := 0, cqlen := 0, txlen := 0, rxlen := 0, wlen := 0 } := rfl
@[simp] theorem commitConfig_askThresh (sc : Scheme) (s : State) : (commitConfig sc s).askThresh = s.askThresh := rfl
@[simp] theorem commitConfig_prng (sc : Scheme) (s : State) : (commitConfig sc s).prng = s.prng := rfl
@[simp] theorem commitConfig_res (sc : Scheme) (s : State) : (commitConfig sc s).res = s.res := rfl
@[simp] theorem commitConfig_sweep (sc : Scheme) (s : State) : (commitConfig sc s).sweep = s.sweep := rfl
@[simp] theorem commitConfig_mem (sc : Scheme) (s : State) : (commitConfig sc s).mem = s.mem := rfl
@[simp] theorem commitConfig_host (sc : Scheme) (s : State) : (commitConfig sc s).host = s.host := rfl
@[simp] theorem commitConfig_draws (sc : Scheme) (s : State) : (commitConfig sc s).draws = s.draws := rfl
@[simp] theorem commitConfig_params (sc : Scheme) (s : State) : (commitConfig sc s).params = s.params := rfl

/-! ### fetchElem: reading an element uses up a draw or nothing -/

theorem fetchElem_of_some {w : Nat} {b : Buffer w} {k : Nat} {v : BitVec w} (h : b.read? k = some v) (s : State) :
    fetchElem b k s = (v, s) := by
  simp [fetchElem, h]

theorem fetchElem_of_none {w : Nat} {b : Buffer w} {k : Nat} (h : b.read? k = none) (s : State) :
    fetchElem b k s = (drawn s w, afterDraw s) := by
  simp [fetchElem, h]

/-- Reading an element changes at most the count of draws. -/
theorem fetchElem_state {w : Nat} (b : Buffer w) (k : Nat) (s : State) :
    (fetchElem b k s).2 = s ∨ (fetchElem b k s).2 = afterDraw s := by
  unfold fetchElem
  split
  · exact .inl rfl
  · exact .inr rfl

@[simp] theorem fetchElem_stg {w : Nat} (b : Buffer w) (k : Nat) (s : State) :
    (fetchElem b k s).2.stg = s.stg := by
  rcases fetchElem_state b k s with h | h <;> simp [h]
@[simp] theorem fetchElem_cfg {w : Nat} (b : Buffer w) (k : Nat) (s : State) :
    (fetchElem b k s).2.cfg = s.cfg := by
  rcases fetchElem_state b k s with h | h <;> simp [h]
@[simp] theorem fetchElem_ctl {w : Nat} (b : Buffer w) (k : Nat) (s : State) :
    (fetchElem b k s).2.ctl = s.ctl := by
  rcases fetchElem_state b k s with h | h <;> simp [h]
@[simp] theorem fetchElem_len {w : Nat} (b : Buffer w) (k : Nat) (s : State) :
    (fetchElem b k s).2.len = s.len := by
  rcases fetchElem_state b k s with h | h <;> simp [h]
@[simp] theorem fetchElem_askThresh {w : Nat} (b : Buffer w) (k : Nat) (s : State) :
    (fetchElem b k s).2.askThresh = s.askThresh := by
  rcases fetchElem_state b k s with h | h <;> simp [h]
@[simp] theorem fetchElem_prng {w : Nat} (b : Buffer w) (k : Nat) (s : State) :
    (fetchElem b k s).2.prng = s.prng := by
  rcases fetchElem_state b k s with h | h <;> simp [h]
@[simp] theorem fetchElem_res {w : Nat} (b : Buffer w) (k : Nat) (s : State) :
    (fetchElem b k s).2.res = s.res := by
  rcases fetchElem_state b k s with h | h <;> simp [h]
@[simp] theorem fetchElem_sweep {w : Nat} (b : Buffer w) (k : Nat) (s : State) :
    (fetchElem b k s).2.sweep = s.sweep := by
  rcases fetchElem_state b k s with h | h <;> simp [h]
@[simp] theorem fetchElem_mem {w : Nat} (b : Buffer w) (k : Nat) (s : State) :
    (fetchElem b k s).2.mem = s.mem := by
  rcases fetchElem_state b k s with h | h <;> simp [h]
@[simp] theorem fetchElem_host {w : Nat} (b : Buffer w) (k : Nat) (s : State) :
    (fetchElem b k s).2.host = s.host := by
  rcases fetchElem_state b k s with h | h <;> simp [h]
@[simp] theorem fetchElem_params {w : Nat} (b : Buffer w) (k : Nat) (s : State) :
    (fetchElem b k s).2.params = s.params := by
  rcases fetchElem_state b k s with h | h <;> simp [h]

@[simp] theorem readCarrI_stg (k : Nat) (s : State) : (readCarrI k s).2.stg = s.stg := fetchElem_stg _ k s
@[simp] theorem readCarrI_cfg (k : Nat) (s : State) : (readCarrI k s).2.cfg = s.cfg := fetchElem_cfg _ k s
@[simp] theorem readCarrI_ctl (k : Nat) (s : State) : (readCarrI k s).2.ctl = s.ctl := fetchElem_ctl _ k s
@[simp] theorem readCarrI_len (k : Nat) (s : State) : (readCarrI k s).2.len = s.len := fetchElem_len _ k s
@[simp] theorem readCarrI_askThresh (k : Nat) (s : State) : (readCarrI k s).2.askThresh = s.askThresh := fetchElem_askThresh _ k s
@[simp] theorem readCarrI_prng (k : Nat) (s : State) : (readCarrI k s).2.prng = s.prng := fetchElem_prng _ k s
@[simp] theorem readCarrI_res (k : Nat) (s : State) : (readCarrI k s).2.res = s.res := fetchElem_res _ k s
@[simp] theorem readCarrI_sweep (k : Nat) (s : State) : (readCarrI k s).2.sweep = s.sweep := fetchElem_sweep _ k s
@[simp] theorem readCarrI_mem (k : Nat) (s : State) : (readCarrI k s).2.mem = s.mem := fetchElem_mem _ k s
@[simp] theorem readCarrI_host (k : Nat) (s : State) : (readCarrI k s).2.host = s.host := fetchElem_host _ k s
@[simp] theorem readCarrI_params (k : Nat) (s : State) : (readCarrI k s).2.params = s.params := fetchElem_params _ k s

theorem readCarrI_of_some {k : Nat} {s : State} {v : _} (h : s.mem.carrI.read? k = some v) : readCarrI k s = (v, s) :=
  fetchElem_of_some h s

@[simp] theorem readCarrQ_stg (k : Nat) (s : State) : (readCarrQ k s).2.stg = s.stg := fetchElem_stg _ k s
@[simp] theorem readCarrQ_cfg (k : Nat) (s : State) : (readCarrQ k s).2.cfg = s.cfg := fetchElem_cfg _ k s
@[simp] theorem readCarrQ_ctl (k : Nat) (s : State) : (readCarrQ k s).2.ctl = s.ctl := fetchElem_ctl _ k s
@[simp] theorem readCarrQ_len (k : Nat) (s : State) : (readCarrQ k s).2.len = s.len := fetchElem_len _ k s
@[simp] theorem readCarrQ_askThresh (k : Nat) (s : State) : (readCarrQ k s).2.askThresh = s.askThresh := fetchElem_askThresh _ k s
@[simp] theorem readCarrQ_prng (k : Nat) (s : State) : (readCarrQ k s).2.prng = s.prng := fetchElem_prng _ k s
@[simp] theorem readCarrQ_res (k : Nat) (s : State) : (readCarrQ k s).2.res = s.res := fetchElem_res _ k s
@[simp] theorem readCarrQ_sweep (k : Nat) (s : State) : (readCarrQ k s).2.sweep = s.sweep := fetchElem_sweep _ k s
@[simp] theorem readCarrQ_mem (k : Nat) (s : State) : (readCarrQ k s).2.mem = s.mem := fetchElem_mem _ k s
@[simp] theorem readCarrQ_host (k : Nat) (s : State) : (readCarrQ k s).2.host = s.host := fetchElem_host _ k s
@[simp] theorem readCarrQ_params (k : Nat) (s : State) : (readCarrQ k s).2.params = s.params := fetchElem_params _ k s

theorem readCarrQ_of_some {k : Nat} {s : State} {v : _} (h : s.mem.carrQ.read? k = some v) : readCarrQ k s = (v, s) :=
  fetchElem_of_some h s

@[simp] theorem readWave_stg (k : Nat) (s : State) : (readWave k s).2.stg = s.stg := fetchElem_stg _ k s
@[simp] theorem readWave_cfg (k : Nat) (s : State) : (readWave k s).2.cfg = s.cfg := fetchElem_cfg _ k s
@[simp] theorem readWave_ctl (k : Nat) (s : State) : (readWave k s).2.ctl = s.ctl := fetchElem_ctl _ k s
@[simp] theorem readWave_len (k : Nat) (s : State) : (readWave k s).2.len = s.len := fetchElem_len _ k s
@[simp] theorem readWave_askThresh (k : Nat) (s : State) : (readWave k s).2.askThresh = s.askThresh := fetchElem_askThresh _ k s
@[simp] theorem readWave_prng (k : Nat) (s : State) : (readWave k s).2.prng = s.prng := fetchElem_prng _ k s
@[simp] theorem readWave_res (k : Nat) (s : State) : (readWave k s).2.res = s.res := fetchElem_res _ k s
@[simp] theorem readWave_sweep (k : Nat) (s : State) : (readWave k s).2.sweep = s.sweep := fetchElem_sweep _ k s
@[simp] theorem readWave_mem (k : Nat) (s : State) : (readWave k s).2.mem = s.mem := fetchElem_mem _ k s
@[simp] theorem readWave_host (k : Nat) (s : State) : (readWave k s).2.host = s.host := fetchElem_host _ k s
@[simp] theorem readWave_params (k : Nat) (s : State) : (readWave k s).2.params = s.params := fetchElem_params _ k s

theorem readWave_of_some {k : Nat} {s : State} {v : _} (h : s.mem.wave.read? k = some v) : readWave k s = (v, s) :=
  fetchElem_of_some h s

@[simp] theorem readTx_stg (k : Nat) (s : State) : (readTx k s).2.stg = s.stg := fetchElem_stg _ k s
@[simp] theorem readTx_cfg (k : Nat) (s : State) : (readTx k s).2.cfg = s.cfg := fetchElem_cfg _ k s
@[simp] theorem readTx_ctl (k : Nat) (s : State) : (readTx k s).2.ctl = s.ctl := fetchElem_ctl _ k s
@[simp] theorem readTx_len (k : Nat) (s : State) : (readTx k s).2.len = s.len := fetchElem_len _ k s
@[simp] theorem readTx_askThresh (k : Nat) (s : State) : (readTx k s).2.askThresh = s.askThresh := fetchElem_askThresh _ k s
@[simp] theorem readTx_prng (k : Nat) (s : State) : (readTx k s).2.prng = s.prng := fetchElem_prng _ k s
@[simp] theorem readTx_res (k : Nat) (s : State) : (readTx k s).2.res = s.res := fetchElem_res _ k s
@[simp] theorem readTx_sweep (k : Nat) (s : State) : (readTx k s).2.sweep = s.sweep := fetchElem_sweep _ k s
@[simp] theorem readTx_mem (k : Nat) (s : State) : (readTx k s).2.mem = s.mem := fetchElem_mem _ k s
@[simp] theorem readTx_host (k : Nat) (s : State) : (readTx k s).2.host = s.host := fetchElem_host _ k s
@[simp] theorem readTx_params (k : Nat) (s : State) : (readTx k s).2.params = s.params := fetchElem_params _ k s

theorem readTx_of_some {k : Nat} {s : State} {v : _} (h : s.mem.txbits.read? k = some v) : readTx k s = (v, s) :=
  fetchElem_of_some h s

@[simp] theorem readRx_stg (k : Nat) (s : State) : (readRx k s).2.stg = s.stg := fetchElem_stg _ k s
@[simp] theorem readRx_cfg (k : Nat) (s : State) : (readRx k s).2.cfg = s.cfg := fetchElem_cfg _ k s
@[simp] theorem readRx_ctl (k : Nat) (s : State) : (readRx k s).2.ctl = s.ctl := fetchElem_ctl _ k s
@[simp] theorem readRx_len (k : Nat) (s : State) : (readRx k s).2.len = s.len := fetchElem_len _ k s
@[simp] theorem readRx_askThresh (k : Nat) (s : State) : (readRx k s).2.askThresh = s.askThresh := fetchElem_askThresh _ k s
@[simp] theorem readRx_prng (k : Nat) (s : State) : (readRx k s).2.prng = s.prng := fetchElem_prng _ k s
@[simp] theorem readRx_res (k : Nat) (s : State) : (readRx k s).2.res = s.res := fetchElem_res _ k s
@[simp] theorem readRx_sweep (k : Nat) (s : State) : (readRx k s).2.sweep = s.sweep := fetchElem_sweep _ k s
@[simp] theorem readRx_mem (k : Nat) (s : State) : (readRx k s).2.mem = s.mem := fetchElem_mem _ k s
@[simp] theorem readRx_host (k : Nat) (s : State) : (readRx k s).2.host = s.host := fetchElem_host _ k s
@[simp] theorem readRx_params (k : Nat) (s : State) : (readRx k s).2.params = s.params := fetchElem_params _ k s

theorem readRx_of_some {k : Nat} {s : State} {v : _} (h : s.mem.rxbits.read? k = some v) : readRx k s = (v, s) :=
  fetchElem_of_some h s

@[simp] theorem readLog_stg (k : Nat) (s : State) : (readLog k s).2.stg = s.stg := fetchElem_stg _ k s
@[simp] theorem readLog_cfg (k : Nat) (s : State) : (readLog k s).2.cfg = s.cfg := fetchElem_cfg _ k s
@[simp] theorem readLog_ctl (k : Nat) (s : State) : (readLog k s).2.ctl = s.ctl := fetchElem_ctl _ k s
@[simp] theorem readLog_len (k : Nat) (s : State) : (readLog k s).2.len = s.len := fetchElem_len _ k s
@[simp] theorem readLog_askThresh (k : Nat) (s : State) : (readLog k s).2.askThresh = s.askThresh := fetchElem_askThresh _ k s
@[simp] theorem readLog_prng (k : Nat) (s : State) : (readLog k s).2.prng = s.prng := fetchElem_prng _ k s
@[simp] theorem readLog_res (k : Nat) (s : State) : (readLog k s).2.res = s.res := fetchElem_res _ k s
@[simp] theorem readLog_sweep (k : Nat) (s : State) : (readLog k s).2.sweep = s.sweep := fetchElem_sweep _ k s
@[simp] theorem readLog_mem (k : Nat) (s : State) : (readLog k s).2.mem = s.mem := fetchElem_mem _ k s
@[simp] theorem readLog_host (k : Nat) (s : State) : (readLog k s).2.host = s.host := fetchElem_host _ k s
@[simp] theorem readLog_params (k : Nat) (s : State) : (readLog k s).2.params = s.params := fetchElem_params _ k s

theorem readLog_of_some {k : Nat} {s : State} {v : _} (h : s.mem.log.read? k = some v) : readLog k s = (v, s) :=
  fetchElem_of_some h s

end Sys2Proof.Machine
end

