-- ==== Sys2Proof/Laws/Ops.lean ====
section
/-! SUPPORT. What each shared operation can do, said once: checks, the life of a command, reading an
element, and loops that fill a buffer from index 0 on. -/

namespace Sys2Proof.Machine

/-! ## Checks and the life of a command -/

theorem requireElse_of {c : Prop} [Decidable c] (h : c) (e : Cause) (s : State) (rest : Completion) :
    requireElse c e s rest = rest := if_pos h

theorem requireElse_of_not {c : Prop} [Decidable c] (h : ¬ c) (e : Cause) (s : State) (rest : Completion) :
    requireElse c e s rest = .raised e s := if_neg h

/-- A check either lets the rest run or raises its cause with the state untouched. -/
theorem requireElse_cases (c : Prop) [Decidable c] (e : Cause) (s : State) (rest : Completion) :
    (c ∧ requireElse c e s rest = rest) ∨ (¬ c ∧ requireElse c e s rest = .raised e s) := by
  by_cases h : c
  · exact .inl ⟨h, if_pos h⟩
  · exact .inr ⟨h, if_neg h⟩

theorem runCommand_of_ended {w : Word} {body : State → Completion} {s t : State}
    (h : body (startCommand w s) = .ended t) : runCommand w body s = .next (completeCommand t) := by
  simp [runCommand, h]

theorem runCommand_of_raised {w : Word} {body : State → Completion} {s t : State} {c : Cause}
    (h : body (startCommand w s) = .raised c t) : runCommand w body s = .next (enterError w c t) := by
  simp [runCommand, h]

/-- A command that runs answers a next state: it completed or it raised. -/
theorem runCommand_cases (w : Word) (body : State → Completion) (s : State) :
    (∃ t, body (startCommand w s) = .ended t ∧ runCommand w body s = .next (completeCommand t)) ∨
    (∃ c t, body (startCommand w s) = .raised c t ∧ runCommand w body s = .next (enterError w c t)) := by
  cases h : body (startCommand w s) with
  | ended t => exact .inl ⟨t, rfl, runCommand_of_ended h⟩
  | raised c t => exact .inr ⟨c, t, rfl, runCommand_of_raised h⟩

@[simp] theorem andThen_ended (s : State) (f : State → Completion) : andThen (.ended s) f = f s := rfl
@[simp] theorem andThen_raised (c : Cause) (s : State) (f : State → Completion) :
    andThen (.raised c s) f = .raised c s := rfl

/-! ## Reading an element -/

/-- Reading an element gives its value and leaves the state as it is, or, when nothing has written
it, gives a draw and uses it up. -/
theorem fetchElem_spec {w : Nat} (b : Buffer w) (k : Nat) (s : State) :
    ∃ v d, fetchElem b k s = (v, { s with draws := d }) ∧ ∀ x, b.read? k = some x → v = x ∧ d = s.draws := by
  cases h : b.read? k with
  | none => exact ⟨_, _, fetchElem_of_none h s, fun _ hx => nomatch hx⟩
  | some v => exact ⟨v, s.draws, fetchElem_of_some h s, fun x hx => ⟨Option.some.inj hx, rfl⟩⟩

/-! ## Loops that fill a buffer from index 0 on -/

/-- `b` is `old` with the elements below `n` replaced by `f`. -/
def Buffer.Prefixed {w : Nat} (n : Nat) (f : Nat → BitVec w) (old b : Buffer w) : Prop :=
  ∀ k, b.read? k = if k < n then some (f k) else old.read? k

theorem Buffer.prefixed_zero {w : Nat} (f : Nat → BitVec w) (b : Buffer w) : Buffer.Prefixed 0 f b b :=
  fun _ => rfl

theorem Buffer.Prefixed.write {w n : Nat} {f : Nat → BitVec w} {old b : Buffer w} {v : BitVec w}
    (h : Buffer.Prefixed n f old b) (hv : v = f n) : Buffer.Prefixed (n + 1) f old (b.write n v) := by
  intro k
  rw [Buffer.read?_write, h k]
  by_cases h1 : k = n
  · subst h1
    simp [hv]
  · by_cases h2 : k < n
    · simp [h1, h2, Nat.lt_succ_of_lt h2]
    · simp [h1, h2, show ¬ k < n + 1 by omega]

theorem Buffer.Prefixed.filled {w n : Nat} {f : Nat → BitVec w} {old b : Buffer w}
    (h : Buffer.Prefixed n f old b) {k : Nat} (hk : k < n) : b.read? k = some (f k) := by
  rw [h k, if_pos hk]

theorem Buffer.Prefixed.above {w n : Nat} {f : Nat → BitVec w} {old b : Buffer w}
    (h : Buffer.Prefixed n f old b) {k : Nat} (hk : n ≤ k) : b.read? k = old.read? k := by
  rw [h k, if_neg (Nat.not_lt.mpr hk)]

/-- `b` is `old` with every element below `n` replaced by a value that meets `p`. -/
def Buffer.Filling {w : Nat} (n : Nat) (p : Nat → BitVec w → Prop) (old b : Buffer w) : Prop :=
  (∀ k, k < n → ∃ v, b.read? k = some v ∧ p k v) ∧ ∀ k, n ≤ k → b.read? k = old.read? k

theorem Buffer.filling_zero {w : Nat} (p : Nat → BitVec w → Prop) (b : Buffer w) : Buffer.Filling 0 p b b :=
  ⟨fun _ h => absurd h (Nat.not_lt_zero _), fun _ _ => rfl⟩

theorem Buffer.Filling.write {w n : Nat} {p : Nat → BitVec w → Prop} {old b : Buffer w} {v : BitVec w}
    (h : Buffer.Filling n p old b) (hv : p n v) : Buffer.Filling (n + 1) p old (b.write n v) := by
  refine ⟨fun k hk => ?_, fun k hk => ?_⟩
  · by_cases e : k = n
    · subst e
      exact ⟨v, Buffer.read?_write_same b k v, hv⟩
    · rw [Buffer.read?_write_other b v e]
      exact h.1 k (by omega)
  · rw [Buffer.read?_write_other b v (by omega : k ≠ n)]
    exact h.2 k (by omega)

/-- A filling whose values are determined is the old buffer with those values in front. -/
theorem Buffer.Filling.toPrefixed {w n : Nat} {p : Nat → BitVec w → Prop} {f : Nat → BitVec w}
    {old b : Buffer w} (h : Buffer.Filling n p old b) (hp : ∀ k v, k < n → p k v → v = f k) :
    Buffer.Prefixed n f old b := by
  intro k
  split
  · rename_i hk
    obtain ⟨v, hv, hpv⟩ := h.1 k hk
    rw [hv, hp k v hk hpv]
  · rename_i hk
    exact h.2 k (Nat.le_of_not_lt hk)

end Sys2Proof.Machine
end

