-- ==== Sys2Proof/Laws/BitSource.lean ====
section
/-! SUPPORT. The loop of GEN_BITS (R163). -/

namespace Sys2Proof.Machine

/-- The `j`-th bit GEN_BITS writes when the generator starts at `x` (R163, R164). -/
def generatedBit (x : Word) (j : Nat) : Bit := dataBit (prngNext^[j + 1] x)

/-- The loop of GEN_BITS after `n` iterations: only TXBITS and PRNG have changed. -/
theorem genBits_loop (s : State) (n : Nat) : ∃ tx,
    forUpTo n generateBit s = { s with mem := { s.mem with txbits := tx }, prng := prngNext^[n] s.prng } ∧
    Buffer.Prefixed n (generatedBit s.prng) s.mem.txbits tx := by
  induction n with
  | zero => exact ⟨s.mem.txbits, rfl, Buffer.prefixed_zero _ _⟩
  | succ n ih =>
    obtain ⟨tx, hl, ht⟩ := ih
    refine ⟨tx.write n (generatedBit s.prng n), ?_, ht.write rfl⟩
    rw [forUpTo_succ, hl, Function.iterate_succ_apply']
    simp [generateBit, stepPrng, writeTx, generatedBit, Function.iterate_succ_apply']

/-- What GEN_BITS does from a valid configuration: it runs to its end. -/
theorem genBitsBody_spec (s : State) (h : s.ctl.cfgValid = true) : ∃ tx,
    genBitsBody s = .ended { s with
      mem := { s.mem with txbits := tx }
      len := { s.len with txlen := s.cfg.nbits }
      prng := prngNext^[s.cfg.nbits.toNat] s.prng } ∧
    Buffer.Prefixed s.cfg.nbits.toNat (generatedBit s.prng) s.mem.txbits tx := by
  obtain ⟨tx, hl, ht⟩ := genBits_loop s (cfgNbits s)
  refine ⟨tx, ?_, ht⟩
  simp only [genBitsBody, requireConfigured, requireElse_of h, hl]
  rfl

end Sys2Proof.Machine
end

