-- ==== Sys2Proof/Laws/Frame.lean ====
section
/-! SUPPORT. What no command but CONFIG and SOFT_RESET touches: the staging registers, the active
configuration, the control registers, ASK_THRESH, the host's side and the parameters; from every state, whether the
command ends or raises (R22, R290). -/

namespace Sys2Proof.Machine

/-- The parts of the state the pseudocode of a command leaves alone. -/
structure Steady (s t : State) : Prop where
  stg : t.stg = s.stg
  cfg : t.cfg = s.cfg
  ctl : t.ctl = s.ctl
  askThresh : t.askThresh = s.askThresh
  host : t.host = s.host
  params : t.params = s.params

theorem Steady.refl (s : State) : Steady s s := ⟨rfl, rfl, rfl, rfl, rfl, rfl⟩

theorem Steady.trans {s t u : State} (h : Steady s t) (h' : Steady t u) : Steady s u :=
  ⟨h'.stg.trans h.stg, h'.cfg.trans h.cfg, h'.ctl.trans h.ctl, h'.askThresh.trans h.askThresh,
    h'.host.trans h.host, h'.params.trans h.params⟩

theorem steady_fetch {w : Nat} (b : Buffer w) (k : Nat) (s : State) : Steady s (fetchElem b k s).2 := by
  unfold fetchElem
  split
  · exact Steady.refl s
  · exact ⟨rfl, rfl, rfl, rfl, rfl, rfl⟩

theorem steady_forUpTo {n : Nat} {body : Nat → State → State} (s : State)
    (h : ∀ k x, Steady x (body k x)) : Steady s (forUpTo n body s) :=
  forUpTo_induct (fun _ x => Steady s x) (Steady.refl s) fun k x _ hx => hx.trans (h k x)

/-- The state a command's pseudocode ends in, raised or not. -/
def Completion.final : Completion → State
  | .ended s => s
  | .raised _ s => s

theorem steady_requireElse {c : Prop} [Decidable c] {e : Cause} {s : State} {rest : Completion}
    (h : Steady s rest.final) : Steady s (requireElse c e s rest).final := by
  unfold requireElse
  split
  · exact h
  · exact Steady.refl s

theorem steady_andThen {s : State} {r : Completion} {f : State → Completion} (h : Steady s r.final)
    (hf : ∀ t, Steady t (f t).final) : Steady s (andThen r f).final := by
  cases r with
  | ended t => exact h.trans (hf t)
  | raised c t => exact h

theorem steady_carrierSample (inc k : Nat) (a : Nat × State) : Steady a.2 (carrierSample inc k a).2 := by
  unfold carrierSample
  dsimp only
  split <;> exact ⟨rfl, rfl, rfl, rfl, rfl, rfl⟩

theorem steady_genCarriers (s : State) : Steady s (genCarriersBody s).final := by
  refine steady_requireElse ?_
  have h := forUpTo_induct (n := cfgFs s) (body := carrierSample (cfgFc s % cfgFs s)) (a := (0, s))
    (fun _ a => Steady s a.2) (Steady.refl s) fun k a _ ha => ha.trans (steady_carrierSample _ k a)
  exact ⟨h.stg, h.cfg, h.ctl, h.askThresh, h.host, h.params⟩

theorem steady_genBits (s : State) : Steady s (genBitsBody s).final := by
  refine steady_requireElse ?_
  have h := steady_forUpTo (n := cfgNbits s) (body := generateBit) s fun _ _ => ⟨rfl, rfl, rfl, rfl, rfl, rfl⟩
  exact ⟨h.stg, h.cfg, h.ctl, h.askThresh, h.host, h.params⟩

theorem steady_modulateSample (k : Nat) (s : State) : Steady s (modulateSample k s) := by
  have write : ∀ (j : Nat) (v : Word) (t : State), Steady t (writeWave j v t) :=
    fun _ _ _ => ⟨rfl, rfl, rfl, rfl, rfl, rfl⟩
  unfold modulateSample
  split
  · unfold modulateAsk
    dsimp only
    split
    · exact ((steady_fetch _ _ s).trans (steady_fetch _ _ _)).trans (write _ _ _)
    · exact (steady_fetch _ _ s).trans (write _ _ _)
  · exact ((steady_fetch _ _ s).trans (steady_fetch _ _ _)).trans (write _ _ _)
  · exact ((((steady_fetch _ _ s).trans (steady_fetch _ _ _)).trans (steady_fetch _ _ _)).trans
      (steady_fetch _ _ _)).trans (write _ _ _)

theorem steady_modulate (s : State) : Steady s (modulateBody s).final := by
  refine steady_requireElse (steady_requireElse (steady_requireElse (steady_requireElse ?_)))
  have h := steady_forUpTo (n := cfgFs s) s steady_modulateSample
  exact ⟨h.stg, h.cfg, h.ctl, h.askThresh, h.host, h.params⟩

theorem steady_addNoiseSample (sigma : Int) (k : Nat) (z : Half) (s : State) :
    Steady s (addNoiseSample sigma k z s) :=
  (steady_fetch _ _ s).trans ⟨rfl, rfl, rfl, rfl, rfl, rfl⟩

theorem steady_addNoisePair (sigma : Int) (p : Nat) (s : State) : Steady s (addNoisePair sigma p s) := by
  have h : Steady s (stepPrng (stepPrng s)) := ⟨rfl, rfl, rfl, rfl, rfl, rfl⟩
  unfold addNoisePair
  dsimp only
  split
  · exact (h.trans (steady_addNoiseSample _ _ _ _)).trans (steady_addNoiseSample _ _ _ _)
  · exact h.trans (steady_addNoiseSample _ _ _ _)

theorem steady_addNoise (src : SigmaSource) (s : State) : Steady s (addNoiseBody src s).final :=
  steady_requireElse (steady_requireElse (steady_requireElse (steady_forUpTo s (steady_addNoisePair _))))

theorem steady_countHigh (k : Nat) (s : State) : Steady s (countHigh k s) := by
  unfold countHigh
  dsimp only
  split
  · exact (steady_fetch _ _ s).trans ⟨rfl, rfl, rfl, rfl, rfl, rfl⟩
  · exact steady_fetch _ _ s

theorem steady_correlateI (k : Nat) (s : State) : Steady s (correlateI k s) :=
  ((steady_fetch _ _ s).trans (steady_fetch _ _ _)).trans ⟨rfl, rfl, rfl, rfl, rfl, rfl⟩

theorem steady_correlateQ (k : Nat) (s : State) : Steady s (correlateQ k s) :=
  ((steady_fetch _ _ s).trans (steady_fetch _ _ _)).trans ⟨rfl, rfl, rfl, rfl, rfl, rfl⟩

theorem steady_demodulateAll (s : State) : Steady s (demodulateAll s) := by
  have clear : ∀ t, Steady t (setAcc 0 0 t) := fun _ => ⟨rfl, rfl, rfl, rfl, rfl, rfl⟩
  have write : ∀ (j : Nat) (v : Bit) (t : State), Steady t (writeRx j v t) :=
    fun _ _ _ => ⟨rfl, rfl, rfl, rfl, rfl, rfl⟩
  unfold demodulateAll
  split
  · exact steady_forUpTo s fun j t => ((clear t).trans
      (steady_forUpTo _ fun m u => steady_countHigh _ u)).trans (write _ _ _)
  · exact steady_forUpTo s fun j t => ((clear t).trans
      (steady_forUpTo _ fun m u => steady_correlateI _ u)).trans (write _ _ _)
  · exact steady_forUpTo s fun j t => (((clear t).trans (steady_forUpTo _ fun m u =>
      (steady_correlateI _ u).trans (steady_correlateQ _ _))).trans (write _ _ _)).trans (write _ _ _)

theorem steady_demodulate (s : State) : Steady s (demodulateBody s).final := by
  refine steady_requireElse (steady_requireElse (steady_requireElse (steady_requireElse ?_)))
  have h := steady_demodulateAll s
  exact ⟨h.stg, h.cfg, h.ctl, h.askThresh, h.host, h.params⟩

theorem steady_score (s : State) : Steady s (scoreBody s).final := by
  refine steady_requireElse (steady_requireElse ?_)
  have h := forUpTo_induct (n := s.len.txlen.toNat) (body := compareBit) (a := (0, s))
    (fun _ a => Steady s a.2) (Steady.refl s) fun k a _ ha =>
      ha.trans ((steady_fetch _ _ a.2).trans (steady_fetch _ _ _))
  exact ⟨h.stg, h.cfg, h.ctl, h.askThresh, h.host, h.params⟩

theorem steady_writeLogWords (i : Nat) (vs : List Word) (s : State) : Steady s (writeLogWords i vs s) := by
  induction vs generalizing i s with
  | nil => exact Steady.refl s
  | cons v vs ih => exact Steady.trans (t := writeLog i v s) ⟨rfl, rfl, rfl, rfl, rfl, rfl⟩ (ih (i + 1) (writeLog i v s))

theorem steady_sweepStep (n : Nat) (s : State) : Steady s (sweepStep n s).final := by
  refine steady_andThen (Steady.trans (t := startStep n s) ⟨rfl, rfl, rfl, rfl, rfl, rfl⟩ (steady_genBits _)) fun s1 => ?_
  refine steady_andThen (steady_modulate s1) fun s2 => ?_
  refine steady_andThen (steady_addNoise _ s2) fun s3 => ?_
  refine steady_andThen (steady_demodulate s3) fun s4 => ?_
  refine steady_andThen (steady_score s4) fun s5 => ?_
  have h := steady_writeLogWords (8 * n) (sweepRecord n s5) s5
  exact ⟨h.stg, h.cfg, h.ctl, h.askThresh, h.host, h.params⟩

theorem steady_sweepSteps (k : Nat) (s : State) : Steady s (sweepSteps k s).final := by
  induction k with
  | zero => exact Steady.refl s
  | succ n ih => exact steady_andThen ih fun t => steady_sweepStep n t

theorem steady_runSweep (P : Config.Params) (k : Nat) (s : State) : Steady s (runSweepBody P k s).final := by
  refine steady_requireElse (steady_requireElse ?_)
  refine steady_andThen (Steady.trans (t := startSweep s) ⟨rfl, rfl, rfl, rfl, rfl, rfl⟩ (steady_genCarriers _)) fun s1 => ?_
  refine steady_andThen (steady_sweepSteps k s1) fun s2 => ?_
  exact ⟨rfl, rfl, rfl, rfl, rfl, rfl⟩

theorem steady_getName (s : State) : Steady s (getNameBody s).final :=
  steady_requireElse ⟨rfl, rfl, rfl, rfl, rfl, rfl⟩

/-- The groups other than the control registers after a whole command. -/
theorem runCommand_steady {w : Word} {body : State → Completion} (h : ∀ s, Steady s (body s).final)
    {s t : State} (ht : runCommand w body s = .next t) : t.stg = s.stg ∧ t.cfg = s.cfg ∧
      t.ctl.cfgValid = s.ctl.cfgValid ∧ t.askThresh = s.askThresh ∧ t.host = s.host ∧ t.params = s.params := by
  have hs := h (startCommand w s)
  rcases runCommand_cases w body s with ⟨u, hu, e⟩ | ⟨c, u, hu, e⟩ <;>
    (rw [e] at ht; injection ht with ht; subst ht; rw [hu] at hs
     have hc : u.ctl = (startCommand w s).ctl := hs.ctl
     have hv : u.ctl.cfgValid = s.ctl.cfgValid := by rw [hc]; rfl
     exact ⟨hs.stg, hs.cfg, hv, hs.askThresh, hs.host, hs.params⟩)

/-- A command other than CONFIG and SOFT_RESET leaves the active configuration, CFG_VALID, the staging
registers, ASK_THRESH, the host and the parameters alone (R22). -/
theorem exec_steady {i : Instr} (h1 : i ≠ .config) (h2 : i ≠ .softReset) {s t : State}
    (h : exec i s = .next t) : t.stg = s.stg ∧ t.cfg = s.cfg ∧ t.ctl.cfgValid = s.ctl.cfgValid ∧
      t.askThresh = s.askThresh ∧ t.host = s.host ∧ t.params = s.params := by
  cases i with
  | config => exact absurd rfl h1
  | softReset => exact absurd rfl h2
  | genCarriers => exact runCommand_steady steady_genCarriers h
  | genBits => exact runCommand_steady steady_genBits h
  | modulate => exact runCommand_steady steady_modulate h
  | addNoise => exact runCommand_steady (steady_addNoise .config) h
  | addNoiseI sigma => exact runCommand_steady (steady_addNoise (.immediate sigma)) h
  | demodulate => exact runCommand_steady steady_demodulate h
  | score => exact runCommand_steady steady_score h
  | runSweep k => exact runCommand_steady (steady_runSweep s.params k) h
  | getName => exact runCommand_steady steady_getName h

end Sys2Proof.Machine
end

