-- ==== Sys2Proof/Laws/Memory.lean ====
section
/-! SUPPORT. Every memory operation keeps the canonical form of the buffers, reset memory has it, and
buffers in that form are equal when they read the same. -/

namespace Sys2Proof.Machine

theorem memory_empty_wf (P : Config.Params) : Memory.empty.wf P := by
  simp [Memory.wf, Buffer.wf, Memory.empty]

theorem reset_memory_wf : State.reset.mem.wf State.reset.params := memory_empty_wf _

theorem writeCarrI_wf {P : Config.Params} {s : State} (h : s.mem.wf P) {k : Nat} (hk : k < P.fsMax) (v : Half) :
    (writeCarrI k v s).mem.wf P :=
  ⟨Buffer.write_wf h.1 hk v, h.2⟩

theorem writeCarrQ_wf {P : Config.Params} {s : State} (h : s.mem.wf P) {k : Nat} (hk : k < P.fsMax) (v : Half) :
    (writeCarrQ k v s).mem.wf P :=
  ⟨h.1, Buffer.write_wf h.2.1 hk v, h.2.2⟩

theorem writeWave_wf {P : Config.Params} {s : State} (h : s.mem.wf P) {k : Nat} (hk : k < P.fsMax) (v : Word) :
    (writeWave k v s).mem.wf P :=
  ⟨h.1, h.2.1, Buffer.write_wf h.2.2.1 hk v, h.2.2.2⟩

theorem writeTx_wf {P : Config.Params} {s : State} (h : s.mem.wf P) {k : Nat} (hk : k < P.fsMax) (v : Bit) :
    (writeTx k v s).mem.wf P :=
  ⟨h.1, h.2.1, h.2.2.1, Buffer.write_wf h.2.2.2.1 hk v, h.2.2.2.2⟩

theorem writeRx_wf {P : Config.Params} {s : State} (h : s.mem.wf P) {k : Nat} (hk : k < P.fsMax) (v : Bit) :
    (writeRx k v s).mem.wf P :=
  ⟨h.1, h.2.1, h.2.2.1, h.2.2.2.1, Buffer.write_wf h.2.2.2.2.1 hk v, h.2.2.2.2.2⟩

theorem writeLog_wf {P : Config.Params} {s : State} (h : s.mem.wf P) {i : Nat} (hi : i < 8 * P.stepMax) (v : Word) :
    (writeLog i v s).mem.wf P :=
  ⟨h.1, h.2.1, h.2.2.1, h.2.2.2.1, h.2.2.2.2.1, Buffer.write_wf h.2.2.2.2.2 hi v⟩

theorem within_eq {depth : Nat} {mk : Nat → Place} {k : Nat} {p : Place} (h : within depth mk k = p)
    (hp : p ≠ .unmapped) : k < depth ∧ mk k = p := by
  unfold within at h
  split at h
  · exact ⟨by assumption, h⟩
  · exact absurd h.symm hp

/-- A place the map gives lies inside its buffer. -/
theorem placeOf_wave_lt {P : Config.Params} {a : Addr} {k : Nat} (h : placeOf P a = .wave k) : k < P.fsMax := by
  unfold placeOf at h
  dsimp only at h
  split at h
  · split at h <;> simp at h
  all_goals
    obtain ⟨h1, h2⟩ := within_eq h (by simp)
    first | (injection h2 with h2; exact h2 ▸ h1) | simp at h2

theorem placeOf_txbits_lt {P : Config.Params} {a : Addr} {k : Nat} (h : placeOf P a = .txbits k) :
    k < P.fsMax := by
  unfold placeOf at h
  dsimp only at h
  split at h
  · split at h <;> simp at h
  all_goals
    obtain ⟨h1, h2⟩ := within_eq h (by simp)
    first | (injection h2 with h2; exact h2 ▸ h1) | simp at h2

/-- A host write keeps the canonical form. -/
theorem writePlace_wf {P : Config.Params} {s : State} (h : s.mem.wf P) (a : Addr) (v : Word) :
    (writePlace (placeOf P a) v s).mem.wf P := by
  cases hp : placeOf P a with
  | reg r => cases r <;> exact h
  | wave k => exact writeWave_wf h (placeOf_wave_lt hp) v
  | txbits k => exact writeTx_wf h (placeOf_txbits_lt hp) _
  | _ => exact h

/-- Two buffers in canonical form that read the same are the same list. -/
theorem Buffer.ext_of_sorted {w : Nat} {a b : Buffer w} (ha : a.Pairwise fun x y => x.1 < y.1)
    (hb : b.Pairwise fun x y => x.1 < y.1) (h : ∀ k, a.read? k = b.read? k) : a = b := by
  induction a generalizing b with
  | nil =>
    cases b with
    | nil => rfl
    | cons e rest =>
      have := h e.1
      simp [Buffer.read?] at this
  | cons d as ih =>
    obtain ⟨i, u⟩ := d
    cases b with
    | nil =>
      have := h i
      simp [Buffer.read?] at this
    | cons e bs =>
      obtain ⟨j, v⟩ := e
      obtain ⟨hi, has⟩ := List.pairwise_cons.mp ha
      obtain ⟨hj, hbs⟩ := List.pairwise_cons.mp hb
      have h1 : (j, v).1 = i ∨ i > j := by
        have e : Buffer.read? ((j, v) :: bs) i = some u := by rw [← h i]; simp [Buffer.read?]
        rcases List.mem_cons.mp (Buffer.mem_of_read? e) with e | e
        · exact .inl (by cases e; rfl)
        · exact .inr (hj _ e)
      have h2 : (i, u).1 = j ∨ j > i := by
        have e : Buffer.read? ((i, u) :: as) j = some v := by rw [h j]; simp [Buffer.read?]
        rcases List.mem_cons.mp (Buffer.mem_of_read? e) with e | e
        · exact .inl (by cases e; rfl)
        · exact .inr (hi _ e)
      obtain rfl : i = j := by
        simp only at h1 h2
        omega
      obtain rfl : u = v := by simpa [Buffer.read?] using h i
      refine congrArg _ (ih has hbs fun k => ?_)
      by_cases hk : k = i
      · subst hk
        have none_of : ∀ {c : Buffer w}, (∀ e ∈ c, k < e.1) → c.read? k = none := by
          intro c hc
          cases hr : c.read? k with
          | none => rfl
          | some x => exact absurd (hc _ (Buffer.mem_of_read? hr)) (Nat.lt_irrefl k)
        rw [none_of hi, none_of hj]
      · simpa [Buffer.read?, show ¬ i = k from fun e => hk e.symm] using h k

end Sys2Proof.Machine
end

