-- ==== Sys2Proof/Laws/Canonical.lean ====
section
/-! SUPPORT. Every command keeps the canonical form of the buffers, from every state whose active
configuration is valid (R22, R31). -/

namespace Sys2Proof.Machine

variable {P : Config.Params}

theorem wf_loop {n : Nat} {body : Nat → State → State} {s : State} (h : s.mem.wf P)
    (pass : ∀ k (x : State), k < n → x.mem.wf P → (body k x).mem.wf P) : (forUpTo n body s).mem.wf P :=
  forUpTo_induct (fun _ (x : State) => x.mem.wf P) h pass

theorem wf_requireElse {c : Prop} [Decidable c] {e : Cause} {s : State} {rest : Completion}
    (h : s.mem.wf P) (hr : rest.final.mem.wf P) : (requireElse c e s rest).final.mem.wf P := by
  unfold requireElse
  split
  · exact hr
  · exact h

theorem wf_genCarriers {s : State} (h : s.mem.wf P) (hf : cfgFs s ≤ P.fsMax) :
    (genCarriersBody s).final.mem.wf P := by
  refine wf_requireElse h ?_
  refine forUpTo_induct (n := cfgFs s) (body := carrierSample (cfgFc s % cfgFs s)) (a := (0, s))
    (fun _ a => a.2.mem.wf P) h fun k a hk ha => ?_
  unfold carrierSample
  dsimp only
  split
  · exact writeCarrQ_wf (writeCarrI_wf ha (by omega) _) (by omega) _
  · exact writeCarrI_wf ha (by omega) _

theorem wf_genBits {s : State} (h : s.mem.wf P) (hn : cfgNbits s ≤ P.fsMax) :
    (genBitsBody s).final.mem.wf P :=
  wf_requireElse h (wf_loop h fun k x hk hx => writeTx_wf (s := stepPrng x) hx (by omega) _)

theorem wf_modulateSample {k : Nat} {s : State} (h : s.mem.wf P) (hk : k < P.fsMax) :
    (modulateSample k s).mem.wf P := by
  unfold modulateSample
  split
  · unfold modulateAsk
    dsimp only
    split <;> exact writeWave_wf (by simpa using h) hk _
  · exact writeWave_wf (by simpa using h) hk _
  · exact writeWave_wf (by simpa using h) hk _

theorem wf_modulate {s : State} (h : s.mem.wf P) (hf : cfgFs s ≤ P.fsMax) :
    (modulateBody s).final.mem.wf P :=
  wf_requireElse h (wf_requireElse h (wf_requireElse h (wf_requireElse h
    (wf_loop h fun k x hk hx => wf_modulateSample hx (by omega)))))

theorem wf_addNoiseSample {sigma : Int} {k : Nat} {z : Half} {s : State} (h : s.mem.wf P)
    (hk : k < P.fsMax) : (addNoiseSample sigma k z s).mem.wf P :=
  writeWave_wf (by simpa using h) hk _

theorem wf_addNoise {src : SigmaSource} {s : State} (h : s.mem.wf P) (hf : cfgFs s ≤ P.fsMax) :
    (addNoiseBody src s).final.mem.wf P := by
  refine wf_requireElse h (wf_requireElse h (wf_requireElse h ?_))
  refine (forUpTo_induct (n := (cfgFs s + 1) / 2) (body := addNoisePair (sigmaOf src s)) (a := s)
    (fun _ x => x.mem.wf P ∧ x.cfg = s.cfg) ⟨h, rfl⟩ fun p x hp hx => ?_).1
  obtain ⟨hw, hc⟩ := hx
  refine ⟨?_, (steady_addNoisePair _ p x).cfg.trans hc⟩
  have hx : (stepPrng (stepPrng x)).mem.wf P := hw
  have h1 := wf_addNoiseSample (sigma := sigmaOf src s) (k := 2 * p)
    (z := (gauss (stepPrng x).prng (stepPrng (stepPrng x)).prng).1) hx (by omega)
  unfold addNoisePair
  dsimp only
  split
  · rename_i hlt
    refine wf_addNoiseSample h1 (Nat.lt_of_lt_of_le hlt ?_)
    refine le_trans (le_of_eq ?_) hf
    exact congrArg (fun c => BitVec.toNat c.fs) hc
  · exact h1

theorem mem_countHigh (k : Nat) (s : State) : (countHigh k s).mem = s.mem := by
  unfold countHigh
  dsimp only
  split <;> simp

theorem mem_correlateI (k : Nat) (s : State) : (correlateI k s).mem = s.mem := by
  simp [correlateI]

theorem mem_correlateQ (k : Nat) (s : State) : (correlateQ k s).mem = s.mem := by
  simp [correlateQ]

theorem wf_demodulateAll {s : State} (h : s.mem.wf P) (hv : s.cfg.Valid P) : (demodulateAll s).mem.wf P := by
  have hn : s.cfg.nbits.toNat ≤ P.fsMax := hv.nbits_le.trans hv.fs_le
  unfold demodulateAll
  split
  · refine wf_loop h fun j x hj hx => writeRx_wf ?_ (Nat.lt_of_lt_of_le hj hn) _
    rw [forUpTo_keeps State.mem fun m u _ => mem_countHigh _ u]
    exact hx
  · refine wf_loop h fun j x hj hx => writeRx_wf ?_ (Nat.lt_of_lt_of_le hj hn) _
    rw [forUpTo_keeps State.mem fun m u _ => mem_correlateI _ u]
    exact hx
  · rename_i hs
    have h2 := (hv.qpsk hs).1
    refine wf_loop h fun j x hj hx => ?_
    have hj' : j < s.cfg.nsym.toNat := hj
    refine writeRx_wf (writeRx_wf ?_ (by omega) _) (by omega) _
    rw [forUpTo_keeps State.mem fun m u _ => (mem_correlateQ _ _).trans (mem_correlateI _ u)]
    exact hx

theorem wf_demodulate {s : State} (h : s.mem.wf P) (hv : s.cfg.Valid P) : (demodulateBody s).final.mem.wf P :=
  wf_requireElse h (wf_requireElse h (wf_requireElse h (wf_requireElse h (wf_demodulateAll h hv))))

theorem wf_score {s : State} (h : s.mem.wf P) : (scoreBody s).final.mem.wf P := by
  refine wf_requireElse h (wf_requireElse h ?_)
  refine forUpTo_induct (n := s.len.txlen.toNat) (body := compareBit) (a := (0, s))
    (fun _ a => a.2.mem.wf P) h fun k a _ ha => ?_
  simpa [compareBit] using ha

theorem wf_writeLogWords {i : Nat} {vs : List Word} {s : State} (h : s.mem.wf P)
    (hi : i + vs.length ≤ 8 * P.stepMax) : (writeLogWords i vs s).mem.wf P := by
  induction vs generalizing i s with
  | nil => exact h
  | cons v vs ih =>
    simp only [List.length_cons] at hi
    exact ih (writeLog_wf h (by omega) v) (by omega)

/-- The canonical form together with a valid configuration. -/
def Tidy (P : Config.Params) (s : State) : Prop := s.mem.wf P ∧ s.cfg.Valid P

theorem Tidy.fs_le {s : State} (h : Tidy P s) : cfgFs s ≤ P.fsMax := h.2.fs_le

theorem Tidy.nbits_le {s : State} (h : Tidy P s) : cfgNbits s ≤ P.fsMax :=
  h.2.nbits_le.trans h.2.fs_le

theorem tidy_of {s : State} {r : Completion} (h : Tidy P s) (hs : Steady s r.final) (hw : r.final.mem.wf P) :
    Tidy P r.final := ⟨hw, hs.cfg ▸ h.2⟩

theorem tidy_andThen {r : Completion} {f : State → Completion} (h : Tidy P r.final)
    (hf : ∀ t, Tidy P t → Tidy P (f t).final) : Tidy P (andThen r f).final := by
  cases r with
  | ended t => exact hf t h
  | raised c t => exact h

theorem tidy_sweepStep {n : Nat} {s : State} (h : Tidy P s) (hn : n < P.stepMax) :
    Tidy P (sweepStep n s).final := by
  have h0 : Tidy P (startStep n s) := h
  unfold sweepStep
  refine tidy_andThen (tidy_of h0 (steady_genBits _) (wf_genBits h0.1 h0.nbits_le)) fun s1 h1 => ?_
  refine tidy_andThen (tidy_of h1 (steady_modulate _) (wf_modulate h1.1 h1.fs_le)) fun s2 h2 => ?_
  refine tidy_andThen (tidy_of h2 (steady_addNoise _ _) (wf_addNoise h2.1 h2.fs_le)) fun s3 h3 => ?_
  refine tidy_andThen (tidy_of h3 (steady_demodulate _) (wf_demodulate h3.1 h3.2)) fun s4 h4 => ?_
  refine tidy_andThen (tidy_of h4 (steady_score _) (wf_score h4.1)) fun s5 h5 => ?_
  have h6 := steady_writeLogWords (8 * n) (sweepRecord n s5) s5
  have h7 : (writeLogWords (8 * n) (sweepRecord n s5) s5).mem.wf P :=
    wf_writeLogWords h5.1 (by simp only [sweepRecord, List.length_cons, List.length_nil]; omega)
  have h8 : (appendRecord n s5).cfg = s5.cfg := h6.cfg
  have h9 : (appendRecord n s5).cfg.Valid P := by
    rw [h8]
    exact h5.2
  exact ⟨h7, h9⟩

theorem tidy_sweepSteps {k : Nat} {s : State} (h : Tidy P s) (hk : k ≤ P.stepMax) :
    Tidy P (sweepSteps k s).final := by
  induction k with
  | zero => exact h
  | succ n ih => exact tidy_andThen (ih (by omega)) fun t ht => tidy_sweepStep ht (by omega)

theorem wf_runSweep {k : Nat} {s : State} (h : Tidy P s) : (runSweepBody P k s).final.mem.wf P := by
  refine wf_requireElse h.1 ?_
  unfold requireElse
  split
  · rename_i hk
    have h0 : Tidy P (startSweep s) := h
    refine (tidy_andThen (tidy_of h0 (steady_genCarriers _) (wf_genCarriers h0.1 h0.fs_le)) fun s1 h1 => ?_).1
    exact tidy_andThen (tidy_sweepSteps h1 hk) fun s2 h2 => h2
  · exact h.1

end Sys2Proof.Machine
end

