-- ==== Sys2Proof/Laws/Carrier.lean ====
section
/-! SUPPORT. The loop of GEN_CARRIERS: the phase accumulator (R143) and what it fills (R142). -/

namespace Sys2Proof.Machine

/-- `PH` at the top of iteration `k` is `(k * FC) mod FS` (R143). -/
theorem phase_step (c : ActiveConfig) (k : Nat) :
    (phaseAt c k + c.fc.toNat) % c.fs.toNat = phaseAt c (k + 1) := by
  simp [phaseAt, Nat.add_mul]

/-- The loop of GEN_CARRIERS after `n` iterations: only the carrier buffers have changed, and they hold
the references below `n`. -/
theorem carrier_loop (s : State) (n : Nat) : ∃ ci cq,
    forUpTo n (carrierSample (cfgFc s % cfgFs s)) (0, s) =
      (phaseAt s.cfg n, { s with mem := { s.mem with carrI := ci, carrQ := cq } }) ∧
    Buffer.Prefixed n (inPhaseReference s.cfg) s.mem.carrI ci ∧
    Buffer.Prefixed (if s.cfg.scheme = .qpsk then n else 0) (quadratureReference s.cfg) s.mem.carrQ cq := by
  induction n with
  | zero =>
    refine ⟨s.mem.carrI, s.mem.carrQ, ?_, Buffer.prefixed_zero _ _, ?_⟩
    · simp [phaseAt]
    · split <;> exact Buffer.prefixed_zero _ _
  | succ n ih =>
    obtain ⟨ci, cq, hl, hi, hq⟩ := ih
    rw [forUpTo_succ, hl]
    by_cases h : s.cfg.scheme = .qpsk
    · refine ⟨ci.write n (cosq (phaseAt s.cfg n) s.cfg.fs.toNat),
        cq.write n (sinq (phaseAt s.cfg n) s.cfg.fs.toNat), ?_, hi.write ?_, ?_⟩
      · simp [carrierSample, h, cfgFs, cfgFc, phase_step, writeCarrI, writeCarrQ]
      · simp [inPhaseReference, h]
      · rw [if_pos h] at hq ⊢
        exact hq.write rfl
    · refine ⟨ci.write n (sinq (phaseAt s.cfg n) s.cfg.fs.toNat), cq, ?_, hi.write ?_, ?_⟩
      · simp [carrierSample, h, cfgFs, cfgFc, phase_step, writeCarrI]
      · simp [inPhaseReference, h]
      · rw [if_neg h] at hq ⊢
        exact hq

/-- What GEN_CARRIERS does from a valid configuration: it runs to its end. -/
theorem genCarriersBody_spec (s : State) (h : s.ctl.cfgValid = true) : ∃ ci cq,
    genCarriersBody s = .ended { s with
      mem := { s.mem with carrI := ci, carrQ := cq }
      len := { s.len with cilen := s.cfg.fs, cqlen := if s.cfg.scheme = .qpsk then s.cfg.fs else 0 } } ∧
    Buffer.Prefixed s.cfg.fs.toNat (inPhaseReference s.cfg) s.mem.carrI ci ∧
    Buffer.Prefixed (if s.cfg.scheme = .qpsk then s.cfg.fs.toNat else 0) (quadratureReference s.cfg)
      s.mem.carrQ cq := by
  obtain ⟨ci, cq, hl, hi, hq⟩ := carrier_loop s (cfgFs s)
  refine ⟨ci, cq, ?_, hi, hq⟩
  simp only [genCarriersBody, requireConfigured, requireElse_of h, hl]

end Sys2Proof.Machine
end

