-- ==== Sys2Proof/Laws/Configure.lean ====
section
/-! SUPPORT. CONFIG: its checks, every way it can end, and that what it commits is valid (R121, R22). -/

namespace Sys2Proof.Machine

/-- CONFIG after its first check. -/
theorem configBody_of_scheme {P : Config.Params} {s : State} {sc : Scheme}
    (h : schemeOfCode s.stg.scheme = some sc) : configBody P s =
      (requireElse (1 ≤ s.stg.fs.toNat) .zeroFs s <|
      requireElse (s.stg.fs.toNat ≤ P.fsMax) .capacity s <|
      requireElse (1 ≤ s.stg.fc.toNat) .zeroFc s <|
      requireElse (1 ≤ s.stg.nbits.toNat) .zeroBits s <|
      requireElse (s.stg.fs.toNat % s.stg.nbits.toNat = 0) .nonintegralDiv s <|
      requireElse (sc = .qpsk → s.stg.nbits.toNat % 2 = 0) .oddBitsQpsk s <|
      .ended (commitConfig sc s)) := by
  simp only [configBody, h]

theorem schemeOfCode_code (c : BitVec 2) : (c = 3 ∧ schemeOfCode c = none) ∨ ∃ sc, schemeOfCode c = some sc ∧ c = schemeCode sc := by
  revert c; decide

/-- Every way CONFIG can end: one of its causes with the state untouched, or the commit with its seven
checks met. -/
theorem configBody_cases (P : Config.Params) (s : State) : (∃ c, configBody P s = .raised c s ∧ c ≠ .notConfigured) ∨
    ∃ sc, schemeOfCode s.stg.scheme = some sc ∧ configBody P s = .ended (commitConfig sc s) ∧
     1 ≤ s.stg.fs.toNat ∧ s.stg.fs.toNat ≤ P.fsMax ∧ 1 ≤ s.stg.fc.toNat ∧ 1 ≤ s.stg.nbits.toNat ∧ s.stg.fs.toNat % s.stg.nbits.toNat = 0 ∧ (sc = .qpsk → s.stg.nbits.toNat % 2 = 0) := by
  unfold configBody
  cases h : schemeOfCode s.stg.scheme with
  | none => exact .inl ⟨_, rfl, by simp⟩
  | some sc =>
    simp only
    by_cases h1 : 1 ≤ s.stg.fs.toNat
    swap; · rw [requireElse_of_not h1]; exact .inl ⟨_, rfl, by simp⟩
    rw [requireElse_of h1]
    by_cases h2 : s.stg.fs.toNat ≤ P.fsMax
    swap; · rw [requireElse_of_not h2]; exact .inl ⟨_, rfl, by simp⟩
    rw [requireElse_of h2]
    by_cases h3 : 1 ≤ s.stg.fc.toNat
    swap; · rw [requireElse_of_not h3]; exact .inl ⟨_, rfl, by simp⟩
    rw [requireElse_of h3]
    by_cases h4 : 1 ≤ s.stg.nbits.toNat
    swap; · rw [requireElse_of_not h4]; exact .inl ⟨_, rfl, by simp⟩
    rw [requireElse_of h4]
    by_cases h5 : s.stg.fs.toNat % s.stg.nbits.toNat = 0
    swap; · rw [requireElse_of_not h5]; exact .inl ⟨_, rfl, by simp⟩
    rw [requireElse_of h5]
    by_cases h6 : sc = .qpsk → s.stg.nbits.toNat % 2 = 0
    swap; · rw [requireElse_of_not h6]; exact .inl ⟨_, rfl, by simp⟩
    rw [requireElse_of h6]
    exact .inr ⟨sc, rfl, rfl, h1, h2, h3, h4, h5, h6⟩

/-- What CONFIG commits once its checks are met satisfies R22. -/
theorem committedConfig_valid {P : Config.Params} (hP : P.Valid) (g : Staging) (sc : Scheme) (h1 : 1 ≤ g.fs.toNat)
   (h2 : g.fs.toNat ≤ P.fsMax) (h3 : 1 ≤ g.fc.toNat)
   (h4 : 1 ≤ g.nbits.toNat) (h5 : g.fs.toNat % g.nbits.toNat = 0) (h6 : sc = .qpsk → g.nbits.toNat % 2 = 0) :
    (committedConfig g sc).Valid P := by
  have hfs := hP.2.1
  obtain ⟨L, hL⟩ := Nat.dvd_of_mod_eq_zero h5
  have hL1 : 1 ≤ L := by
    rcases Nat.eq_zero_or_pos L with e | e
    · rw [e] at hL; omega
    · exact e
  have hdiv : g.fs.toNat / g.nbits.toNat = L := by rw [hL]; exact Nat.mul_div_cancel_left _ (by omega)
  have hle : g.nbits.toNat ≤ g.fs.toNat := by rw [hL]; exact Nat.le_mul_of_pos_right _ hL1
  have hLle : L ≤ g.fs.toNat := by rw [hL]; exact Nat.le_mul_of_pos_left _ h4
  have o : ∀ n, n ≤ 65536 → (BitVec.ofNat 32 n).toNat = n := fun n hn => by
    rw [BitVec.toNat_ofNat, Nat.mod_eq_of_lt (by omega)]
  have hsym : symbolCount sc g.nbits.toNat ≤ g.nbits.toNat := by unfold symbolCount; split <;> omega
  have spb : (committedConfig g sc).spb.toNat = L := by
    show (BitVec.ofNat 32 (g.fs.toNat / g.nbits.toNat)).toNat = L
    rw [hdiv, o _ (by omega)]
  have nsym : (committedConfig g sc).nsym.toNat = symbolCount sc g.nbits.toNat := o _ (by omega)
  have hsps : g.fs.toNat / symbolCount sc g.nbits.toNat = if sc = .qpsk then 2 * L else L := by
    unfold symbolCount
    split
    · rename_i e
      have := h6 e
      rw [show g.fs.toNat = g.nbits.toNat / 2 * (2 * L) by rw [hL, ← Nat.mul_assoc]; congr 1; omega]
      exact Nat.mul_div_cancel_left _ (by omega)
    · exact hdiv
  have sps : (committedConfig g sc).sps.toNat = if sc = .qpsk then 2 * L else L := by
    show (BitVec.ofNat 32 (g.fs.toNat / symbolCount sc g.nbits.toNat)).toNat = _
    have : g.fs.toNat / symbolCount sc g.nbits.toNat ≤ g.fs.toNat := Nat.div_le_self _ _
    rw [o _ (by omega), hsps]
  refine ⟨hP, h4, hle, h2, h3, by rw [spb, Nat.mul_comm]; exact hL.symm, ?_, by omega, by rw [sps]; split <;> omega, ?_, ?_⟩
  · rw [sps, nsym]
    show _ = g.fs.toNat
    unfold symbolCount
    split
    · rename_i e
      have := h6 e
      rw [hL, Nat.mul_comm 2 L, Nat.mul_assoc, Nat.mul_comm g.nbits.toNat L]
      congr 1
      omega
    · rw [hL, Nat.mul_comm]
  · intro e
    have e' : sc = .qpsk := e
    have := h6 e'
    rw [nsym, sps, spb, if_pos e']
    refine ⟨?_, rfl⟩
    unfold symbolCount
    rw [if_pos e']
    show _ = g.nbits.toNat
    omega
  · intro e
    have e' : sc ≠ .qpsk := e
    refine ⟨?_, ?_⟩
    · apply BitVec.eq_of_toNat_eq
      rw [nsym]; unfold symbolCount; rw [if_neg e']; rfl
    · apply BitVec.eq_of_toNat_eq
      rw [sps, if_neg e', spb]

end Sys2Proof.Machine
end

