-- ==== Sys2Proof/Laws/Modulator.lean ====
section
/-! SUPPORT. One transmitted sample, and the loop of MODULATE (R176 to R180). -/

namespace Sys2Proof.Machine

theorem sext32_eq (c : Half) : sext32 c = BitVec.ofInt 32 c.toInt := by
  refine BitVec.eq_of_toInt_eq ?_
  have h1 := BitVec.toInt_lt (x := c)
  have h2 := BitVec.le_toInt (x := c)
  rw [sext32, BitVec.toInt_signExtend_of_le (by decide), BitVec.toInt_ofInt, Int.bmod_eq_of_le] <;> omega

/-- A keyed carrier sample is the sample or its negation, exactly (R177). -/
theorem keyedSample_eq (b : Bit) (c : Half) :
    keyedSample b c = BitVec.ofInt 32 (if b = 1 then -c.toInt else c.toInt) := by
  unfold keyedSample
  split <;> simp [sext32_eq, BitVec.ofInt_neg]

theorem bit_eq_zero_or_one (b : Bit) : b = 0 ∨ b = 1 := by
  revert b
  decide

/-- What sample `k` of the transmitted waveform may be: the rule of the active scheme on the bits and
carrier samples that have been written (R178, R179, R180). -/
def SampleFits (s : State) (k : Nat) (v : Word) : Prop :=
  (s.cfg.scheme = .ask → ∀ b, s.mem.txbits.read? (k / s.cfg.spb.toNat) = some b →
    (b = 0 → v = 0) ∧ (b = 1 → ∀ c, s.mem.carrI.read? k = some c → v = c.signExtend 32)) ∧
  (s.cfg.scheme = .bpsk → ∀ b c, s.mem.txbits.read? (k / s.cfg.spb.toNat) = some b →
    s.mem.carrI.read? k = some c → v = BitVec.ofInt 32 (if b = 1 then -c.toInt else c.toInt)) ∧
  (s.cfg.scheme = .qpsk → ∀ i q ci cq,
    s.mem.txbits.read? (2 * (k / s.cfg.sps.toNat)) = some i →
    s.mem.txbits.read? (2 * (k / s.cfg.sps.toNat) + 1) = some q →
    s.mem.carrI.read? k = some ci → s.mem.carrQ.read? k = some cq →
    v = BitVec.ofInt 32 ((if i = 1 then -ci.toInt else ci.toInt) + (if q = 1 then -cq.toInt else cq.toInt)))

/-- Everything sample `k` is made of has been written; ASK reads a carrier sample only for a bit 1. -/
def SampleSourcesWritten (s : State) (k : Nat) : Prop :=
  (s.cfg.scheme = .ask → ∃ b, s.mem.txbits.read? (k / s.cfg.spb.toNat) = some b ∧
    (b = 1 → ∃ c, s.mem.carrI.read? k = some c)) ∧
  (s.cfg.scheme = .bpsk → ∃ b c, s.mem.txbits.read? (k / s.cfg.spb.toNat) = some b ∧
    s.mem.carrI.read? k = some c) ∧
  (s.cfg.scheme = .qpsk → ∃ i q ci cq, s.mem.txbits.read? (2 * (k / s.cfg.sps.toNat)) = some i ∧
    s.mem.txbits.read? (2 * (k / s.cfg.sps.toNat) + 1) = some q ∧
    s.mem.carrI.read? k = some ci ∧ s.mem.carrQ.read? k = some cq)

/-- One sample: WAVE[k] gets a value that fits, and a draw is used up only for an unwritten source. -/
theorem modulateSample_spec (k : Nat) (s : State) : ∃ v d,
    modulateSample k s = { s with mem := { s.mem with wave := s.mem.wave.write k v }, draws := d } ∧
    SampleFits s k v ∧ (SampleSourcesWritten s k → d = s.draws) := by
  unfold modulateSample
  split
  · rename_i h
    obtain ⟨b, d1, hb, hb'⟩ := fetchElem_spec s.mem.txbits (k / cfgSpb s) s
    obtain ⟨c, d2, hc, hc'⟩ := fetchElem_spec s.mem.carrI k { s with draws := d1 }
    unfold modulateAsk readTx readCarrI
    simp only [hb]
    rcases bit_eq_zero_or_one b with h0 | h1
    · refine ⟨0, d1, by simp [h0, writeWave], ⟨fun _ x hx => ?_, by simp [h], by simp [h]⟩, fun hw => ?_⟩
      · obtain ⟨e, -⟩ := hb' x hx
        subst e
        exact ⟨fun _ => rfl, fun e1 => by simp [h0] at e1⟩
      · obtain ⟨x, hx, -⟩ := hw.1 h
        exact (hb' x hx).2
    · refine ⟨sext32 c, d2, by simp [h1, hc, writeWave], ⟨fun _ x hx => ?_, by simp [h], by simp [h]⟩,
        fun hw => ?_⟩
      · obtain ⟨e, -⟩ := hb' x hx
        subst e
        exact ⟨fun e0 => by simp [h1] at e0, fun _ y hy => by rw [(hc' y hy).1, sext32]⟩
      · obtain ⟨x, hx, hy⟩ := hw.1 h
        obtain ⟨y, hy⟩ := hy ((hb' x hx).1 ▸ h1)
        exact (hc' y hy).2.trans (hb' x hx).2
  · rename_i h
    obtain ⟨b, d1, hb, hb'⟩ := fetchElem_spec s.mem.txbits (k / cfgSpb s) s
    obtain ⟨c, d2, hc, hc'⟩ := fetchElem_spec s.mem.carrI k { s with draws := d1 }
    unfold modulateBpsk readTx readCarrI
    simp only [hb, hc]
    refine ⟨keyedSample b c, d2, rfl, ⟨by simp [h], fun _ x y hx hy => ?_, by simp [h]⟩, fun hw => ?_⟩
    · rw [keyedSample_eq, (hb' x hx).1, (hc' y hy).1]
    · obtain ⟨x, y, hx, hy⟩ := hw.2.1 h
      exact (hc' y hy).2.trans (hb' x hx).2
  · rename_i h
    obtain ⟨i, d1, hi, hi'⟩ := fetchElem_spec s.mem.txbits (2 * (k / cfgSps s)) s
    obtain ⟨q, d2, hq, hq'⟩ := fetchElem_spec s.mem.txbits (2 * (k / cfgSps s) + 1) { s with draws := d1 }
    obtain ⟨ci, d3, hci, hci'⟩ := fetchElem_spec s.mem.carrI k { s with draws := d2 }
    obtain ⟨cq, d4, hcq, hcq'⟩ := fetchElem_spec s.mem.carrQ k { s with draws := d3 }
    unfold modulateQpsk readTx readCarrI readCarrQ
    simp only [hi, hq, hci, hcq]
    refine ⟨keyedSample i ci + keyedSample q cq, d4, rfl,
      ⟨by simp [h], by simp [h], fun _ a b c e ha hb hc he => ?_⟩, fun hw => ?_⟩
    · rw [keyedSample_eq, keyedSample_eq, (hi' a ha).1, (hq' b hb).1, (hci' c hc).1, (hcq' e he).1,
        BitVec.ofInt_add]
    · obtain ⟨a, b, c, e, ha, hb, hc, he⟩ := hw.2.2 h
      exact ((hcq' e he).2.trans (hci' c hc).2).trans ((hq' b hb).2.trans (hi' a ha).2)

/-- The loop of MODULATE after `n` iterations: only WAVE below `n` has changed. -/
theorem modulate_loop (s : State) (n : Nat) : ∃ w d,
    forUpTo n modulateSample s = { s with mem := { s.mem with wave := w }, draws := d } ∧
    Buffer.Filling n (SampleFits s) s.mem.wave w ∧
    ((∀ k, k < n → SampleSourcesWritten s k) → d = s.draws) := by
  induction n with
  | zero => exact ⟨s.mem.wave, s.draws, rfl, Buffer.filling_zero _ _, fun _ => rfl⟩
  | succ n ih =>
    obtain ⟨w, d, hl, hw, hd⟩ := ih
    obtain ⟨v, d', hv, hf, hs⟩ := modulateSample_spec n { s with mem := { s.mem with wave := w }, draws := d }
    refine ⟨w.write n v, d', ?_, hw.write hf, fun h => ?_⟩
    · rw [forUpTo_succ, hl, hv]
    · exact (hs (h n (Nat.lt_succ_self n))).trans (hd fun k hk => h k (Nat.lt_succ_of_lt hk))

/-- What MODULATE does when its four checks are met: it runs to its end. -/
theorem modulateBody_spec (s : State) (h1 : s.ctl.cfgValid = true) (h2 : s.len.cilen = s.cfg.fs)
    (h3 : s.cfg.scheme = .qpsk → s.len.cqlen = s.cfg.fs) (h4 : s.len.txlen = s.cfg.nbits) : ∃ w d,
    modulateBody s = .ended { s with
      mem := { s.mem with wave := w }, len := { s.len with wlen := s.cfg.fs }, draws := d } ∧
    Buffer.Filling s.cfg.fs.toNat (SampleFits s) s.mem.wave w ∧
    ((∀ k, k < s.cfg.fs.toNat → SampleSourcesWritten s k) → d = s.draws) := by
  obtain ⟨w, d, hl, hw, hd⟩ := modulate_loop s (cfgFs s)
  refine ⟨w, d, ?_, hw, hd⟩
  simp only [modulateBody, requireConfigured, requireCarriers, requireElse_of h1, requireElse_of h2,
    requireElse_of h3, requireElse_of h4, hl]

/-! ## With every source written -/

/-- Sample `k` of the waveform of the bits `b` on the carriers `ci` and `cq` (R177 to R180). -/
def sentSample (c : ActiveConfig) (b : Nat → Bit) (ci cq : Nat → Half) (k : Nat) : Word :=
  match c.scheme with
  | .ask => if b (k / c.spb.toNat) = 1 then sext32 (ci k) else 0
  | .bpsk => keyedSample (b (k / c.spb.toNat)) (ci k)
  | .qpsk => keyedSample (b (2 * (k / c.sps.toNat))) (ci k) + keyedSample (b (2 * (k / c.sps.toNat) + 1)) (cq k)

/-- The transmitted bits, as a function. -/
def TxIs (s : State) (b : Nat → Bit) : Prop := ∀ j, j < s.cfg.nbits.toNat → s.mem.txbits.read? j = some (b j)
/-- The samples of CARR_I, as a function. -/
def CarrIIs (s : State) (c : Nat → Half) : Prop := ∀ k, k < s.cfg.fs.toNat → s.mem.carrI.read? k = some (c k)
/-- The samples of CARR_Q, as a function. -/
def CarrQIs (s : State) (c : Nat → Half) : Prop := ∀ k, k < s.cfg.fs.toNat → s.mem.carrQ.read? k = some (c k)

/-- The samples of the waveform, as a function. -/
def WaveIs (s : State) (x : Nat → Word) : Prop := ∀ k, k < s.cfg.fs.toNat → s.mem.wave.read? k = some (x k)

/-- The segment of a sample below `N * L` is one of the `N`. -/
theorem segment_lt {k N L : Nat} (hk : k < L * N) : k / L < N := Nat.div_lt_of_lt_mul hk

theorem sampleSources_of {s : State} (hv : s.cfg.Valid s.params) {b : Nat → Bit} {ci cq : Nat → Half}
    (hb : TxIs s b) (hi : CarrIIs s ci) (hq : s.cfg.scheme = .qpsk → CarrQIs s cq) {k : Nat}
    (hk : k < s.cfg.fs.toNat) : SampleSourcesWritten s k := by
  refine ⟨fun _ => ⟨_, hb _ (segment_lt (by rwa [hv.spb_mul])), fun _ => ⟨_, hi k hk⟩⟩,
    fun _ => ⟨_, _, hb _ (segment_lt (by rwa [hv.spb_mul])), hi k hk⟩, fun h => ?_⟩
  have h1 : k / s.cfg.sps.toNat < s.cfg.nsym.toNat := segment_lt (by rwa [hv.sps_mul])
  have h2 := (hv.qpsk h).1
  exact ⟨_, _, _, _, hb _ (by omega), hb _ (by omega), hi k hk, hq h k hk⟩

theorem SampleFits.eq_sentSample {s : State} (hv : s.cfg.Valid s.params) {b : Nat → Bit} {ci cq : Nat → Half}
    (hb : TxIs s b) (hi : CarrIIs s ci) (hq : s.cfg.scheme = .qpsk → CarrQIs s cq) {k : Nat} {v : Word}
    (hk : k < s.cfg.fs.toNat) (h : SampleFits s k v) : v = sentSample s.cfg b ci cq k := by
  obtain ⟨ha, hb', hq'⟩ := h
  have hj : k / s.cfg.spb.toNat < s.cfg.nbits.toNat := segment_lt (by rwa [hv.spb_mul])
  unfold sentSample
  split
  · rename_i e
    obtain ⟨h0, h1⟩ := ha e _ (hb _ hj)
    rcases bit_eq_zero_or_one (b (k / s.cfg.spb.toNat)) with hz | ho
    · rw [h0 hz, if_neg (by rw [hz]; decide)]
    · rw [h1 ho _ (hi k hk), if_pos ho, sext32]
  · rename_i e
    rw [hb' e _ _ (hb _ hj) (hi k hk), keyedSample_eq]
  · rename_i e
    have h1 : k / s.cfg.sps.toNat < s.cfg.nsym.toNat := segment_lt (by rwa [hv.sps_mul])
    have h2 := (hv.qpsk e).1
    rw [hq' e _ _ _ _ (hb _ (by omega)) (hb _ (by omega)) (hi k hk) (hq e k hk), keyedSample_eq,
      keyedSample_eq, BitVec.ofInt_add]

/-- MODULATE with every source written: the waveform is determined and no draw is used up. -/
theorem modulateBody_written (s : State) (b : Nat → Bit) (ci cq : Nat → Half) (h1 : s.ctl.cfgValid = true)
    (hv : s.cfg.Valid s.params) (h2 : s.len.cilen = s.cfg.fs) (h3 : s.cfg.scheme = .qpsk → s.len.cqlen = s.cfg.fs)
    (h4 : s.len.txlen = s.cfg.nbits) (hb : TxIs s b) (hi : CarrIIs s ci)
    (hq : s.cfg.scheme = .qpsk → CarrQIs s cq) : ∃ w,
    modulateBody s = .ended { s with
      mem := { s.mem with wave := w }, len := { s.len with wlen := s.cfg.fs } } ∧
    Buffer.Prefixed s.cfg.fs.toNat (sentSample s.cfg b ci cq) s.mem.wave w := by
  obtain ⟨w, d, he, hw, hd⟩ := modulateBody_spec s h1 h2 h3 h4
  obtain rfl := hd fun k hk => sampleSources_of hv hb hi hq hk
  exact ⟨w, he, hw.toPrefixed fun k v hk h => h.eq_sentSample hv hb hi hq hk⟩

end Sys2Proof.Machine
end

