-- ==== Sys2Proof/Laws/Demodulator.lean ====
section
/-! SUPPORT. One segment, one bit or symbol, and the loops of DEMODULATE (R221 to R226). -/

namespace Sys2Proof.Machine

/-! ## Exact accumulation (R226) -/

theorem sample_mul_bounds (x : Word) (c : Half) :
    -2 ^ 46 ≤ x.toInt * c.toInt ∧ x.toInt * c.toInt ≤ 2 ^ 46 := by
  have h1 := BitVec.toInt_lt (x := x)
  have h2 := BitVec.le_toInt (x := x)
  have h3 := BitVec.toInt_lt (x := c)
  have h4 := BitVec.le_toInt (x := c)
  norm_num at h1 h2 h3 h4
  have h : |x.toInt * c.toInt| ≤ 2 ^ 31 * 2 ^ 15 := by
    rw [abs_mul]
    exact mul_le_mul (abs_le.mpr ⟨by omega, by omega⟩) (abs_le.mpr ⟨by omega, by omega⟩)
      (abs_nonneg _) (by norm_num)
  have h' := abs_le.mp h
  norm_num at h' ⊢
  exact h'

/-- Adding a product to an accumulator is exact while the sum fits 64 bits. -/
theorem toInt_add_product64 (a : Acc) (x : Word) (c : Half) (ha : |a.toInt| ≤ 2 ^ 62) :
    (a + product64 x c).toInt = a.toInt + x.toInt * c.toInt := by
  obtain ⟨h1, h2⟩ := sample_mul_bounds x c
  obtain ⟨h3, h4⟩ := abs_le.mp ha
  norm_num at h1 h2 h3 h4
  have e : a + product64 x c = BitVec.ofInt 64 (a.toInt + x.toInt * c.toInt) := by
    rw [BitVec.ofInt_add, BitVec.ofInt_toInt, product64]
  rw [e, BitVec.toInt_ofInt, Int.bmod_eq_of_le] <;> omega

/-! ## Segments -/

/-- The samples of the segment at `B` above the threshold (R223). -/
def highCount (s : State) (x : Nat → Word) (B n : Nat) : Nat :=
  ((Finset.range n).filter (fun m => s.askThresh.toNat < (x (B + m)).toInt.natAbs)).card

/-- The sum of the products of the segment at `B` (R68). -/
def productSum (x : Nat → Word) (c : Nat → Half) (B n : Nat) : Int :=
  ∑ m ∈ Finset.range n, (x (B + m)).toInt * (c (B + m)).toInt

theorem highCount_le (s : State) (x : Nat → Word) (B n : Nat) : highCount s x B n ≤ n :=
  (Finset.card_filter_le _ _).trans (Finset.card_range n).le

theorem highCount_succ (s : State) (x : Nat → Word) (B n : Nat) : highCount s x B (n + 1) =
    highCount s x B n + if s.askThresh.toNat < (x (B + n)).toInt.natAbs then 1 else 0 := by
  unfold highCount
  rw [Finset.range_add_one, Finset.filter_insert]
  split
  · rw [Finset.card_insert_of_notMem (by simp)]
  · rfl

theorem productSum_succ (x : Nat → Word) (c : Nat → Half) (B n : Nat) :
    productSum x c B (n + 1) = productSum x c B n + (x (B + n)).toInt * (c (B + n)).toInt :=
  Finset.sum_range_succ _ _

/-- The accumulators, a count of draws, and otherwise `s`. -/
def withAcc (s : State) (a q : Acc) (d : Nat) : State :=
  { s with res := { s.res with accI := a, accQ := q }, draws := d }

theorem toNat_step (c : Prop) [Decidable c] {a : Acc} (h : (a + 1).toNat = a.toNat + 1) :
    BitVec.toNat (if c then a + 1 else a) = a.toNat + if c then 1 else 0 := by
  by_cases hc : c
  · rw [if_pos hc, if_pos hc, h]
  · rw [if_neg hc, if_neg hc, Nat.add_zero]

theorem countHigh_spec (k : Nat) (s : State) : ∃ y d,
    countHigh k s = withAcc s (if s.askThresh.toNat < absSample y then s.res.accI + 1 else s.res.accI)
      s.res.accQ d ∧
    ∀ x, s.mem.wave.read? k = some x → y = x ∧ d = s.draws := by
  obtain ⟨y, d, hy, hy'⟩ := fetchElem_spec s.mem.wave k s
  refine ⟨y, d, ?_, hy'⟩
  unfold countHigh readWave
  simp only [hy]
  split <;> rfl

/-- The counting loop of one ASK segment. -/
theorem count_loop (s : State) (B n : Nat) (hn : n < 2 ^ 64) : ∃ a d,
    forUpTo n (fun m => countHigh (B + m)) (setAcc 0 0 s) = withAcc s a 0 d ∧ a.toNat ≤ n ∧
    ∀ x : Nat → Word, (∀ m, m < n → s.mem.wave.read? (B + m) = some (x (B + m))) →
      d = s.draws ∧ a.toNat = highCount s x B n := by
  induction n with
  | zero => exact ⟨0, s.draws, rfl, by simp, fun x _ => ⟨rfl, by simp [highCount]⟩⟩
  | succ n ih =>
    obtain ⟨a, d, hl, ha, hx⟩ := ih (by omega)
    obtain ⟨y, d', hc, hy⟩ := countHigh_spec (B + n) (withAcc s a 0 d)
    have h1 : (a + 1).toNat = a.toNat + 1 := by
      rw [BitVec.toNat_add, Nat.mod_eq_of_lt]
      · rfl
      · simp
        omega
    refine ⟨_, d', by rw [forUpTo_succ, hl, hc]; rfl, ?_, fun x hw => ?_⟩
    · refine (toNat_step _ h1).trans_le ?_
      split <;> omega
    · obtain ⟨hd, hcount⟩ := hx x fun m hm => hw m (by omega)
      obtain ⟨e1, e2⟩ := hy _ (hw n (by omega))
      refine ⟨e2.trans hd, ?_⟩
      rw [highCount_succ, e1, ← hcount]
      exact toNat_step _ h1

theorem correlateI_spec (k : Nat) (s : State) : ∃ y z d,
    correlateI k s = withAcc s (s.res.accI + product64 y z) s.res.accQ d ∧
    ∀ x c, s.mem.wave.read? k = some x → s.mem.carrI.read? k = some c → y = x ∧ z = c ∧ d = s.draws := by
  obtain ⟨y, d, hy, hy'⟩ := fetchElem_spec s.mem.wave k s
  obtain ⟨z, d', hz, hz'⟩ := fetchElem_spec s.mem.carrI k { s with draws := d }
  refine ⟨y, z, d', ?_, fun x c hx hc => ⟨(hy' x hx).1, (hz' c hc).1, (hz' c hc).2.trans (hy' x hx).2⟩⟩
  unfold correlateI readWave readCarrI
  simp only [hy, hz]
  rfl

theorem correlateQ_spec (k : Nat) (s : State) : ∃ y z d,
    correlateQ k s = withAcc s s.res.accI (s.res.accQ + product64 y z) d ∧
    ∀ x c, s.mem.wave.read? k = some x → s.mem.carrQ.read? k = some c → y = x ∧ z = c ∧ d = s.draws := by
  obtain ⟨y, d, hy, hy'⟩ := fetchElem_spec s.mem.wave k s
  obtain ⟨z, d', hz, hz'⟩ := fetchElem_spec s.mem.carrQ k { s with draws := d }
  refine ⟨y, z, d', ?_, fun x c hx hc => ⟨(hy' x hx).1, (hz' c hc).1, (hz' c hc).2.trans (hy' x hx).2⟩⟩
  unfold correlateQ readWave readCarrQ
  simp only [hy, hz]
  rfl

/-- One more exact term of a correlation of at most 65536 samples. -/
theorem correlation_term {a : Acc} {n : Nat} (hn : n + 1 ≤ 65536) (ha : |a.toInt| ≤ n * 2 ^ 46)
    (x : Word) (c : Half) :
    (a + product64 x c).toInt = a.toInt + x.toInt * c.toInt ∧
    |(a + product64 x c).toInt| ≤ (n + 1 : Nat) * 2 ^ 46 := by
  obtain ⟨h1, h2⟩ := sample_mul_bounds x c
  obtain ⟨h3, h4⟩ := abs_le.mp ha
  have e := toInt_add_product64 a x c (abs_le.mpr ⟨by omega, by omega⟩)
  refine ⟨e, ?_⟩
  rw [e, abs_le]
  push_cast
  constructor <;> omega

/-- The correlation loop of one BPSK segment. -/
theorem correlateI_loop (s : State) (B n : Nat) (hn : n ≤ 65536) : ∃ a d,
    forUpTo n (fun m => correlateI (B + m)) (setAcc 0 0 s) = withAcc s a 0 d ∧
    |a.toInt| ≤ n * 2 ^ 46 ∧
    ∀ (x : Nat → Word) (c : Nat → Half), (∀ m, m < n → s.mem.wave.read? (B + m) = some (x (B + m)) ∧
        s.mem.carrI.read? (B + m) = some (c (B + m))) →
      d = s.draws ∧ a.toInt = productSum x c B n := by
  induction n with
  | zero => exact ⟨0, s.draws, rfl, by simp, fun x c _ => ⟨rfl, by simp [productSum]⟩⟩
  | succ n ih =>
    obtain ⟨a, d, hl, ha, hx⟩ := ih (by omega)
    obtain ⟨y, z, d', hc, hy⟩ := correlateI_spec (B + n) (withAcc s a 0 d)
    obtain ⟨e, hb⟩ := correlation_term hn ha y z
    refine ⟨a + product64 y z, d', by rw [forUpTo_succ, hl, hc]; rfl, hb, fun x c hw => ?_⟩
    obtain ⟨hd, hs⟩ := hx x c fun m hm => hw m (by omega)
    obtain ⟨e1, e2, e3⟩ := hy _ _ (hw n (by omega)).1 (hw n (by omega)).2
    exact ⟨e3.trans hd, by rw [e, productSum_succ, hs, e1, e2]⟩

/-- The correlation loop of one QPSK segment. -/
theorem correlateIQ_loop (s : State) (B n : Nat) (hn : n ≤ 65536) : ∃ a q d,
    forUpTo n (fun m u => correlateQ (B + m) (correlateI (B + m) u)) (setAcc 0 0 s) = withAcc s a q d ∧
    |a.toInt| ≤ n * 2 ^ 46 ∧ |q.toInt| ≤ n * 2 ^ 46 ∧
    ∀ (x : Nat → Word) (ci cq : Nat → Half),
      (∀ m, m < n → s.mem.wave.read? (B + m) = some (x (B + m)) ∧
        s.mem.carrI.read? (B + m) = some (ci (B + m)) ∧
        s.mem.carrQ.read? (B + m) = some (cq (B + m))) →
      d = s.draws ∧ a.toInt = productSum x ci B n ∧ q.toInt = productSum x cq B n := by
  induction n with
  | zero =>
    exact ⟨0, 0, s.draws, rfl, by simp, by simp, fun x ci cq _ =>
      ⟨rfl, by simp [productSum], by simp [productSum]⟩⟩
  | succ n ih =>
    obtain ⟨a, q, d, hl, ha, hq, hx⟩ := ih (by omega)
    obtain ⟨y, z, d1, hc, hy⟩ := correlateI_spec (B + n) (withAcc s a q d)
    obtain ⟨y', z', d2, hc', hy'⟩ := correlateQ_spec (B + n) (withAcc s (a + product64 y z) q d1)
    obtain ⟨e, hb⟩ := correlation_term hn ha y z
    obtain ⟨e', hb'⟩ := correlation_term hn hq y' z'
    refine ⟨a + product64 y z, q + product64 y' z', d2, ?_, hb, hb', fun x ci cq hw => ?_⟩
    · rw [forUpTo_succ, hl, hc]
      exact hc'
    · obtain ⟨hd, hs, hs'⟩ := hx x ci cq fun m hm => hw m (by omega)
      obtain ⟨w1, w2, w3⟩ := hw n (by omega)
      obtain ⟨e1, e2, e3⟩ := hy _ _ w1 w2
      obtain ⟨f1, f2, f3⟩ := hy' _ _ w1 w3
      exact ⟨f3.trans (e3.trans hd), by rw [e, productSum_succ, hs, e1, e2],
        by rw [e', productSum_succ, hs', f1, f2]⟩

/-! ## Loops over bits and symbols -/

/-- What DEMODULATE's loop may change: RXBITS, the result group (the accumulators of it) and the count
of draws. -/
def demodulated (s : State) (rx : Buffer 1) (r : Results) (d : Nat) : State :=
  { s with mem := { s.mem with rxbits := rx }, res := r, draws := d }

/-- A loop whose iteration `j` writes RXBITS[j] and the accumulators. -/
theorem bit_loop {s : State} {f : Nat → State → State} {Q : Nat → Bit → Acc → Acc → Prop} {W : Prop}
    {N : Nat}
    (pass : ∀ j rx r d, j < N → ∃ v a q d', f j (demodulated s rx r d) =
      demodulated s (rx.write j v) { r with accI := a, accQ := q } d' ∧ Q j v a q ∧ (W → d' = d))
    (n : Nat) (hn : n ≤ N) : ∃ rx r d,
      forUpTo n f s = demodulated s rx r d ∧
      Buffer.Filling n (fun j v => ∃ a q, Q j v a q) s.mem.rxbits rx ∧
      (n = 0 → r = s.res) ∧
      (0 < n → ∃ v a q, Q (n - 1) v a q ∧ r = { s.res with accI := a, accQ := q }) ∧
      (W → d = s.draws) := by
  induction n with
  | zero =>
    exact ⟨s.mem.rxbits, s.res, s.draws, rfl, Buffer.filling_zero _ _, fun _ => rfl,
      fun h => absurd h (Nat.lt_irrefl 0), fun _ => rfl⟩
  | succ n ih =>
    obtain ⟨rx, r, d, hl, hf, h0, h1, hd⟩ := ih (by omega)
    obtain ⟨v, a, q, d', hs, hQ, hd'⟩ := pass n rx r d (by omega)
    refine ⟨rx.write n v, _, d', by rw [forUpTo_succ, hl, hs], hf.write ⟨a, q, hQ⟩, by omega,
      fun _ => ⟨v, a, q, hQ, ?_⟩, fun w => (hd' w).trans (hd w)⟩
    rcases Nat.eq_zero_or_pos n with hz | hp
    · rw [h0 hz]
    · obtain ⟨-, a', q', -, e⟩ := h1 hp
      rw [e]

/-- A loop whose iteration `n` writes RXBITS[2n], RXBITS[2n+1] and the accumulators. -/
theorem symbol_loop {s : State} {f : Nat → State → State} {Q : Nat → Bit → Bit → Acc → Acc → Prop}
    {W : Prop} {N : Nat}
    (pass : ∀ j rx r d, j < N → ∃ v u a q d', f j (demodulated s rx r d) =
      demodulated s ((rx.write (2 * j) v).write (2 * j + 1) u) { r with accI := a, accQ := q } d' ∧
      Q j v u a q ∧ (W → d' = d))
    (n : Nat) (hn : n ≤ N) : ∃ rx r d,
      forUpTo n f s = demodulated s rx r d ∧
      (∀ j, j < n → ∃ v u a q, rx.read? (2 * j) = some v ∧ rx.read? (2 * j + 1) = some u ∧ Q j v u a q) ∧
      (∀ k, 2 * n ≤ k → rx.read? k = s.mem.rxbits.read? k) ∧
      (n = 0 → r = s.res) ∧
      (0 < n → ∃ v u a q, Q (n - 1) v u a q ∧ r = { s.res with accI := a, accQ := q }) ∧
      (W → d = s.draws) := by
  induction n with
  | zero =>
    exact ⟨s.mem.rxbits, s.res, s.draws, rfl, fun _ h => absurd h (Nat.not_lt_zero _), fun _ _ => rfl,
      fun _ => rfl, fun h => absurd h (Nat.lt_irrefl 0), fun _ => rfl⟩
  | succ n ih =>
    obtain ⟨rx, r, d, hl, hf, ho, h0, h1, hd⟩ := ih (by omega)
    obtain ⟨v, u, a, q, d', hs, hQ, hd'⟩ := pass n rx r d (by omega)
    refine ⟨_, _, d', by rw [forUpTo_succ, hl, hs], fun j hj => ?_, fun k hk => ?_, by omega,
      fun _ => ⟨v, u, a, q, hQ, ?_⟩, fun w => (hd' w).trans (hd w)⟩
    · by_cases e : j = n
      · subst e
        refine ⟨v, u, a, q, ?_, Buffer.read?_write_same _ _ _, hQ⟩
        rw [Buffer.read?_write_other _ _ (by omega), Buffer.read?_write_same]
      · obtain ⟨v', u', a', q', hv, hu, hq⟩ := hf j (by omega)
        refine ⟨v', u', a', q', ?_, ?_, hq⟩
        · rw [Buffer.read?_write_other _ _ (by omega), Buffer.read?_write_other _ _ (by omega), hv]
        · rw [Buffer.read?_write_other _ _ (by omega), Buffer.read?_write_other _ _ (by omega), hu]
    · rw [Buffer.read?_write_other _ _ (by omega), Buffer.read?_write_other _ _ (by omega)]
      exact ho k (by omega)
    · rcases Nat.eq_zero_or_pos n with hz | hp
      · rw [h0 hz]
      · obtain ⟨-, -, a', q', -, e⟩ := h1 hp
        rw [e]

/-! ## The three schemes -/

/-- Segment `j` of `N` segments of `L` samples lies below `N * L`. -/
theorem segment_index_lt {j N L m : Nat} (hj : j < N) (hm : m < L) : j * L + m < N * L :=
  calc j * L + m < j * L + L := by omega
    _ = (j + 1) * L := by ring
    _ ≤ N * L := Nat.mul_le_mul_right L hj
/-- What iteration `j` of ASK decides (R223). -/
def AskFits (s : State) (j : Nat) (v : Bit) (a q : Acc) : Prop :=
  q = 0 ∧ ∀ x, WaveIs s x →
    a.toNat = highCount s x (j * s.cfg.spb.toNat) s.cfg.spb.toNat ∧
    v = if s.cfg.spb.toNat < 2 * highCount s x (j * s.cfg.spb.toNat) s.cfg.spb.toNat then 1 else 0

theorem demodulateAsk_pass (s : State) (hv : s.cfg.Valid s.params) (j : Nat) (rx : Buffer 1) (r : Results)
    (d : Nat) (hj : j < s.cfg.nbits.toNat) : ∃ v a q d', demodulateAsk j (demodulated s rx r d) =
      demodulated s (rx.write j v) { r with accI := a, accQ := q } d' ∧ AskFits s j v a q ∧
      ((∃ x, WaveIs s x) → d' = d) := by
  obtain ⟨a, d', hl, -, hx⟩ := count_loop (demodulated s rx r d) (j * s.cfg.spb.toNat) s.cfg.spb.toNat
    (by omega)
  have hw : ∀ x, WaveIs s x → ∀ m, m < s.cfg.spb.toNat →
      s.mem.wave.read? (j * s.cfg.spb.toNat + m) = some (x (j * s.cfg.spb.toNat + m)) := fun x h m hm =>
    h _ (by have := segment_index_lt hj hm; rw [Nat.mul_comm s.cfg.nbits.toNat, hv.spb_mul] at this; exact this)
  refine ⟨if s.cfg.spb.toNat < 2 * a.toNat then 1 else 0, a, 0, d', ?_, ⟨rfl, fun x h => ?_⟩, fun ⟨x, h⟩ => ?_⟩
  · unfold demodulateAsk
    simp only [show cfgSpb (demodulated s rx r d) = s.cfg.spb.toNat from rfl, hl]
    rfl
  · obtain ⟨-, e⟩ := hx x (hw x h)
    exact ⟨e, by rw [e]; rfl⟩
  · exact (hx x (hw x h)).1

/-- The bit of a correlation (R224). -/
def correlationBit (v : Int) : Bit := if 0 < v then 0 else 1

/-- What iteration `j` of BPSK decides (R224). -/
def BpskFits (s : State) (j : Nat) (v : Bit) (a q : Acc) : Prop :=
  q = 0 ∧ ∀ x c, WaveIs s x → CarrIIs s c →
    a.toInt = segmentCorrelation x c s.cfg.sps.toNat j ∧
    v = correlationBit (segmentCorrelation x c s.cfg.sps.toNat j)

theorem ActiveConfig.Valid.sps_le {P : Config.Params} {c : ActiveConfig} (h : c.Valid P) : c.sps.toNat ≤ 65536 := by
  have h1 := h.sps_mul
  have h2 := h.fs_le
  have h3 : 1 ≤ c.nsym.toNat := by
    rcases Nat.eq_zero_or_pos c.nsym.toNat with e | e
    · rw [e] at h1
      have := h.nbits_le
      have := h.nbits_pos
      omega
    · exact e
  have h4 : c.sps.toNat * 1 ≤ c.sps.toNat * c.nsym.toNat := Nat.mul_le_mul_left _ h3
  have h5 := h.params.2.1
  omega

theorem ActiveConfig.Valid.nsym_pos {P : Config.Params} {c : ActiveConfig} (h : c.Valid P) : 1 ≤ c.nsym.toNat := by
  have h1 := h.sps_mul
  rcases Nat.eq_zero_or_pos c.nsym.toNat with e | e
  · rw [e] at h1
    have := h.nbits_le
    have := h.nbits_pos
    omega
  · exact e

theorem demodulateBpsk_pass (s : State) (hv : s.cfg.Valid s.params) (j : Nat) (rx : Buffer 1) (r : Results)
    (d : Nat) (hj : j < s.cfg.nsym.toNat) : ∃ v a q d', demodulateBpsk j (demodulated s rx r d) =
      demodulated s (rx.write j v) { r with accI := a, accQ := q } d' ∧ BpskFits s j v a q ∧
      ((∃ x c, WaveIs s x ∧ CarrIIs s c) → d' = d) := by
  obtain ⟨a, d', hl, -, hx⟩ := correlateI_loop (demodulated s rx r d) (j * s.cfg.sps.toNat)
    s.cfg.sps.toNat hv.sps_le
  have hi : ∀ m, m < s.cfg.sps.toNat → j * s.cfg.sps.toNat + m < s.cfg.fs.toNat := fun m hm => by
    have := segment_index_lt hj hm
    rw [Nat.mul_comm s.cfg.nsym.toNat, hv.sps_mul] at this
    exact this
  refine ⟨signBit a, a, 0, d', ?_, ⟨rfl, fun x c h1 h2 => ?_⟩, fun ⟨x, c, h1, h2⟩ => ?_⟩
  · unfold demodulateBpsk
    simp only [show cfgSps (demodulated s rx r d) = s.cfg.sps.toNat from rfl, hl]
    rfl
  · obtain ⟨-, e⟩ := hx x c fun m hm => ⟨h1 _ (hi m hm), h2 _ (hi m hm)⟩
    have e' : a.toInt = segmentCorrelation x c s.cfg.sps.toNat j := e
    exact ⟨e', by rw [signBit, e', correlationBit]⟩
  · exact (hx x c fun m hm => ⟨h1 _ (hi m hm), h2 _ (hi m hm)⟩).1

/-- What iteration `n` of QPSK decides (R225). -/
def QpskFits (s : State) (n : Nat) (v u : Bit) (a q : Acc) : Prop :=
  ∀ x ci cq, WaveIs s x → CarrIIs s ci → CarrQIs s cq →
    a.toInt = segmentCorrelation x ci s.cfg.sps.toNat n ∧
    q.toInt = segmentCorrelation x cq s.cfg.sps.toNat n ∧
    v = correlationBit (segmentCorrelation x ci s.cfg.sps.toNat n) ∧
    u = correlationBit (segmentCorrelation x cq s.cfg.sps.toNat n)

theorem demodulateQpsk_pass (s : State) (hv : s.cfg.Valid s.params) (n : Nat) (rx : Buffer 1) (r : Results)
    (d : Nat) (hn : n < s.cfg.nsym.toNat) : ∃ v u a q d', demodulateQpsk n (demodulated s rx r d) =
      demodulated s ((rx.write (2 * n) v).write (2 * n + 1) u) { r with accI := a, accQ := q } d' ∧
      QpskFits s n v u a q ∧
      ((∃ x ci cq, WaveIs s x ∧ CarrIIs s ci ∧ CarrQIs s cq) → d' = d) := by
  obtain ⟨a, q, d', hl, -, -, hx⟩ := correlateIQ_loop (demodulated s rx r d) (n * s.cfg.sps.toNat)
    s.cfg.sps.toNat hv.sps_le
  have hi : ∀ m, m < s.cfg.sps.toNat → n * s.cfg.sps.toNat + m < s.cfg.fs.toNat := fun m hm => by
    have := segment_index_lt hn hm
    rw [Nat.mul_comm s.cfg.nsym.toNat, hv.sps_mul] at this
    exact this
  refine ⟨signBit a, signBit q, a, q, d', ?_, fun x ci cq h1 h2 h3 => ?_, fun ⟨x, ci, cq, h1, h2, h3⟩ => ?_⟩
  · unfold demodulateQpsk
    simp only [show cfgSps (demodulated s rx r d) = s.cfg.sps.toNat from rfl, hl]
    rfl
  · obtain ⟨-, e, f⟩ := hx x ci cq fun m hm => ⟨h1 _ (hi m hm), h2 _ (hi m hm), h3 _ (hi m hm)⟩
    have e' : a.toInt = segmentCorrelation x ci s.cfg.sps.toNat n := e
    have f' : q.toInt = segmentCorrelation x cq s.cfg.sps.toNat n := f
    exact ⟨e', f', by rw [signBit, e', correlationBit], by rw [signBit, f', correlationBit]⟩
  · exact (hx x ci cq fun m hm => ⟨h1 _ (hi m hm), h2 _ (hi m hm), h3 _ (hi m hm)⟩).1

/-- What DEMODULATE does when its checks are met: it runs to its end. -/
theorem demodulateBody_of_checks (s : State) (h1 : s.ctl.cfgValid = true) (h2 : s.len.cilen = s.cfg.fs)
    (h3 : s.cfg.scheme = .qpsk → s.len.cqlen = s.cfg.fs) (h4 : s.len.wlen = s.cfg.fs) :
    demodulateBody s =
      .ended { demodulateAll s with
        len := { (demodulateAll s).len with rxlen := (demodulateAll s).cfg.nbits } } := by
  simp only [demodulateBody, requireConfigured, requireCarriers, requireElse_of h1, requireElse_of h2,
    requireElse_of h3, requireElse_of h4]

theorem demodulateAll_ask (s : State) (hv : s.cfg.Valid s.params) (hs : s.cfg.scheme = .ask) : ∃ rx a d,
    demodulateAll s = demodulated s rx { s.res with accI := a, accQ := 0 } d ∧
    Buffer.Filling s.cfg.nbits.toNat (fun j v => ∃ a q, AskFits s j v a q) s.mem.rxbits rx ∧
    (∃ v, AskFits s (s.cfg.nbits.toNat - 1) v a 0) ∧ ((∃ x, WaveIs s x) → d = s.draws) := by
  obtain ⟨rx, r, d, hl, hf, -, hr, hd⟩ := bit_loop (demodulateAsk_pass s hv) s.cfg.nbits.toNat (Nat.le_refl _)
  obtain ⟨v, a, q, hQ, e⟩ := hr hv.nbits_pos
  obtain rfl : q = 0 := hQ.1
  refine ⟨rx, a, d, ?_, hf, ⟨v, hQ⟩, hd⟩
  rw [← e, ← hl]
  simp only [demodulateAll, hs, cfgNbits]

theorem demodulateAll_bpsk (s : State) (hv : s.cfg.Valid s.params) (hs : s.cfg.scheme = .bpsk) : ∃ rx a d,
    demodulateAll s = demodulated s rx { s.res with accI := a, accQ := 0 } d ∧
    Buffer.Filling s.cfg.nbits.toNat (fun j v => ∃ a q, BpskFits s j v a q) s.mem.rxbits rx ∧
    (∃ v, BpskFits s (s.cfg.nbits.toNat - 1) v a 0) ∧
    ((∃ x c, WaveIs s x ∧ CarrIIs s c) → d = s.draws) := by
  have hn : s.cfg.nsym = s.cfg.nbits := (hv.single (by simp [hs])).1
  obtain ⟨rx, r, d, hl, hf, -, hr, hd⟩ := bit_loop (demodulateBpsk_pass s hv) s.cfg.nbits.toNat
    (by rw [hn])
  obtain ⟨v, a, q, hQ, e⟩ := hr hv.nbits_pos
  obtain rfl : q = 0 := hQ.1
  refine ⟨rx, a, d, ?_, hf, ⟨v, hQ⟩, hd⟩
  rw [← e, ← hl]
  simp only [demodulateAll, hs, cfgNbits]

theorem demodulateAll_qpsk (s : State) (hv : s.cfg.Valid s.params) (hs : s.cfg.scheme = .qpsk) : ∃ rx a q d,
    demodulateAll s = demodulated s rx { s.res with accI := a, accQ := q } d ∧
    (∀ n, n < s.cfg.nsym.toNat → ∃ v u a q, rx.read? (2 * n) = some v ∧
      rx.read? (2 * n + 1) = some u ∧ QpskFits s n v u a q) ∧
    (∀ k, s.cfg.nbits.toNat ≤ k → rx.read? k = s.mem.rxbits.read? k) ∧
    (∃ v u, QpskFits s (s.cfg.nsym.toNat - 1) v u a q) ∧
    ((∃ x ci cq, WaveIs s x ∧ CarrIIs s ci ∧ CarrQIs s cq) → d = s.draws) := by
  obtain ⟨rx, r, d, hl, hf, ho, -, hr, hd⟩ := symbol_loop (demodulateQpsk_pass s hv) s.cfg.nsym.toNat
    (Nat.le_refl _)
  obtain ⟨v, u, a, q, hQ, e⟩ := hr hv.nsym_pos
  refine ⟨rx, a, q, d, ?_, hf, ?_, ⟨v, u, hQ⟩, hd⟩
  · rw [← e, ← hl]
    simp only [demodulateAll, hs, cfgNsym]
  · rw [← (hv.qpsk hs).1]
    exact ho

/-! ## With every source written -/

/-- Bit `j` recovered from the waveform `x` (R223 to R225). -/
def recoveredBit (s : State) (x : Nat → Word) (ci cq : Nat → Half) (j : Nat) : Bit :=
  match s.cfg.scheme with
  | .ask => if s.cfg.spb.toNat < 2 * highCount s x (j * s.cfg.spb.toNat) s.cfg.spb.toNat then 1 else 0
  | .bpsk => correlationBit (segmentCorrelation x ci s.cfg.sps.toNat j)
  | .qpsk => correlationBit (segmentCorrelation x (if j % 2 = 0 then ci else cq) s.cfg.sps.toNat (j / 2))

/-- ACC_I and ACC_Q at the end of DEMODULATE (R229). -/
def finalAccs (s : State) (x : Nat → Word) (ci cq : Nat → Half) : Acc × Acc :=
  match s.cfg.scheme with
  | .ask => (BitVec.ofNat 64
      (highCount s x ((s.cfg.nbits.toNat - 1) * s.cfg.spb.toNat) s.cfg.spb.toNat), 0)
  | .bpsk => (BitVec.ofInt 64 (segmentCorrelation x ci s.cfg.sps.toNat (s.cfg.nbits.toNat - 1)), 0)
  | .qpsk => (BitVec.ofInt 64 (segmentCorrelation x ci s.cfg.sps.toNat (s.cfg.nsym.toNat - 1)),
      BitVec.ofInt 64 (segmentCorrelation x cq s.cfg.sps.toNat (s.cfg.nsym.toNat - 1)))

theorem acc_eq_ofInt {a : Acc} {v : Int} (h : a.toInt = v) : a = BitVec.ofInt 64 v := by
  rw [← h, BitVec.ofInt_toInt]

/-- DEMODULATE with every source written: the bits and the accumulators are determined and no draw is
used up. -/
theorem demodulateBody_written (s : State) (x : Nat → Word) (ci cq : Nat → Half)
    (h1 : s.ctl.cfgValid = true) (hv : s.cfg.Valid s.params) (h2 : s.len.cilen = s.cfg.fs)
    (h3 : s.cfg.scheme = .qpsk → s.len.cqlen = s.cfg.fs) (h4 : s.len.wlen = s.cfg.fs)
    (hx : WaveIs s x) (hi : CarrIIs s ci) (hq : s.cfg.scheme = .qpsk → CarrQIs s cq) : ∃ rx,
    demodulateBody s = .ended { s with
      mem := { s.mem with rxbits := rx }
      len := { s.len with rxlen := s.cfg.nbits }
      res := { s.res with accI := (finalAccs s x ci cq).1, accQ := (finalAccs s x ci cq).2 } } ∧
    Buffer.Prefixed s.cfg.nbits.toNat (recoveredBit s x ci cq) s.mem.rxbits rx := by
  rw [demodulateBody_of_checks s h1 h2 h3 h4]
  cases hs : s.cfg.scheme with
  | ask =>
    obtain ⟨rx, a, d, hl, hf, ⟨v, hQ⟩, hd⟩ := demodulateAll_ask s hv hs
    obtain rfl := hd ⟨x, hx⟩
    refine ⟨rx, ?_, hf.toPrefixed fun j u _ ⟨b, q, hQ'⟩ => ?_⟩
    · have ha : a = (finalAccs s x ci cq).1 := by
        simp only [finalAccs, hs]
        rw [← (hQ.2 x hx).1, BitVec.ofNat_toNat, BitVec.setWidth_eq]
      have hq0 : (finalAccs s x ci cq).2 = 0 := by simp only [finalAccs, hs]
      rw [hl, ha, hq0]
      rfl
    · simp only [recoveredBit, hs]
      exact (hQ'.2 x hx).2
  | bpsk =>
    obtain ⟨rx, a, d, hl, hf, ⟨v, hQ⟩, hd⟩ := demodulateAll_bpsk s hv hs
    obtain rfl := hd ⟨x, ci, hx, hi⟩
    refine ⟨rx, ?_, hf.toPrefixed fun j u _ ⟨b, q, hQ'⟩ => ?_⟩
    · have ha : a = (finalAccs s x ci cq).1 := by
        simp only [finalAccs, hs]
        exact acc_eq_ofInt (hQ.2 x ci hx hi).1
      have hq0 : (finalAccs s x ci cq).2 = 0 := by simp only [finalAccs, hs]
      rw [hl, ha, hq0]
      rfl
    · simp only [recoveredBit, hs]
      exact (hQ'.2 x ci hx hi).2
  | qpsk =>
    obtain ⟨rx, a, q, d, hl, hf, ho, ⟨v, u, hQ⟩, hd⟩ := demodulateAll_qpsk s hv hs
    obtain rfl := hd ⟨x, ci, cq, hx, hi, hq hs⟩
    obtain ⟨e1, e2, -, -⟩ := hQ x ci cq hx hi (hq hs)
    refine ⟨rx, ?_, fun j => ?_⟩
    · have ha : a = (finalAccs s x ci cq).1 := by
        simp only [finalAccs, hs]
        exact acc_eq_ofInt e1
      have hb : q = (finalAccs s x ci cq).2 := by
        simp only [finalAccs, hs]
        exact acc_eq_ofInt e2
      rw [hl, ha, hb]
      rfl
    · split
      · rename_i hj
        have hn := (hv.qpsk hs).1
        obtain ⟨v', u', a', q', hr, hr', hQ'⟩ := hf (j / 2) (by omega)
        obtain ⟨-, -, f1, f2⟩ := hQ' x ci cq hx hi (hq hs)
        simp only [recoveredBit, hs]
        rcases Nat.mod_two_eq_zero_or_one j with e | e
        · rw [if_pos e, ← f1, ← hr, show 2 * (j / 2) = j by omega]
        · rw [if_neg (by omega), ← f2, ← hr', show 2 * (j / 2) + 1 = j by omega]
      · rename_i hj
        exact ho j (by omega)

end Sys2Proof.Machine
end

