-- ==== Sys2Proof/Laws/Encoding.lean ====
section
/-! SUPPORT. The fields of a word put together from fields, and a word as its fields (R91, R92). -/

namespace Sys2Proof

theorem fieldOpc_append (imm : BitVec 16) (r : BitVec 7) (m : BitVec 1) (o : BitVec 8) :
    fieldOpc (imm ++ r ++ m ++ o) = o := by
  show BitVec.extractLsb' 0 8 (imm ++ r ++ m ++ o : BitVec (16 + 7 + 1 + 8)) = o
  refine BitVec.eq_of_getLsbD_eq fun i hi => ?_
  rw [BitVec.getLsbD_extractLsb', BitVec.getLsbD_append]
  simp [hi]

theorem fieldM_append (imm : BitVec 16) (r : BitVec 7) (m : BitVec 1) (o : BitVec 8) :
    fieldM (imm ++ r ++ m ++ o) = m := by
  show BitVec.extractLsb' 8 1 (imm ++ r ++ m ++ o : BitVec (16 + 7 + 1 + 8)) = m
  refine BitVec.eq_of_getLsbD_eq fun i hi => ?_
  rw [BitVec.getLsbD_extractLsb', BitVec.getLsbD_append, BitVec.getLsbD_append]
  simp [hi]

theorem fieldRsv_append (imm : BitVec 16) (r : BitVec 7) (m : BitVec 1) (o : BitVec 8) :
    fieldRsv (imm ++ r ++ m ++ o) = r := by
  show BitVec.extractLsb' 9 7 (imm ++ r ++ m ++ o : BitVec (16 + 7 + 1 + 8)) = r
  refine BitVec.eq_of_getLsbD_eq fun i hi => ?_
  rw [BitVec.getLsbD_extractLsb', BitVec.getLsbD_append, BitVec.getLsbD_append, BitVec.getLsbD_append,
    if_neg (by omega), if_neg (by omega), if_pos (by omega), show 9 + i - 8 - 1 = i by omega]
  simp [hi]

theorem fieldImm_append (imm : BitVec 16) (r : BitVec 7) (m : BitVec 1) (o : BitVec 8) :
    fieldImm (imm ++ r ++ m ++ o) = imm := by
  show BitVec.extractLsb' 16 16 (imm ++ r ++ m ++ o : BitVec (16 + 7 + 1 + 8)) = imm
  refine BitVec.eq_of_getLsbD_eq fun i hi => ?_
  rw [BitVec.getLsbD_extractLsb', BitVec.getLsbD_append, BitVec.getLsbD_append, BitVec.getLsbD_append,
    if_neg (by omega), if_neg (by omega), if_neg (by omega), show 16 + i - 8 - 1 - 7 = i by omega]
  simp [hi]

/-- A word is its four fields, none of its bits left out. -/
theorem word_eq_fields (w : Word) : fieldImm w ++ fieldRsv w ++ fieldM w ++ fieldOpc w = w := by
  show (fieldImm w ++ fieldRsv w ++ fieldM w ++ fieldOpc w : BitVec (16 + 7 + 1 + 8)) = w
  refine BitVec.eq_of_getLsbD_eq fun i hi => ?_
  rw [BitVec.getLsbD_append, BitVec.getLsbD_append, BitVec.getLsbD_append]
  unfold fieldOpc fieldM fieldRsv fieldImm
  simp only [BitVec.getLsbD_extractLsb']
  split
  · rename_i h
    rw [decide_eq_true h, show 0 + i = i by omega]
    simp
  · split
    · rename_i h
      rw [decide_eq_true h, show 8 + (i - 8) = i by omega]
      simp
    · split
      · rename_i h
        rw [decide_eq_true h, show 9 + (i - 8 - 1) = i by omega]
        simp
      · rw [decide_eq_true (by omega : i - 8 - 1 - 7 < 16), show 16 + (i - 8 - 1 - 7) = i by omega]
        simp

@[simp] theorem fieldOpc_encode (i : Instr) : fieldOpc (encode i) = opcodeOf i := fieldOpc_append _ _ _ _
@[simp] theorem fieldM_encode (i : Instr) : fieldM (encode i) = modeOf i := fieldM_append _ _ _ _
@[simp] theorem fieldRsv_encode (i : Instr) : fieldRsv (encode i) = 0 := fieldRsv_append _ _ _ _
@[simp] theorem fieldImm_encode (i : Instr) : fieldImm (encode i) = immOf i := fieldImm_append _ _ _ _

theorem fieldOpc_toNat (w : Word) : (fieldOpc w).toNat = w.toNat % 256 := by
  simp [fieldOpc, BitVec.extractLsb'_toNat]

theorem fieldM_toNat (w : Word) : (fieldM w).toNat = w.toNat / 256 % 2 := by
  simp [fieldM, BitVec.extractLsb'_toNat, Nat.shiftRight_eq_div_pow]

theorem fieldRsv_toNat (w : Word) : (fieldRsv w).toNat = w.toNat / 512 % 128 := by
  simp [fieldRsv, BitVec.extractLsb'_toNat, Nat.shiftRight_eq_div_pow]

theorem fieldImm_toNat (w : Word) : (fieldImm w).toNat = w.toNat / 65536 := by
  have := w.isLt
  simp [fieldImm, BitVec.extractLsb'_toNat, Nat.shiftRight_eq_div_pow]
  omega

end Sys2Proof
end

