-- ==== Sys2Proof/Laws/HostPort.lean ====
section
/-! SUPPORT. The host's map and its transactions: where each address leads, what a step does with the
next item of the script, and every way a CMD write can end. -/

namespace Sys2Proof.Machine

/-! ## The map (R60) -/

@[simp] theorem placeOf_regAddr (P : Config.Params) (r : Reg) : placeOf P (regAddr r) = .reg r := by
  cases r <;> rfl

/-- Window `w` of the map, index `k`. -/
theorem placeOf_window (P : Config.Params) (w k : Nat) : w < 8 → k < 65536 →
    placeOf P (BitVec.ofNat 19 (w * 65536 + k)) =
      match w with
      | 0 => match regAt k with
        | some r => .reg r
        | none => .unmapped
      | 1 => within P.fsMax .carrI k
      | 2 => within P.fsMax .carrQ k
      | 3 => within P.fsMax .wave k
      | 4 => within P.fsMax .txbits k
      | 5 => within P.fsMax .rxbits k
      | 6 => within (8 * P.stepMax) .log k
      | _ => within P.stepMax .sigmaRom k := by
  intro hw hk
  have h : (BitVec.ofNat 19 (w * 65536 + k)).toNat = w * 65536 + k := by
    rw [BitVec.toNat_ofNat, Nat.mod_eq_of_lt (by omega)]
  unfold placeOf
  rw [h, show (w * 65536 + k) / 65536 = w by omega, show (w * 65536 + k) % 65536 = k by omega]
  all_goals
    clear h
    interval_cases w <;> rfl

theorem within_of_lt {depth k : Nat} (mk : Nat → Place) (h : k < depth) : within depth mk k = mk k := if_pos h

theorem within_of_le {depth k : Nat} (mk : Nat → Place) (h : depth ≤ k) : within depth mk k = .unmapped :=
  if_neg (Nat.not_lt.mpr h)

/-- An address is its window and index. -/
theorem addr_eq_window (a : Addr) : a.toNat / 65536 < 8 ∧
    a = BitVec.ofNat 19 (a.toNat / 65536 * 65536 + a.toNat % 65536) := by
  have := a.isLt
  refine ⟨by omega, ?_⟩
  rw [show a.toNat / 65536 * 65536 + a.toNat % 65536 = a.toNat by omega, BitVec.ofNat_toNat,
    BitVec.setWidth_eq]

/-- The register map is one to one. -/
theorem regAt_eq_some {k : Nat} {r : Reg} (h : regAt k = some r) : k = (regAddr r).toNat := by
  by_cases hk : k < 0x27
  · have all : ∀ n, n < 0x27 → (regAt n).all (fun r => n == (regAddr r).toNat) = true := by decide
    have := all k hk
    rw [h] at this
    exact beq_iff_eq.mp this
  · unfold regAt at h
    split at h <;> first | omega | exact nomatch h

/-- Only address `regAddr r` leads to register `r`. -/
theorem placeOf_eq_reg {P : Config.Params} {a : Addr} {r : Reg} (h : placeOf P a = .reg r) : a = regAddr r := by
  have ha := a.isLt
  unfold placeOf at h
  simp only [within] at h
  split at h
  · rename_i h0
    split at h
    · rename_i r' hr
      cases h
      apply BitVec.eq_of_toNat_eq
      rw [← regAt_eq_some hr]
      omega
    · simp at h
  all_goals split at h <;> simp at h

/-! ## Steps -/

/-- A step with an item next hands it over with the item taken off the script. -/
theorem step_facing (x : Input) (rest : List Input) (s : State) :
    step (facing x rest s) = handleInput x { s with host := { s.host with script := rest } } := rfl

theorem step_of_script {s : State} {x : Input} {rest : List Input} (h : s.host.script = x :: rest) :
    step s = handleInput x { s with host := { s.host with script := rest } } := by
  simp [step, nextInput, h]

theorem step_of_empty {s : State} (h : s.host.script = []) : step s = .next s := by
  simp [step, nextInput, h]

/-- Every step is a handled item, or nothing at the end of the script. -/
theorem step_cases (s : State) : (s.host.script = [] ∧ step s = .next s) ∨
    ∃ x rest, s.host.script = x :: rest ∧
      step s = handleInput x { s with host := { s.host with script := rest } } := by
  cases h : s.host.script with
  | nil => exact .inl ⟨rfl, step_of_empty h⟩
  | cons x rest => exact .inr ⟨x, rest, rfl, step_of_script h⟩

/-! ## Transactions -/

theorem hostWrite_busy {s : State} (h : busy s = true) (a : Addr) (v : Word) : hostWrite a v s = .next s :=
  if_pos h

theorem hostWrite_cmd {s : State} (h : busy s = false) (w : Word) :
    hostWrite (regAddr .cmd) w s = writeCmd w s := by
  simp [hostWrite, h]

theorem hostWrite_place {s : State} (h : busy s = false) {a : Addr} {p : Place}
    (hp : placeOf s.params a = p) (hc : p ≠ .reg .cmd) (v : Word) :
    hostWrite a v s = .next (writePlace p v s) := by
  simp [hostWrite, h, hp, hc]

theorem hostRead_place {s : State} (h : busy s = false) {a : Addr} {p : Place}
    (hp : placeOf s.params a = p) : hostRead a s = recordResult (readPlace p s) := by
  simp [hostRead, hostReadValue, h, hp]

/-- Every way a write to CMD can end in an idle block. -/
theorem writeCmd_cases (w : Word) (s : State) :
    (s.ctl.err = true ∧ w = encode .softReset ∧ writeCmd w s = .next (resetBlock s)) ∨
    (s.ctl.err = true ∧ w ≠ encode .softReset ∧ writeCmd w s = .next s) ∨
    (s.ctl.err = false ∧ (∃ i, decode w = .ok i ∧ writeCmd w s = exec i s)) ∨
    (s.ctl.err = false ∧ (∃ e, decode w = .error e ∧
      writeCmd w s = .next { s with ctl := errorCtl w .illegalCmd s })) := by
  cases h : s.ctl.err with
  | true =>
    by_cases hw : w = encode .softReset
    · exact .inl ⟨rfl, hw, by simp [writeCmd, h, hw, exec, execSoftReset]⟩
    · exact .inr (.inl ⟨rfl, hw, by simp [writeCmd, h, hw]⟩)
  | false =>
    cases hd : decode w with
    | ok i => exact .inr (.inr (.inl ⟨rfl, i, rfl, by simp [writeCmd, h, hd]⟩))
    | error e =>
      refine .inr (.inr (.inr ⟨rfl, e, rfl, ?_⟩))
      simp [writeCmd, h, hd, illegalCommand, runCommand, enterError, startCommand, errorCtl]

/-- A read of a place changes nothing but the count of draws. -/
theorem readPlace_spec (p : Place) (s : State) : ∃ v d, readPlace p s = (v, { s with draws := d }) := by
  have key : ∀ {w : Nat} (b : Buffer w) (k : Nat), ∃ v d, fetchElem b k s = (v, { s with draws := d }) := by
    intro w b k
    unfold fetchElem
    split
    · exact ⟨_, s.draws, rfl⟩
    · exact ⟨_, _, rfl⟩
  cases p with
  | reg r => exact ⟨_, s.draws, rfl⟩
  | sigmaRom n => exact ⟨_, s.draws, rfl⟩
  | unmapped => exact ⟨_, s.draws, rfl⟩
  | carrI k => obtain ⟨v, d, h⟩ := key s.mem.carrI k; exact ⟨sext32 v, d, by simp [readPlace, readCarrI, h]⟩
  | carrQ k => obtain ⟨v, d, h⟩ := key s.mem.carrQ k; exact ⟨sext32 v, d, by simp [readPlace, readCarrQ, h]⟩
  | wave k => exact key s.mem.wave k
  | txbits k => obtain ⟨v, d, h⟩ := key s.mem.txbits k; exact ⟨zext32 v, d, by simp [readPlace, readTx, h]⟩
  | rxbits k => obtain ⟨v, d, h⟩ := key s.mem.rxbits k; exact ⟨zext32 v, d, by simp [readPlace, readRx, h]⟩
  | log k => exact key s.mem.log k

theorem hostRead_spec (a : Addr) (s : State) : ∃ v d,
    hostRead a s = { s with host := { s.host with results := s.host.results ++ [v] }, draws := d } := by
  unfold hostRead hostReadValue
  split
  · exact ⟨_, _, rfl⟩
  · obtain ⟨v, d, h⟩ := readPlace_spec (placeOf s.params a) s
    exact ⟨v, d, by rw [h]; rfl⟩

/-! ## One step on one transaction -/

theorem step_write_busy {s : State} (h : busy s = true) (a : Addr) (v : Word) (rest : List Input) :
    step (facing (.hostWrite a v) rest s) = .next { s with host := { s.host with script := rest } } :=
  hostWrite_busy (s := { s with host := { s.host with script := rest } }) h a v

theorem step_write_cmd {s : State} (h : busy s = false) (w : Word) (rest : List Input) :
    step (facing (.hostWrite (regAddr .cmd) w) rest s) =
      writeCmd w { s with host := { s.host with script := rest } } :=
  hostWrite_cmd (s := { s with host := { s.host with script := rest } }) h w

theorem step_write_place {s : State} (h : busy s = false) {a : Addr} {p : Place}
    (hp : placeOf s.params a = p) (hc : p ≠ .reg .cmd) (v : Word) (rest : List Input) :
    step (facing (.hostWrite a v) rest s) =
      .next (writePlace p v { s with host := { s.host with script := rest } }) :=
  hostWrite_place (s := { s with host := { s.host with script := rest } }) h hp hc v

theorem step_read_place {s : State} (h : busy s = false) {a : Addr} {p : Place}
    (hp : placeOf s.params a = p) (rest : List Input) :
    step (facing (.hostRead a) rest s) =
      .next (recordResult (readPlace p { s with host := { s.host with script := rest } })) :=
  congrArg Host.Outcome.next
    (hostRead_place (s := { s with host := { s.host with script := rest } }) h hp)

/-- A host read of a place that gives `v` and uses up no draw. -/
theorem readsTo_of_place {s : State} (h : busy s = false) {a : Addr} {p : Place} {v : Word}
    (hp : placeOf s.params a = p)
    (hv : ∀ rest, readPlace p { s with host := { s.host with script := rest } } =
      (v, { s with host := { s.host with script := rest } })) : readsTo s a v := fun rest => by
  rw [step_read_place h hp, hv]
  rfl

/-- A host write to a place other than CMD. -/
theorem writesTo_of_place {s t : State} (h : busy s = false) {a : Addr} {p : Place} {v : Word}
    (hp : placeOf s.params a = p) (hc : p ≠ .reg .cmd)
    (hv : ∀ rest, writePlace p v { s with host := { s.host with script := rest } } =
      { t with host := { s.host with script := rest } }) : writesTo s a v t := fun rest => by
  rw [step_write_place h hp hc, hv]

/-! ## No command stops the machine -/

theorem exec_next (i : Instr) (s : State) : ∃ t, exec i s = .next t := by
  have k : ∀ w b, ∃ t, runCommand w b s = .next t := fun w b => by
    rcases runCommand_cases w b s with ⟨t, -, h⟩ | ⟨c, t, -, h⟩ <;> exact ⟨_, h⟩
  cases i <;> first | exact k _ _ | exact ⟨_, rfl⟩

theorem writeCmd_next (w : Word) (s : State) : ∃ t, writeCmd w s = .next t := by
  rcases writeCmd_cases w s with ⟨-, -, h⟩ | ⟨-, -, h⟩ | ⟨-, i, -, h⟩ | ⟨-, e, -, h⟩
  · exact ⟨_, h⟩
  · exact ⟨_, h⟩
  · rw [h]
    exact exec_next i s
  · exact ⟨_, h⟩

/-! ## What a write to a place other than CMD leaves alone -/

/-- Such a write neither reads nor writes the control registers. -/
theorem writePlace_ctl (p : Place) (v : Word) (s : State) (c : Control) :
    writePlace p v { s with ctl := c } = { writePlace p v s with ctl := c } := by
  cases p with
  | reg r => cases r <;> rfl
  | _ => rfl

/-- It changes staging, ASK_THRESH, PRNG, TXLEN, WLEN, WAVE or TXBITS, and nothing else. -/
theorem writePlace_spec (p : Place) (v : Word) (s : State) : ∃ g tx w th x b a,
    writePlace p v s = { s with
      stg := g, len := { s.len with txlen := tx, wlen := w }, askThresh := th, prng := x
      mem := { s.mem with txbits := b, wave := a } } := by
  cases p with
  | reg r => cases r <;> exact ⟨_, _, _, _, _, _, _, rfl⟩
  | _ => exact ⟨_, _, _, _, _, _, _, rfl⟩

/-- A read of anything but STATUS does not see ERR. -/
theorem readPlace_err (p : Place) (hp : p ≠ .reg .status) (s : State) (e : Bool) :
    readPlace p { s with ctl := { s.ctl with err := e } } =
      ((readPlace p s).1, { (readPlace p s).2 with ctl := { s.ctl with err := e } }) := by
  have key : ∀ {w : Nat} (b : Buffer w) (k : Nat), fetchElem b k { s with ctl := { s.ctl with err := e } } =
      ((fetchElem b k s).1, { (fetchElem b k s).2 with ctl := { s.ctl with err := e } }) := by
    intro w b k
    unfold fetchElem
    cases b.read? k <;> rfl
  cases p with
  | reg r => cases r <;> first | rfl | exact absurd rfl hp
  | sigmaRom n => rfl
  | unmapped => rfl
  | carrI k => simp [readPlace, readCarrI, key]
  | carrQ k => simp [readPlace, readCarrQ, key]
  | wave k => exact key _ k
  | txbits k => simp [readPlace, readTx, key]
  | rxbits k => simp [readPlace, readRx, key]
  | log k => exact key _ k

end Sys2Proof.Machine
end

