-- ==== Sys2Proof/Laws/NoiseChannel.lean ====
section
/-! SUPPORT. One noise sample, and the loop of ADD_NOISE (R201 to R204). -/

namespace Sys2Proof.Machine

/-- The variate of sample `k` when the generator starts at `x`: the pair `k / 2` draws the states after
`2*(k/2) + 1` and `2*(k/2) + 2` steps; even samples take its first value (R203). -/
def variate (x : Word) (k : Nat) : Half :=
  if k % 2 = 0 then (gauss (prngNext^[2 * (k / 2) + 1] x) (prngNext^[2 * (k / 2) + 2] x)).1
  else (gauss (prngNext^[2 * (k / 2) + 1] x) (prngNext^[2 * (k / 2) + 2] x)).2

/-- What sample `k` may become: a written one gets its scaled variate, saturated (R201). -/
def NoisyFits (s : State) (sigma : Int) (k : Nat) (v : Word) : Prop :=
  ∀ x, s.mem.wave.read? k = some x → v = satAdd32 x (noiseSample sigma (variate s.prng k).toInt)

theorem addNoiseSample_spec (sigma : Int) (k : Nat) (z : Half) (s : State) : ∃ v d,
    addNoiseSample sigma k z s = { s with mem := { s.mem with wave := s.mem.wave.write k v }, draws := d } ∧
    ∀ x, s.mem.wave.read? k = some x → v = satAdd32 x (noiseSample sigma z.toInt) ∧ d = s.draws := by
  obtain ⟨y, d, hy, hy'⟩ := fetchElem_spec s.mem.wave k s
  refine ⟨satAdd32 y (noiseSample sigma z.toInt), d, ?_, fun x hx => ⟨?_, (hy' x hx).2⟩⟩
  · unfold addNoiseSample readWave
    simp only [hy]
    rfl
  · rw [(hy' x hx).1]

/-- The loop of ADD_NOISE after `n` pairs: PRNG has advanced `2*n` states, and only WAVE below
`min (2*n) FS` has changed. -/
theorem addNoise_loop (s : State) (sigma : Int) (n : Nat) (hn : n ≤ (cfgFs s + 1) / 2) : ∃ w d,
    forUpTo n (addNoisePair sigma) s =
      { s with mem := { s.mem with wave := w }, prng := prngNext^[2 * n] s.prng, draws := d } ∧
    Buffer.Filling (min (2 * n) (cfgFs s)) (NoisyFits s sigma) s.mem.wave w ∧
    (s.mem.wave.filled (cfgFs s) → d = s.draws) := by
  induction n with
  | zero => exact ⟨s.mem.wave, s.draws, rfl, by simpa using Buffer.filling_zero _ _, fun _ => rfl⟩
  | succ n ih =>
    obtain ⟨w, d, hl, hw, hd⟩ := ih (by omega)
    have hlt : 2 * n < cfgFs s := by omega
    rw [show min (2 * n) (cfgFs s) = 2 * n by omega] at hw
    let p1 := prngNext (prngNext^[2 * n] s.prng)
    let p2 := prngNext p1
    have e1 : p1 = prngNext^[2 * n + 1] s.prng :=
      (Function.iterate_succ_apply' prngNext (2 * n) s.prng).symm
    have e2 : p2 = prngNext^[2 * (n + 1)] s.prng := by
      rw [show 2 * (n + 1) = 2 * n + 1 + 1 by omega, Function.iterate_succ_apply', ← e1]
    obtain ⟨v, d1, hv, hv'⟩ := addNoiseSample_spec sigma (2 * n) (gauss p1 p2).1
      { s with mem := { s.mem with wave := w }, prng := p2, draws := d }
    have f1 : NoisyFits s sigma (2 * n) v := by
      intro x hx
      rw [(hv' x (by rw [← hx]; exact hw.2 _ (Nat.le_refl _))).1, e1, e2]
      simp [variate, show 2 * (n + 1) = 2 * n + 2 by omega]
    have hw1 := hw.write f1
    have d1' : s.mem.wave.filled (cfgFs s) → d1 = s.draws := fun h => by
      obtain ⟨x, hx⟩ := h _ hlt
      exact (hv' x (by rw [← hx]; exact hw.2 _ (Nat.le_refl _))).2.trans (hd h)
    by_cases hodd : 2 * n + 1 < cfgFs s
    · obtain ⟨u, d2, hu, hu'⟩ := addNoiseSample_spec sigma (2 * n + 1) (gauss p1 p2).2
        { s with mem := { s.mem with wave := w.write (2 * n) v }, prng := p2, draws := d1 }
      have f2 : NoisyFits s sigma (2 * n + 1) u := by
        intro x hx
        rw [(hu' x (by rw [← hx]; exact hw1.2 _ (Nat.le_refl _))).1, e1, e2]
        simp [variate, show 2 * (n + 1) = 2 * n + 2 by omega, show (2 * n + 1) / 2 = n by omega]
      refine ⟨(w.write (2 * n) v).write (2 * n + 1) u, d2, ?_, ?_, fun h => ?_⟩
      · rw [forUpTo_succ, hl, ← e2]
        unfold addNoisePair
        simp only [stepPrng]
        show (if 2 * n + 1 < cfgFs s then _ else _) = _
        rw [if_pos hodd]
        erw [hv, hu]
      · rw [show min (2 * (n + 1)) (cfgFs s) = 2 * n + 1 + 1 by omega]
        exact hw1.write f2
      · obtain ⟨x, hx⟩ := h _ hodd
        exact (hu' x (by rw [← hx]; exact hw1.2 _ (Nat.le_refl _))).2.trans (d1' h)
    · refine ⟨w.write (2 * n) v, d1, ?_, ?_, d1'⟩
      · rw [forUpTo_succ, hl, ← e2]
        unfold addNoisePair
        simp only [stepPrng]
        show (if 2 * n + 1 < cfgFs s then _ else _) = _
        rw [if_neg hodd]
        exact hv
      · rw [show min (2 * (n + 1)) (cfgFs s) = 2 * n + 1 by omega]
        exact hw1

/-- What ADD_NOISE does when its three checks are met: it runs to its end. -/
theorem addNoiseBody_spec (src : SigmaSource) (s : State) (h1 : s.ctl.cfgValid = true)
    (h2 : 0 ≤ sigmaOf src s) (h3 : s.len.wlen = s.cfg.fs) : ∃ w d,
    addNoiseBody src s = .ended { s with
      mem := { s.mem with wave := w }
      prng := prngNext^[2 * ((s.cfg.fs.toNat + 1) / 2)] s.prng
      draws := d } ∧
    Buffer.Filling s.cfg.fs.toNat (NoisyFits s (sigmaOf src s)) s.mem.wave w ∧
    (s.mem.wave.filled s.cfg.fs.toNat → d = s.draws) := by
  obtain ⟨w, d, hl, hw, hd⟩ := addNoise_loop s (sigmaOf src s) ((cfgFs s + 1) / 2) (Nat.le_refl _)
  rw [show min (2 * ((cfgFs s + 1) / 2)) (cfgFs s) = cfgFs s by omega] at hw
  refine ⟨w, d, ?_, hw, hd⟩
  simp only [addNoiseBody, requireConfigured, requireElse_of h1, requireElse_of h2, requireElse_of h3, hl]
  rfl

/-- Noise of sigma 0 is 0 (R202). -/
theorem noiseSample_zero (z : Int) : noiseSample 0 z = 0 := by
  simp [noiseSample, asr]

/-- Adding 0 leaves a sample as it is: no `s32` value is outside the saturation range (R202). -/
theorem satAdd32_zero (x : Word) : satAdd32 x 0 = x := by
  have h1 := BitVec.toInt_lt (x := x)
  have h2 := BitVec.le_toInt (x := x)
  have : sat32 (x.toInt + 0) = x.toInt := by
    unfold sat32
    omega
  rw [satAdd32, this, BitVec.ofInt_toInt]

/-- Sample `k` of the waveform `x` after noise (R201). -/
def noisySample (p : Word) (sigma : Int) (x : Nat → Word) (k : Nat) : Word :=
  satAdd32 (x k) (noiseSample sigma (variate p k).toInt)

/-- ADD_NOISE on a waveform that has been written: the result is determined and no draw is used up. -/
theorem addNoiseBody_written (src : SigmaSource) (s : State) (x : Nat → Word) (h1 : s.ctl.cfgValid = true)
    (h2 : 0 ≤ sigmaOf src s) (h3 : s.len.wlen = s.cfg.fs)
    (hx : ∀ k, k < s.cfg.fs.toNat → s.mem.wave.read? k = some (x k)) : ∃ w,
    addNoiseBody src s = .ended { s with
      mem := { s.mem with wave := w }
      prng := prngNext^[2 * ((s.cfg.fs.toNat + 1) / 2)] s.prng } ∧
    Buffer.Prefixed s.cfg.fs.toNat (noisySample s.prng (sigmaOf src s) x) s.mem.wave w := by
  obtain ⟨w, d, he, hw, hd⟩ := addNoiseBody_spec src s h1 h2 h3
  obtain rfl := hd fun k hk => ⟨x k, hx k hk⟩
  exact ⟨w, he, hw.toPrefixed fun k v hk h => h (x k) (hx k hk)⟩

end Sys2Proof.Machine
end

