-- ==== Sys2Proof/Laws/PerInstr.lean ====
section
/-! SUPPORT. Laws said of each command as syntax, one lemma per constructor of `Instr`.  Family
`RowMatch`: the word of a command matches the mask and match of its own row of spec/30_encoding.md R93. -/

namespace Sys2Proof.Laws.RowMatch

/-- Mask and match of the row of R93. -/
def row : Instr → Word × Word
  | .config => (0xFFFFFFFF, 0x00000001)
  | .genCarriers => (0xFFFFFFFF, 0x00000002)
  | .genBits => (0xFFFFFFFF, 0x00000003)
  | .modulate => (0xFFFFFFFF, 0x00000004)
  | .addNoise => (0xFFFFFFFF, 0x00000005)
  | .addNoiseI _ => (0x0000FFFF, 0x00000105)
  | .demodulate => (0xFFFFFFFF, 0x00000006)
  | .score => (0xFFFFFFFF, 0x00000007)
  | .runSweep _ => (0x0000FFFF, 0x00000008)
  | .getName => (0xFFFFFFFF, 0x00000009)
  | .softReset => (0xFFFFFFFF, 0x0000000F)

/-- The word of the command matches its row. -/
def Statement (i : Instr) : Prop := encode i &&& (row i).1 = (row i).2

/-- Under the mask of format I only the low half of a word is left. -/
theorem low_half (imm : BitVec 16) (m : BitVec 1) (o : BitVec 8) :
    (imm ++ 0#7 ++ m ++ o : Word) &&& 0x0000FFFF = 0#16 ++ 0#7 ++ m ++ o := by
  refine BitVec.eq_of_getLsbD_eq fun i hi => ?_
  have h : (0x0000FFFF : Word) = 0#16 ++ BitVec.allOnes 16 := by decide
  rw [BitVec.getLsbD_and, h, BitVec.getLsbD_append, BitVec.getLsbD_append, BitVec.getLsbD_append,
    BitVec.getLsbD_append, BitVec.getLsbD_append, BitVec.getLsbD_append, BitVec.getLsbD_append]
  by_cases h16 : i < 16
  · have e : (BitVec.allOnes 16).getLsbD i = true := by
      rw [BitVec.getLsbD_allOnes, decide_eq_true h16]
    simp only [h16, if_true, e, Bool.and_true]
    split
    · rfl
    · split
      · rfl
      · rw [if_pos (by omega), if_pos (by omega)]
  · have h1 : ¬ i < 8 := by omega
    have h2 : ¬ i - 8 < 1 := by omega
    have h3 : ¬ i - 8 - 1 < 7 := by omega
    simp [h16, h1, h2, h3]

theorem config : Statement .config := rfl
theorem genCarriers : Statement .genCarriers := rfl
theorem genBits : Statement .genBits := rfl
theorem modulate : Statement .modulate := rfl
theorem addNoise : Statement .addNoise := rfl
theorem addNoiseI (sigma : Int) : Statement (.addNoiseI sigma) := low_half (BitVec.ofInt 16 sigma) 1 0x05
theorem demodulate : Statement .demodulate := rfl
theorem score : Statement .score := rfl
theorem runSweep (k : Nat) : Statement (.runSweep k) := low_half (BitVec.ofNat 16 k) 0 0x08
theorem getName : Statement .getName := rfl
theorem softReset : Statement .softReset := rfl

end Sys2Proof.Laws.RowMatch
end

