-- ==== Sys2Proof/Laws/Prng.lean ====
section
/-! SUPPORT. The three xor-shifts of the random generator lose nothing, so a state other than 0 has a
successor other than 0 (R161). -/

namespace Sys2Proof.Machine

/-- A word that equals its own left shift is 0: each bit is an earlier one or none. -/
theorem eq_zero_of_eq_shiftLeft {x : Word} {k : Nat} (hk : 0 < k) (h : x = x <<< k) : x = 0 := by
  apply BitVec.eq_of_getLsbD_eq
  intro i hi
  rw [show BitVec.getLsbD (0 : Word) i = false by simp]
  induction i using Nat.strongRecOn with
  | ind i ih =>
    rw [h, BitVec.getLsbD_shiftLeft]
    by_cases hik : i < k
    · simp [hik]
    · rw [ih (i - k) (by omega) (by omega)]
      simp

/-- A word that equals its own right shift is 0: each bit is a later one or none. -/
theorem eq_zero_of_eq_shiftRight {x : Word} {k : Nat} (hk : 0 < k) (h : x = x >>> k) : x = 0 := by
  apply BitVec.eq_of_getLsbD_eq
  intro i _
  rw [show BitVec.getLsbD (0 : Word) i = false by simp]
  have up : ∀ n i, 32 ≤ i + n → x.getLsbD i = false := by
    intro n
    induction n with
    | zero => exact fun i hi => BitVec.getLsbD_of_ge x i (by omega)
    | succ n ih =>
      intro i hi
      rw [h, BitVec.getLsbD_ushiftRight]
      exact ih (k + i) (by omega)
  exact up 32 i (by omega)

theorem prngNext_ne_zero {x : Word} (h : x ≠ 0) : prngNext x ≠ 0 := by
  intro e
  unfold prngNext at e
  have h1 := eq_zero_of_eq_shiftLeft (by decide) (BitVec.xor_eq_zero_iff.mp e)
  have h2 := eq_zero_of_eq_shiftRight (by decide) (BitVec.xor_eq_zero_iff.mp h1)
  exact h (eq_zero_of_eq_shiftLeft (by decide) (BitVec.xor_eq_zero_iff.mp h2))

theorem prngNext_iterate_ne_zero {x : Word} (h : x ≠ 0) (n : Nat) : prngNext^[n] x ≠ 0 := by
  induction n with
  | zero => exact h
  | succ n ih =>
    rw [Function.iterate_succ_apply']
    exact prngNext_ne_zero ih

end Sys2Proof.Machine
end

