-- ==== Sys2Proof/Laws/Scorer.lean ====
section
/-! SUPPORT. The loop of SCORE (R251). -/

namespace Sys2Proof.Machine

/-- Positions below `n` at which two sequences differ (R250). -/
def differing (x y : Nat → Bit) (n : Nat) : Nat := ((Finset.range n).filter (fun j => x j ≠ y j)).card

theorem differing_succ (x y : Nat → Bit) (n : Nat) :
    differing x y (n + 1) = if x n ≠ y n then differing x y n + 1 else differing x y n := by
  unfold differing
  rw [Finset.range_add_one, Finset.filter_insert]
  split
  · rw [Finset.card_insert_of_notMem (by simp)]
  · rfl

/-- The first `n` bits of the two sequences, as functions. -/
def BitsAre (s : State) (n : Nat) (x y : Nat → Bit) : Prop :=
  ∀ j, j < n → s.mem.txbits.read? j = some (x j) ∧ s.mem.rxbits.read? j = some (y j)

/-- The loop of SCORE: it counts, and a draw is used up only for an unwritten bit. -/
theorem score_loop (s : State) (n : Nat) : ∃ e d,
    forUpTo n compareBit (0, s) = (e, { s with draws := d }) ∧ e ≤ n ∧
    ∀ x y, BitsAre s n x y → e = differing x y n ∧ d = s.draws := by
  induction n with
  | zero => exact ⟨0, s.draws, rfl, Nat.le_refl _, fun _ _ _ => ⟨rfl, rfl⟩⟩
  | succ n ih =>
    obtain ⟨e, d, hl, he, hx⟩ := ih
    obtain ⟨a, d1, ha, ha'⟩ := fetchElem_spec s.mem.txbits n { s with draws := d }
    obtain ⟨b, d2, hb, hb'⟩ := fetchElem_spec s.mem.rxbits n { s with draws := d1 }
    refine ⟨if a ≠ b then e + 1 else e, d2, ?_, by split <;> omega, fun x y hxy => ?_⟩
    · rw [forUpTo_succ, hl]
      unfold compareBit readTx readRx
      simp only [ha, hb]
    · obtain ⟨h1, h2⟩ := hx x y fun j hj => hxy j (by omega)
      obtain ⟨h3, h4⟩ := hxy n (by omega)
      obtain ⟨e1, e2⟩ := ha' _ h3
      obtain ⟨f1, f2⟩ := hb' _ h4
      exact ⟨by rw [differing_succ, e1, f1, h1], f2.trans (e2.trans h2)⟩

/-- What SCORE does on two sequences of one length, at least 1: it runs to its end. -/
theorem scoreBody_spec (s : State) (h1 : s.len.txlen = s.len.rxlen) (h2 : 1 ≤ s.len.txlen.toNat) :
    ∃ e : Word, ∃ d,
    scoreBody s = .ended { s with
      res := { s.res with errCount := e, berDen := s.len.txlen }
      draws := d } ∧
    e.toNat ≤ s.len.txlen.toNat ∧
    ∀ x y, BitsAre s s.len.txlen.toNat x y → e.toNat = differing x y s.len.txlen.toNat ∧ d = s.draws := by
  obtain ⟨e, d, hl, he, hx⟩ := score_loop s s.len.txlen.toNat
  have ht : (BitVec.ofNat 32 e).toNat = e := by
    rw [BitVec.toNat_ofNat, Nat.mod_eq_of_lt (Nat.lt_of_le_of_lt he s.len.txlen.isLt)]
  refine ⟨BitVec.ofNat 32 e, d, ?_, ht.trans_le he, fun x y h => ?_⟩
  · simp only [scoreBody, requireElse_of h1, requireElse_of h2, hl]
  · exact ⟨ht.trans (hx x y h).1, (hx x y h).2⟩

end Sys2Proof.Machine
end

