-- ==== Sys2Proof/Laws/Sweep.lean ====
section
/-! SUPPORT. One trial, as sub-operations of RUN_SWEEP (R263) and as five commands (R113), the records
of the log (R267) and the loop of RUN_SWEEP (R262). -/

namespace Sys2Proof.Machine

/-! ## One trial -/

/-- What a trial needs: a valid configuration and the carriers it reads. -/
structure TrialReady (s : State) (ci cq : Nat → Half) : Prop where
  configured : s.ctl.cfgValid = true
  valid : s.cfg.Valid s.params
  cilen : s.len.cilen = s.cfg.fs
  cqlen : s.cfg.scheme = .qpsk → s.len.cqlen = s.cfg.fs
  carrI : CarrIIs s ci
  carrQ : s.cfg.scheme = .qpsk → CarrQIs s cq

/-- The waveform of a trial, sample by sample: bits from PRNG, keyed carriers, noise from where the
bits left PRNG. -/
def trialSample (s : State) (ci cq : Nat → Half) (sigma : Int) (k : Nat) : Word :=
  noisySample (prngNext^[s.cfg.nbits.toNat] s.prng) sigma (sentSample s.cfg (generatedBit s.prng) ci cq) k

/-- The recovered bits of a trial. -/
def trialBit (s : State) (ci cq : Nat → Half) (sigma : Int) (j : Nat) : Bit :=
  recoveredBit s (trialSample s ci cq sigma) ci cq j

/-- The bit errors of a trial. -/
def trialErrors (s : State) (ci cq : Nat → Half) (sigma : Int) : Word :=
  BitVec.ofNat 32 (differing (generatedBit s.prng) (trialBit s ci cq sigma) s.cfg.nbits.toNat)

/-! What a trial computes depends on the active configuration, PRNG and ASK_THRESH alone. -/

theorem trialSample_congr {s t : State} (h1 : t.cfg = s.cfg) (h2 : t.prng = s.prng) (ci cq : Nat → Half)
    (sigma : Int) : trialSample t ci cq sigma = trialSample s ci cq sigma := by
  funext k
  simp only [trialSample, h1, h2]

theorem trialBit_congr {s t : State} (h1 : t.cfg = s.cfg) (h2 : t.prng = s.prng)
    (h3 : t.askThresh = s.askThresh) (ci cq : Nat → Half) (sigma : Int) :
    trialBit t ci cq sigma = trialBit s ci cq sigma := by
  funext j
  simp only [trialBit, recoveredBit, highCount, trialSample_congr h1 h2, h1, h3]
  cases s.cfg.scheme <;> rfl

theorem trialErrors_congr {s t : State} (h1 : t.cfg = s.cfg) (h2 : t.prng = s.prng)
    (h3 : t.askThresh = s.askThresh) (ci cq : Nat → Half) (sigma : Int) :
    trialErrors t ci cq sigma = trialErrors s ci cq sigma := by
  simp only [trialErrors, trialBit_congr h1 h2 h3, h1, h2]

/-- States PRNG takes in one trial (R269). -/
def trialDraws (c : ActiveConfig) : Nat := c.nbits.toNat + 2 * ((c.fs.toNat + 1) / 2)

/-- The state after a trial that leaves the buffers `tx`, `w` and `rx`. -/
def trialResult (s : State) (ci cq : Nat → Half) (sigma : Int) (tx : Buffer 1) (w : Buffer 32)
    (rx : Buffer 1) : State :=
  { s with
    mem := { s.mem with txbits := tx, wave := w, rxbits := rx }
    len := { s.len with txlen := s.cfg.nbits, wlen := s.cfg.fs, rxlen := s.cfg.nbits }
    prng := prngNext^[trialDraws s.cfg] s.prng
    res := { s.res with
      errCount := trialErrors s ci cq sigma
      berDen := s.cfg.nbits
      accI := (finalAccs s (trialSample s ci cq sigma) ci cq).1
      accQ := (finalAccs s (trialSample s ci cq sigma) ci cq).2 } }

/-- The buffers after a trial, element by element. -/
structure TrialBuffers (s : State) (ci cq : Nat → Half) (sigma : Int) (tx : Buffer 1) (w : Buffer 32)
    (rx : Buffer 1) : Prop where
  tx : Buffer.Prefixed s.cfg.nbits.toNat (generatedBit s.prng) s.mem.txbits tx
  wave : Buffer.Prefixed s.cfg.fs.toNat (trialSample s ci cq sigma) s.mem.wave w
  rx : Buffer.Prefixed s.cfg.nbits.toNat (trialBit s ci cq sigma) s.mem.rxbits rx

/-- Two fillings of one buffer, the second over the first. -/
theorem Buffer.Prefixed.over {w n : Nat} {f g : Nat → BitVec w} {a b c : Buffer w}
    (h : Buffer.Prefixed n f a b) (h' : Buffer.Prefixed n g b c) : Buffer.Prefixed n g a c := by
  intro k
  rw [h' k]
  split
  · rfl
  · rename_i hk
    rw [h k, if_neg hk]

theorem scoreBody_written (s : State) (n : Word) (x y : Nat → Bit) (h1 : s.len.txlen = n)
    (h2 : s.len.rxlen = n) (h3 : 1 ≤ n.toNat) (h : BitsAre s n.toNat x y) :
    scoreBody s = .ended { s with
      res := { s.res with errCount := BitVec.ofNat 32 (differing x y n.toNat), berDen := n } } := by
  subst h1
  obtain ⟨e, d, hl, -, hx⟩ := scoreBody_spec s h2.symm h3
  obtain ⟨he, rfl⟩ := hx x y h
  rw [hl, ← he, BitVec.ofNat_toNat, BitVec.setWidth_eq]

/-- The five sub-operations of a trial, by the body each command has (R263). -/
theorem trial_bodies (src : SigmaSource) (s : State) (ci cq : Nat → Half) (h : TrialReady s ci cq)
    (hs : 0 ≤ sigmaOf src s) : ∃ tx w rx,
    TrialBuffers s ci cq (sigmaOf src s) tx w rx ∧
    andThen (genBitsBody s) (fun s1 => andThen (modulateBody s1) fun s2 =>
      andThen (addNoiseBody src s2) fun s3 => andThen (demodulateBody s3) scoreBody) =
      .ended (trialResult s ci cq (sigmaOf src s) tx w rx) := by
  obtain ⟨tx, e1, p1⟩ := genBitsBody_spec s h.configured
  rw [e1, andThen_ended]
  obtain ⟨w1, e2, p2⟩ := modulateBody_written { s with
      mem := { s.mem with txbits := tx }
      len := { s.len with txlen := s.cfg.nbits }
      prng := prngNext^[s.cfg.nbits.toNat] s.prng } (generatedBit s.prng) ci cq h.configured h.valid
    h.cilen h.cqlen rfl (fun j hj => p1.filled hj) h.carrI h.carrQ
  rw [e2, andThen_ended]
  obtain ⟨w2, e3, p3⟩ := addNoiseBody_written src { s with
      mem := { s.mem with txbits := tx, wave := w1 }
      len := { s.len with txlen := s.cfg.nbits, wlen := s.cfg.fs }
      prng := prngNext^[s.cfg.nbits.toNat] s.prng } (sentSample s.cfg (generatedBit s.prng) ci cq)
    h.configured (by cases src <;> exact hs) rfl (fun k hk => p2.filled hk)
  rw [e3, andThen_ended]
  have hw : Buffer.Prefixed s.cfg.fs.toNat (trialSample s ci cq (sigmaOf src s)) s.mem.wave w2 := by
    refine Buffer.Prefixed.over p2 (g := trialSample s ci cq (sigmaOf src s)) ?_
    cases src <;> exact p3
  obtain ⟨rx, e4, p4⟩ := demodulateBody_written { s with
      mem := { s.mem with txbits := tx, wave := w2 }
      len := { s.len with txlen := s.cfg.nbits, wlen := s.cfg.fs }
      prng := prngNext^[2 * ((s.cfg.fs.toNat + 1) / 2)] (prngNext^[s.cfg.nbits.toNat] s.prng) }
    (trialSample s ci cq (sigmaOf src s)) ci cq h.configured h.valid h.cilen h.cqlen rfl
    (fun k hk => hw.filled hk) h.carrI h.carrQ
  rw [e4, andThen_ended]
  refine ⟨tx, w2, rx, ⟨p1, hw, p4⟩, ?_⟩
  rw [scoreBody_written _ s.cfg.nbits (generatedBit s.prng) (trialBit s ci cq (sigmaOf src s)) rfl rfl
    h.valid.nbits_pos (fun j hj => ⟨p1.filled hj, p4.filled hj⟩)]
  rw [← Function.iterate_add_apply]
  simp only [trialResult, trialDraws, Nat.add_comm]
  rfl

/-- A trial leaves what the next one needs. -/
theorem TrialReady.after {s : State} {ci cq : Nat → Half} (h : TrialReady s ci cq) (sigma : Int)
    (tx : Buffer 1) (w : Buffer 32) (rx : Buffer 1) : TrialReady (trialResult s ci cq sigma tx w rx) ci cq :=
  ⟨h.configured, h.valid, h.cilen, h.cqlen, h.carrI, h.carrQ⟩

/-! ## One trial as five commands (R113) -/

theorem execAll_cons_of_next {i : Instr} {rest : List Instr} {s t : State} (h : exec i s = .next t)
    (he : t.ctl.err = false) : execAll (i :: rest) s = execAll rest t := by
  simp [execAll, h, he]

theorem execAll_append_of_next {xs ys : List Instr} {s t : State} (h : execAll xs s = .next t)
    (he : t.ctl.err = false) : execAll (xs ++ ys) s = execAll ys t := by
  induction xs generalizing s with
  | nil =>
    obtain rfl : s = t := by simpa [execAll] using h
    rfl
  | cons i xs ih =>
    simp only [List.cons_append, execAll] at h ⊢
    cases hx : exec i s with
    | next u =>
      simp only [hx] at h ⊢
      cases hu : u.ctl.err with
      | true =>
        simp only [hu, if_true] at h
        obtain rfl : u = t := by simpa using h
        simp [hu] at he
      | false =>
        simp only [hu, Bool.false_eq_true, if_false] at h ⊢
        exact ih h
    | fault r => simp [hx] at h
    | refused r => simp [hx] at h

/-- The manual trial with either noise command: the five commands complete, and the state is that of the
sub-operations with the control registers of the last one. -/
theorem execAll_manualTrialWith (s : State) (ci cq : Nat → Half) {noise : Instr} {src : SigmaSource}
    (hi : ∀ u, exec noise u = runCommand (encode noise) (addNoiseBody src) u) (h : TrialReady s ci cq)
    (he : s.ctl.err = false) (hs : 0 ≤ sigmaOf src s) : ∃ tx w rx,
    TrialBuffers s ci cq (sigmaOf src s) tx w rx ∧
    execAll (manualTrialWith noise) s =
      .next { trialResult s ci cq (sigmaOf src s) tx w rx with ctl := doneCtl .score s } := by
  obtain ⟨tx, e1, p1⟩ := genBitsBody_spec (startCommand (encode .genBits) s) h.configured
  obtain ⟨w1, e2, p2⟩ := modulateBody_written (startCommand (encode .modulate) { s with
      mem := { s.mem with txbits := tx }
      len := { s.len with txlen := s.cfg.nbits }
      prng := prngNext^[s.cfg.nbits.toNat] s.prng
      ctl := doneCtl .genBits s }) (generatedBit s.prng) ci cq h.configured h.valid
    h.cilen h.cqlen rfl (fun j hj => p1.filled hj) h.carrI h.carrQ
  obtain ⟨w2, e3, p3⟩ := addNoiseBody_written src (startCommand (encode noise) { s with
      mem := { s.mem with txbits := tx, wave := w1 }
      len := { s.len with txlen := s.cfg.nbits, wlen := s.cfg.fs }
      prng := prngNext^[s.cfg.nbits.toNat] s.prng
      ctl := doneCtl .modulate s }) (sentSample s.cfg (generatedBit s.prng) ci cq)
    h.configured (by cases src <;> exact hs) rfl (fun k hk => p2.filled hk)
  have hw : Buffer.Prefixed s.cfg.fs.toNat (trialSample s ci cq (sigmaOf src s)) s.mem.wave w2 := by
    refine Buffer.Prefixed.over p2 (g := trialSample s ci cq (sigmaOf src s)) ?_
    cases src <;> exact p3
  obtain ⟨rx, e4, p4⟩ := demodulateBody_written (startCommand (encode .demodulate) { s with
      mem := { s.mem with txbits := tx, wave := w2 }
      len := { s.len with txlen := s.cfg.nbits, wlen := s.cfg.fs }
      prng := prngNext^[2 * ((s.cfg.fs.toNat + 1) / 2)] (prngNext^[s.cfg.nbits.toNat] s.prng)
      ctl := doneCtl noise s })
    (trialSample s ci cq (sigmaOf src s)) ci cq h.configured h.valid h.cilen h.cqlen rfl
    (fun k hk => hw.filled hk) h.carrI h.carrQ
  have e5 := scoreBody_written (startCommand (encode .score) { s with
      mem := { s.mem with txbits := tx, wave := w2, rxbits := rx }
      len := { s.len with txlen := s.cfg.nbits, wlen := s.cfg.fs, rxlen := s.cfg.nbits }
      prng := prngNext^[2 * ((s.cfg.fs.toNat + 1) / 2)] (prngNext^[s.cfg.nbits.toNat] s.prng)
      res := { s.res with
        accI := (finalAccs s (trialSample s ci cq (sigmaOf src s)) ci cq).1
        accQ := (finalAccs s (trialSample s ci cq (sigmaOf src s)) ci cq).2 }
      ctl := doneCtl .demodulate s }) s.cfg.nbits (generatedBit s.prng)
    (trialBit s ci cq (sigmaOf src s)) rfl rfl
    h.valid.nbits_pos (fun j hj => ⟨p1.filled hj, p4.filled hj⟩)
  refine ⟨tx, w2, rx, ⟨p1, hw, p4⟩, ?_⟩
  unfold manualTrialWith
  refine (execAll_cons_of_next (i := .genBits) (runCommand_of_ended e1) he).trans ?_
  refine (execAll_cons_of_next (i := .modulate) (runCommand_of_ended e2) he).trans ?_
  refine (execAll_cons_of_next (i := noise) ((hi _).trans (runCommand_of_ended e3)) he).trans ?_
  refine (execAll_cons_of_next (i := .demodulate) (runCommand_of_ended e4) he).trans ?_
  refine (execAll_cons_of_next (i := .score) (runCommand_of_ended e5) he).trans ?_
  have hp : prngNext^[2 * ((s.cfg.fs.toNat + 1) / 2)] (prngNext^[s.cfg.nbits.toNat] s.prng) =
      prngNext^[trialDraws s.cfg] s.prng := by
    rw [← Function.iterate_add_apply, Nat.add_comm, trialDraws]
  rw [hp]
  rfl

/-- The manual trial at a given sigma. -/
theorem execAll_manualTrial (s : State) (ci cq : Nat → Half) (sigma : Int) (h : TrialReady s ci cq)
    (he : s.ctl.err = false) (hs : 0 ≤ sigma) : ∃ tx w rx,
    TrialBuffers s ci cq sigma tx w rx ∧
    execAll (manualTrial sigma) s =
      .next { trialResult s ci cq sigma tx w rx with ctl := doneCtl .score s } :=
  execAll_manualTrialWith (src := .immediate sigma) s ci cq (fun _ => rfl) h he hs

/-! ## The log (R29, R267) -/

theorem writeLogWords_spec (i : Nat) (vs : List Word) (s : State) : ∃ log,
    writeLogWords i vs s = { s with mem := { s.mem with log := log } } ∧
    (∀ f v, vs[f]? = some v → log.read? (i + f) = some v) ∧
    ∀ k, k < i ∨ i + vs.length ≤ k → log.read? k = s.mem.log.read? k := by
  induction vs generalizing i s with
  | nil => exact ⟨s.mem.log, rfl, by simp, fun _ _ => rfl⟩
  | cons v vs ih =>
    obtain ⟨log, hl, hf, ho⟩ := ih (i + 1) (writeLog i v s)
    refine ⟨log, by simpa [writeLogWords, writeLog] using hl, fun f u hu => ?_, fun k hk => ?_⟩
    · cases f with
      | zero =>
        obtain rfl : v = u := by simpa using hu
        rw [Nat.add_zero, ho i (by omega)]
        simp
      | succ f =>
        rw [show i + (f + 1) = i + 1 + f by omega]
        exact hf f u (by simpa using hu)
    · simp only [List.length_cons] at hk
      rw [ho k (by omega), writeLog_mem]
      exact Buffer.read?_write_other _ _ (by omega)

/-- The words of record `r` with `e` bit errors (R267). -/
def recordWords (c : ActiveConfig) (r : Nat) (e : Word) : List Word :=
  [zext32 (schemeCode c.scheme), c.fs, c.fc, c.nbits, zext32 c.noiseStd, BitVec.ofNat 32 r,
   zext32 (sigmaRomAt r), e]

theorem appendRecord_spec (n : Nat) (s : State) : ∃ log,
    appendRecord n s = { s with
      mem := { s.mem with log := log }
      sweep := { s.sweep with logCount := BitVec.ofNat 32 (n + 1) } } ∧
    (∀ f v, (recordWords s.cfg n s.res.errCount)[f]? = some v → log.read? (8 * n + f) = some v) ∧
    ∀ k, k < 8 * n ∨ 8 * n + 8 ≤ k → log.read? k = s.mem.log.read? k := by
  obtain ⟨log, hl, hf, ho⟩ := writeLogWords_spec (8 * n) (sweepRecord n s) s
  refine ⟨log, ?_, hf, ho⟩
  unfold appendRecord
  rw [hl]

theorem sigmaRomAt_nonneg (n : Nat) : 0 ≤ (sigmaRomAt n).toInt := by
  by_cases h : n < 32
  · revert h
    revert n
    decide
  · have e : sigmaRomAt n = 0 := by
      unfold sigmaRomAt
      rw [List.getD_eq_default _ _ (by simpa [sigmaRom] using h)]
    rw [e]
    decide

/-! ## The loop of RUN_SWEEP -/

/-- The state after one step of the sweep: a trial at the step's noise level, then its record. -/
theorem sweepStep_spec (n : Nat) (s : State) (ci cq : Nat → Half) (h : TrialReady s ci cq) :
    ∃ tx w rx, TrialBuffers s ci cq (sigmaRomAt n).toInt tx w rx ∧
      sweepStep n s = .ended (appendRecord n
        (trialResult (startStep n s) ci cq (sigmaRomAt n).toInt tx w rx)) := by
  obtain ⟨tx, w, rx, hb, ht⟩ := trial_bodies (.rom n) (startStep n s) ci cq
    ⟨h.configured, h.valid, h.cilen, h.cqlen, h.carrI, h.carrQ⟩ (sigmaRomAt_nonneg n)
  refine ⟨tx, w, rx, ⟨hb.tx, hb.wave, hb.rx⟩, ?_⟩
  have e : sweepStep n s = andThen (andThen (genBitsBody (startStep n s)) (fun s1 =>
      andThen (modulateBody s1) fun s2 => andThen (addNoiseBody (.rom n) s2) fun s3 =>
      andThen (demodulateBody s3) scoreBody)) (fun t => .ended (appendRecord n t)) := by
    unfold sweepStep
    cases genBitsBody (startStep n s) with
    | raised c t => rfl
    | ended s1 =>
      simp only [andThen_ended]
      cases modulateBody s1 with
      | raised c t => rfl
      | ended s2 =>
        simp only [andThen_ended]
        cases addNoiseBody (.rom n) s2 with
        | raised c t => rfl
        | ended s3 =>
          simp only [andThen_ended]
          cases demodulateBody s3 <;> rfl
  rw [e, ht]
  rfl

/-- The bit errors of step `r` of a sweep that started its loop in `s`: those of a trial from where the
steps before it left PRNG. -/
def sweepErrors (s : State) (ci cq : Nat → Half) (r : Nat) : Word :=
  trialErrors { s with prng := prngNext^[r * trialDraws s.cfg] s.prng } ci cq (sigmaRomAt r).toInt

theorem sweepErrors_congr {s t : State} (h1 : t.cfg = s.cfg) (h2 : t.prng = s.prng)
    (h3 : t.askThresh = s.askThresh) (ci cq : Nat → Half) (r : Nat) :
    sweepErrors t ci cq r = sweepErrors s ci cq r :=
  trialErrors_congr (s := { s with prng := prngNext^[r * trialDraws s.cfg] s.prng })
    (t := { t with prng := prngNext^[r * trialDraws t.cfg] t.prng }) h1 (by simp only [h1, h2]) h3 _ _ _

/-- What holds after the first `n` steps of a sweep that started its loop in `s`. -/
structure SweepAfter (s : State) (ci cq : Nat → Half) (n : Nat) (t : State) : Prop where
  ready : TrialReady t ci cq
  stg : t.stg = s.stg
  cfg : t.cfg = s.cfg
  ctl : t.ctl = s.ctl
  askThresh : t.askThresh = s.askThresh
  host : t.host = s.host
  draws : t.draws = s.draws
  params : t.params = s.params
  name : t.res.name = s.res.name
  cilen : t.len.cilen = s.len.cilen
  cqlen : t.len.cqlen = s.len.cqlen
  carrI : t.mem.carrI = s.mem.carrI
  carrQ : t.mem.carrQ = s.mem.carrQ
  prng : t.prng = prngNext^[n * trialDraws s.cfg] s.prng
  logCount : t.sweep.logCount = BitVec.ofNat 32 n
  records : ∀ r, r < n → ∀ f v, (recordWords s.cfg r (sweepErrors s ci cq r))[f]? = some v →
    t.mem.log.read? (8 * r + f) = some v
  logAbove : ∀ i, 8 * n ≤ i → t.mem.log.read? i = s.mem.log.read? i
  bufAbove : ∀ k, s.cfg.fs.toNat ≤ k → t.mem.wave.read? k = s.mem.wave.read? k
  txAbove : ∀ k, s.cfg.nbits.toNat ≤ k → t.mem.txbits.read? k = s.mem.txbits.read? k
  rxAbove : ∀ k, s.cfg.nbits.toNat ≤ k → t.mem.rxbits.read? k = s.mem.rxbits.read? k
  noSteps : n = 0 → t = s
  someSteps : 0 < n → t.len.txlen = s.cfg.nbits ∧ t.len.rxlen = s.cfg.nbits ∧ t.len.wlen = s.cfg.fs ∧
    t.res.berDen = s.cfg.nbits ∧ t.res.errCount = sweepErrors s ci cq (n - 1) ∧ t.mem.rxbits.filled s.cfg.nbits.toNat

theorem trialErrors_le (s : State) (ci cq : Nat → Half) (sigma : Int) :
    (trialErrors s ci cq sigma).toNat ≤ s.cfg.nbits.toNat := by
  have h : differing (generatedBit s.prng) (trialBit s ci cq sigma) s.cfg.nbits.toNat ≤ s.cfg.nbits.toNat :=
    (Finset.card_filter_le _ _).trans (Finset.card_range _).le
  unfold trialErrors
  rw [BitVec.toNat_ofNat, Nat.mod_eq_of_lt (Nat.lt_of_le_of_lt h s.cfg.nbits.isLt)]
  exact h

theorem sweepErrors_le (s : State) (ci cq : Nat → Half) (r : Nat) :
    (sweepErrors s ci cq r).toNat ≤ s.cfg.nbits.toNat := trialErrors_le _ ci cq _

/-- The error counts of a sweep, seen from any state that agrees with the one its loop started in on what a
trial computes from. -/
theorem SweepAfter.errors {b t : State} {ci cq : Nat → Half} {n : Nat} (a : SweepAfter b ci cq n t)
    (s : State) (h1 : b.cfg = s.cfg) (h2 : b.prng = s.prng) (h3 : b.askThresh = s.askThresh) :
    (∀ r, r < n → t.mem.log.read? (8 * r + 7) = some (sweepErrors s ci cq r)) ∧
    (0 < n → t.res.errCount = sweepErrors s ci cq (n - 1)) := by
  refine ⟨fun r hr => ?_, fun hn => ?_⟩
  · rw [a.records r hr 7 _ rfl, sweepErrors_congr h1 h2 h3]
  · rw [(a.someSteps hn).2.2.2.2.1, sweepErrors_congr h1 h2 h3]

theorem sweepSteps_spec (s : State) (ci cq : Nat → Half) (h : TrialReady s ci cq)
    (h0 : s.sweep.logCount = 0) (n : Nat) : ∃ t, sweepSteps n s = .ended t ∧ SweepAfter s ci cq n t := by
  induction n with
  | zero =>
    exact ⟨s, rfl, {
      ready := h
      stg := rfl
      cfg := rfl
      ctl := rfl
      askThresh := rfl
      host := rfl
      draws := rfl
      params := rfl
      name := rfl
      cilen := rfl
      cqlen := rfl
      carrI := rfl
      carrQ := rfl
      prng := by simp
      logCount := by simpa using h0
      records := fun _ hr => absurd hr (Nat.not_lt_zero _)
      logAbove := fun _ _ => rfl
      bufAbove := fun _ _ => rfl
      txAbove := fun _ _ => rfl
      rxAbove := fun _ _ => rfl
      noSteps := fun _ => rfl
      someSteps := fun hr => absurd hr (Nat.lt_irrefl 0) }⟩
  | succ n ih =>
    obtain ⟨t, hl, a⟩ := ih
    obtain ⟨tx, w, rx, hb, hs⟩ := sweepStep_spec n t ci cq a.ready
    obtain ⟨log, hr, hf, ho⟩ := appendRecord_spec n
      (trialResult (startStep n t) ci cq (sigmaRomAt n).toInt tx w rx)
    have hcfg := a.cfg
    have herr : trialErrors (startStep n t) ci cq (sigmaRomAt n).toInt = sweepErrors s ci cq n :=
      trialErrors_congr (s := { s with prng := prngNext^[n * trialDraws s.cfg] s.prng }) (t := startStep n t)
        hcfg a.prng a.askThresh _ _ _
    refine ⟨_, by rw [sweepSteps, hl, andThen_ended, hs, hr], ?_⟩
    exact {
      ready := ⟨a.ready.configured, a.ready.valid, a.ready.cilen, a.ready.cqlen, a.ready.carrI, a.ready.carrQ⟩
      stg := a.stg
      cfg := a.cfg
      ctl := a.ctl
      askThresh := a.askThresh
      host := a.host
      draws := a.draws
      params := a.params
      name := a.name
      cilen := a.cilen
      cqlen := a.cqlen
      carrI := a.carrI
      carrQ := a.carrQ
      prng := by
        show prngNext^[trialDraws t.cfg] t.prng = _
        rw [a.prng, hcfg, ← Function.iterate_add_apply, Nat.add_mul, Nat.one_mul, Nat.add_comm]
      logCount := rfl
      records := fun r hrn f u hu => by
        by_cases e : r = n
        · subst e
          refine hf f u ?_
          show (recordWords t.cfg r (trialErrors (startStep r t) ci cq (sigmaRomAt r).toInt))[f]? = some u
          rw [hcfg, herr]
          exact hu
        · have hf8 : f < 8 := by
            by_contra hc
            rw [List.getElem?_eq_none (by simpa [recordWords] using hc)] at hu
            exact nomatch hu
          exact (ho (8 * r + f) (by omega)).trans (a.records r (by omega) f u hu)
      logAbove := fun i hi => (ho i (by omega)).trans (a.logAbove i (by omega))
      bufAbove := fun k hk => (hb.wave.above (by rw [hcfg]; exact hk)).trans (a.bufAbove k hk)
      txAbove := fun k hk => (hb.tx.above (by rw [hcfg]; exact hk)).trans (a.txAbove k hk)
      rxAbove := fun k hk => (hb.rx.above (by rw [hcfg]; exact hk)).trans (a.rxAbove k hk)
      noSteps := fun hn => absurd hn (Nat.succ_ne_zero n)
      someSteps := fun _ => ⟨congrArg ActiveConfig.nbits hcfg, congrArg ActiveConfig.nbits hcfg,
        congrArg ActiveConfig.fs hcfg, congrArg ActiveConfig.nbits hcfg, herr,
        fun k hk => ⟨_, hb.rx.filled (by rw [hcfg]; exact hk)⟩⟩ }

/-- GEN_CARRIERS leaves what a trial needs. -/
theorem trialReady_of_carriers {s : State} {ci cq : Buffer 16} (h1 : s.ctl.cfgValid = true)
    (hv : s.cfg.Valid s.params) (h2 : s.len.cilen = s.cfg.fs) (h3 : s.cfg.scheme = .qpsk → s.len.cqlen = s.cfg.fs)
    (hi : Buffer.Prefixed s.cfg.fs.toNat (inPhaseReference s.cfg) ci s.mem.carrI)
    (hq : Buffer.Prefixed (if s.cfg.scheme = .qpsk then s.cfg.fs.toNat else 0) (quadratureReference s.cfg)
      cq s.mem.carrQ) : TrialReady s (inPhaseReference s.cfg) (quadratureReference s.cfg) :=
  ⟨h1, hv, h2, h3, fun _ hk => hi.filled hk, fun hs k hk => hq.filled (by rw [if_pos hs]; exact hk)⟩

/-- What RUN_SWEEP does from a valid configuration with an allowed step count: it runs to its end. -/
theorem runSweepBody_spec (P : Config.Params) (k : Nat) (s : State) (h1 : s.ctl.cfgValid = true)
    (hv : s.cfg.Valid s.params) (hk : k ≤ P.stepMax) : ∃ ci cq t,
    runSweepBody P k s = .ended (endSweep k t) ∧
    Buffer.Prefixed s.cfg.fs.toNat (inPhaseReference s.cfg) s.mem.carrI ci ∧
    Buffer.Prefixed (if s.cfg.scheme = .qpsk then s.cfg.fs.toNat else 0) (quadratureReference s.cfg)
      s.mem.carrQ cq ∧
    SweepAfter { startSweep s with
      mem := { s.mem with carrI := ci, carrQ := cq }
      len := { s.len with cilen := s.cfg.fs, cqlen := if s.cfg.scheme = .qpsk then s.cfg.fs else 0 } }
      (inPhaseReference s.cfg) (quadratureReference s.cfg) k t := by
  obtain ⟨ci, cq, hl, hi, hq⟩ := genCarriersBody_spec (startSweep s) h1
  obtain ⟨t, ht, ha⟩ := sweepSteps_spec { startSweep s with
      mem := { s.mem with carrI := ci, carrQ := cq }
      len := { s.len with cilen := s.cfg.fs, cqlen := if s.cfg.scheme = .qpsk then s.cfg.fs else 0 } }
      (inPhaseReference s.cfg) (quadratureReference s.cfg)
      (trialReady_of_carriers (ci := s.mem.carrI) (cq := s.mem.carrQ) h1 hv rfl (fun e => if_pos e) hi hq) rfl k
  refine ⟨ci, cq, t, ?_, hi, hq, ha⟩
  simp only [runSweepBody, requireConfigured, requireElse_of h1, requireElse_of hk, hl, andThen_ended]
  erw [ht]
  rfl

/-! ## A sweep and the manual trials -/

theorem Buffer.Prefixed.read?_congr {w n : Nat} {f g : Nat → BitVec w} {a b c d : Buffer w}
    (h : Buffer.Prefixed n f a b) (h' : Buffer.Prefixed n g c d) (hf : ∀ k, k < n → g k = f k)
    (ho : ∀ k, c.read? k = a.read? k) (k : Nat) : d.read? k = b.read? k := by
  rw [h k, h' k, ho k]
  split
  · rename_i hk
    rw [hf k hk]
  · rfl

theorem finalAccs_congr {s t : State} (h1 : t.cfg = s.cfg) (h3 : t.askThresh = s.askThresh)
    (x : Nat → Word) (ci cq : Nat → Half) : finalAccs t x ci cq = finalAccs s x ci cq := by
  simp only [finalAccs, highCount, h1, h3]

/-- The trials of two states that agree leave states that agree. -/
theorem SameTrialState.trial {s t : State} (h : SameTrialState s t) {ci cq : Nat → Half} {sigma : Int}
    {tx tx' : Buffer 1} {w w' : Buffer 32} {rx rx' : Buffer 1}
    (hs : TrialBuffers s ci cq sigma tx w rx) (ht : TrialBuffers t ci cq sigma tx' w' rx') :
    SameTrialState (trialResult s ci cq sigma tx w rx) (trialResult t ci cq sigma tx' w' rx') := by
  obtain ⟨t1, t2, t3⟩ := ht
  rw [h.cfg] at t1 t2 t3
  exact {
    cfg := h.cfg
    len := by simp only [trialResult, h.cfg, h.len]
    askThresh := h.askThresh
    prng := by simp only [trialResult, h.cfg, h.prng]
    res := by
      simp only [trialResult, h.cfg, h.res, trialErrors_congr h.cfg h.prng h.askThresh,
        trialSample_congr h.cfg h.prng, finalAccs_congr h.cfg h.askThresh]
    carrI := h.carrI
    carrQ := h.carrQ
    wave := hs.wave.read?_congr t2 (fun k _ => by rw [trialSample_congr h.cfg h.prng]) h.wave
    txbits := hs.tx.read?_congr t1 (fun k _ => by rw [h.prng]) h.txbits
    rxbits := hs.rx.read?_congr t3 (fun k _ => by rw [trialBit_congr h.cfg h.prng h.askThresh]) h.rxbits
    draws := h.draws }

/-- The steps of a sweep and the manual trials, from states that agree, leave states that agree, and word 7
of each record is the error count of its manual trial. -/
theorem sweepSteps_manual {s u : State} {ci cq : Nat → Half} (h : SameTrialState s u)
    (hs : TrialReady s ci cq) (hu : TrialReady u ci cq) (he : u.ctl.err = false) (n : Nat) : ∃ t v,
    sweepSteps n s = .ended t ∧ execAll (manualTrials n) u = .next v ∧ SameTrialState t v ∧
    TrialReady t ci cq ∧ TrialReady v ci cq ∧ v.ctl.err = false ∧
    ∀ r, r < n → ∃ x, execAll (manualTrials (r + 1)) u = .next x ∧ x.ctl.err = false ∧
      t.mem.log.read? (8 * r + 7) = some x.res.errCount := by
  induction n with
  | zero => exact ⟨s, u, rfl, rfl, h, hs, hu, he, fun _ hr => absurd hr (Nat.not_lt_zero _)⟩
  | succ n ih =>
    obtain ⟨t, v, e1, e2, hs1, r1, r2, he1, hrec⟩ := ih
    obtain ⟨tx, w, rx, hb, hst⟩ := sweepStep_spec n t ci cq r1
    obtain ⟨tx', w', rx', hb', hm⟩ := execAll_manualTrial v ci cq (sigmaRomAt n).toInt r2 he1
      (sigmaRomAt_nonneg n)
    obtain ⟨log, hr, hf, ho⟩ := appendRecord_spec n
      (trialResult (startStep n t) ci cq (sigmaRomAt n).toInt tx w rx)
    have hsame := hs1.trial hb hb'
    have hlast : execAll (manualTrials (n + 1)) u =
        .next { trialResult v ci cq (sigmaRomAt n).toInt tx' w' rx' with ctl := doneCtl .score v } := by
      rw [manualTrials, execAll_append_of_next e2 he1]
      exact hm
    refine ⟨_, _, by rw [sweepSteps, e1, andThen_ended, hst, hr], hlast, ?_, ?_, ?_, he1, fun r hrn => ?_⟩
    · exact ⟨hsame.cfg, hsame.len, hsame.askThresh, hsame.prng, hsame.res, hsame.carrI, hsame.carrQ,
        hsame.wave, hsame.txbits, hsame.rxbits, hsame.draws⟩
    · exact ⟨r1.configured, r1.valid, r1.cilen, r1.cqlen, r1.carrI, r1.carrQ⟩
    · exact ⟨r2.configured, r2.valid, r2.cilen, r2.cqlen, r2.carrI, r2.carrQ⟩
    · by_cases e : r = n
      · subst e
        exact ⟨_, hlast, he1, (hf 7 _ rfl).trans (congrArg some (congrArg Results.errCount hsame.res.symm))⟩
      · obtain ⟨x, hx, hxe, hxr⟩ := hrec r (by omega)
        exact ⟨x, hx, hxe, (ho (8 * r + 7) (by omega)).trans hxr⟩

end Sys2Proof.Machine
end

