-- ==== Sys2Proof/Tests/Slice0.lean ====
section
/-! SUPPORT. The model's own tests, on vectors of spec/95_test_vectors.md (named V<n>), and a witness
for the hypotheses of every statement.  Expected values come from the spec, never from a run. -/

namespace Sys2Proof.Tests

open Sys2Proof Sys2Proof.Machine

/-! ## Ill-formed commands (R92, R112) -/

theorem test_wf_sigma_high : (Instr.addNoiseI 32768).wf = false := by decide
theorem test_wf_sigma_low : (Instr.addNoiseI (-32769)).wf = false := by decide
theorem test_wf_step_count : (Instr.runSweep 65536).wf = false := by decide
theorem test_wf_limits : (Instr.addNoiseI 32767).wf ∧ (Instr.addNoiseI (-32768)).wf ∧
    (Instr.runSweep 65535).wf := by decide

/-! ## Words written out from R91 to R93: `IMM16`, `RSV`, `M`, `OPC` -/

theorem test_decode_config : decode 0b0000000000000000_0000000_0_00000001 = .ok .config := by decide
theorem test_decode_genCarriers : decode 0b0000000000000000_0000000_0_00000010 = .ok .genCarriers := by decide
theorem test_decode_genBits : decode 0b0000000000000000_0000000_0_00000011 = .ok .genBits := by decide
theorem test_decode_modulate : decode 0b0000000000000000_0000000_0_00000100 = .ok .modulate := by decide
theorem test_decode_addNoise : decode 0b0000000000000000_0000000_0_00000101 = .ok .addNoise := by decide
/-- V45: `CMD ADD_NOISE #-32768` is `0x80000105`. -/
theorem test_decode_addNoiseI : decode 0b1000000000000000_0000000_1_00000101 = .ok (.addNoiseI (-32768)) := by
  decide
theorem test_decode_demodulate : decode 0b0000000000000000_0000000_0_00000110 = .ok .demodulate := by decide
theorem test_decode_score : decode 0b0000000000000000_0000000_0_00000111 = .ok .score := by decide
/-- V62: `CMD RUN_SWEEP #33` is `0x00210008`. -/
theorem test_decode_runSweep : decode 0b0000000000100001_0000000_0_00001000 = .ok (.runSweep 33) := by decide
theorem test_decode_getName : decode 0b0000000000000000_0000000_0_00001001 = .ok .getName := by decide
theorem test_decode_softReset : decode 0b0000000000000000_0000000_0_00001111 = .ok .softReset := by decide

/-- V70: illegal words, one of each kind. -/
theorem test_decode_illegal :
    decode 0x00000000 = .error .reservedOpcode ∧ decode 0x000000FF = .error .reservedOpcode ∧
    decode 0x00000201 = .error .reservedField ∧ decode 0x00008005 = .error .reservedField ∧
    decode 0x00000101 = .error .modeBit ∧ decode 0x00000108 = .error .modeBit ∧
    decode 0x00010001 = .error .immediate ∧ decode 0x00010005 = .error .immediate ∧
    decode 0x0001000F = .error .immediate := by decide

theorem test_encode_operands : encode (.addNoiseI (-1)) = 0xFFFF0105 ∧
    encode (.addNoiseI 4096) = 0x10000105 ∧ encode (.runSweep 12) = 0x000C0008 := by decide

theorem test_table_word : decodeTableWord 32 0x00000105 = some (.addNoiseI 0) ∧
    decodeTableWord 16 0x00000008 = some (.runSweep 0) ∧ decodeTableWord 32 0 = none := by decide

/-! ## Small states -/

/-- Element `k` of a list of numbers. -/
def elem (w : Nat) (xs : List Int) (k : Nat) : BitVec w := BitVec.ofInt w (xs.getD k 0)

/-- A buffer that holds a list of numbers from index 0 on. -/
def buf (w : Nat) (xs : List Int) : Buffer w := (List.range xs.length).map fun k => (k, elem w xs k)

/-- The numbers a buffer holds. -/
def nums {w : Nat} (b : Buffer w) : List Int := b.map fun e => e.2.toInt

/-- The reset state with a staged configuration. -/
def staged (fs fc nbits : Nat) (noise : Half) (scheme : BitVec 2) : State :=
  { State.reset with stg := { fs := BitVec.ofNat 32 fs, fc := BitVec.ofNat 32 fc
                              nbits := BitVec.ofNat 32 nbits, noiseStd := noise, scheme := scheme } }

/-- A configured state with `spb` samples a bit, `sps` samples a symbol and `nsym` symbols. -/
def active (sc : Scheme) (fs fc nbits spb nsym sps : Nat) : State :=
  { State.reset with
    cfg := { fs := BitVec.ofNat 32 fs, fc := BitVec.ofNat 32 fc, nbits := BitVec.ofNat 32 nbits
             noiseStd := 4096, scheme := sc, spb := BitVec.ofNat 32 spb, nsym := BitVec.ofNat 32 nsym
             sps := BitVec.ofNat 32 sps }
    ctl := { State.reset.ctl with cfgValid := true } }

/-- A configured state with its carriers, bits, waveform and recovered bits in place. -/
def loaded (s : State) (ci cq : List Int) (tx wave rx : List Int) : State :=
  { s with
    mem := { s.mem with carrI := buf 16 ci, carrQ := buf 16 cq, txbits := buf 1 tx, wave := buf 32 wave
                        rxbits := buf 1 rx }
    len := { cilen := BitVec.ofNat 32 ci.length, cqlen := BitVec.ofNat 32 cq.length
             txlen := BitVec.ofNat 32 tx.length, rxlen := BitVec.ofNat 32 rx.length
             wlen := BitVec.ofNat 32 wave.length } }

def sine8 : List Int := [0, 11585, 16384, 11585, 0, -11585, -16384, -11585]
def cosine8 : List Int := [16384, 11585, 0, -11585, -16384, -11585, 0, 11585]
/-- V32a. -/
def bpskWave : List Int := [0, 11585, 16384, 11585, 0, 11585, 16384, 11585]
/-- V32c. -/
def askWave : List Int := [0, 0, 0, 0, 0, -11585, -16384, -11585]
/-- V32f. -/
def qpskWave : List Int := [-16384, 0, 16384, 23170, -16384, 0, 16384, 23170]

/-- `FS = 8, FC = 1, NBITS = 2`, the bits `0, 1`, in each single-carrier scheme. -/
def askState : State := loaded (active .ask 8 1 2 4 2 4) sine8 [] [0, 1] askWave [0, 0]
def bpskState : State := loaded (active .bpsk 8 1 2 4 2 4) sine8 [] [0, 1] bpskWave [0, 0]
/-- `FS = 8, FC = 1, NBITS = 4`, the bits `1, 0, 0, 1`. -/
def qpskState : State := loaded (active .qpsk 8 1 4 2 2 4) cosine8 sine8 [1, 0, 0, 1] qpskWave [0, 1, 1, 0]

/-- The state after a NOT_CONFIGURED error of MODULATE. -/
def errorState : State := { State.reset with ctl := errorCtl 0x00000004 .notConfigured State.reset }

/-- A command is running. -/
def busyState : State := { bpskState with ctl := { bpskState.ctl with seq := .run 0x00000004 } }

/-- A state of the smallest block R5 allows in STEP_MAX, with 16 samples. -/
def small (s : State) : State := { s with params := ⟨16, 12⟩ }

/-- What an outcome shows of a next state. -/
def shows {α : Type} (f : State → α) (o : Host.Outcome State Fault Refusal) : Option α :=
  match o with
  | .next s => some (f s)
  | .fault _ => none
  | .refused _ => none

/-! ## One step of each command -/

/-- V14. -/
theorem test_config_qpsk : shows (fun t => (t.cfg.spb, t.cfg.nsym, t.cfg.sps, statusWord t))
    (exec .config (staged 65536 4000000000 2 0 2)) = some (32768, 1, 65536, 0xA) := by decide
/-- V15: `100 mod 8 = 4`, although `100 mod 4 = 0`. -/
theorem test_config_nonintegral : shows (fun t => (t.ctl.errCode, t.ctl.errCmd, statusWord t))
    (exec .config (staged 100 10 8 0 2)) = some (0x0101, 0x00000001, 0x4) := by decide

/-- R5, R121: a block with FS_MAX = 16 takes 16 samples and rejects 17. -/
theorem test_config_small_block :
    shows (fun t => (t.ctl.errCode, statusWord t)) (exec .config (small (staged 16 1 2 0 1))) = some (0, 0xA) ∧
    shows (fun t => (t.ctl.errCode, statusWord t)) (exec .config (small (staged 17 1 1 0 1))) =
      some (0x1201, 0x4) := by decide

/-- V24: the phases are `3k mod 8`. -/
theorem test_genCarriers_qpsk : shows (fun t => (nums t.mem.carrI, nums t.mem.carrQ, t.len.cqlen))
    (exec .genCarriers (active .qpsk 8 3 4 2 2 4)) =
    some ([16384, -11585, 0, 11585, -16384, 11585, 0, -11585],
      [0, 11585, -16384, 11585, 0, -11585, 16384, -11585], 8) := by decide +kernel
/-- V29: one sample. -/
theorem test_genCarriers_one : shows (fun t => (nums t.mem.carrI, t.len.cilen, t.len.cqlen))
    (exec .genCarriers (active .bpsk 1 1 1 1 1 1)) = some ([0], 1, 0) := by decide +kernel

/-- V31. -/
theorem test_genBits : shows (fun t => (t.mem.txbits.map (fun e => e.2.toNat), t.len.txlen, t.prng))
    (exec .genBits (active .qpsk 8 1 4 2 2 4)) = some ([0, 1, 0, 0], 4, 0x77B0567E) := by decide

/-- V32f: the order inside a pair. -/
theorem test_modulate_qpsk : shows (fun t => (nums t.mem.wave, t.len.wlen))
    (exec .modulate { qpskState with mem := { qpskState.mem with wave := [] } }) =
    some ([-16384, 0, 16384, 23170, -16384, 0, 16384, 23170], 8) := by decide +kernel
/-- V32c. -/
theorem test_modulate_ask : shows (fun t => nums t.mem.wave)
    (exec .modulate { askState with mem := { askState.mem with wave := [] } }) =
    some [0, 0, 0, 0, 0, -11585, -16384, -11585] := by decide +kernel

/-- V44: one sample, the second variate of the pair dropped, two states drawn. -/
theorem test_addNoise_one : shows (fun t => (nums t.mem.wave, t.prng))
    (exec .addNoise (loaded (active .bpsk 1 1 1 1 1 1) [0] [] [0] [0] [])) =
    some ([-26960], 0x94DACB7A) := by decide +kernel
/-- V43 with sigma 1.0: the generator stands where two bits have left it. -/
theorem test_addNoiseI : shows (fun t => (nums t.mem.wave, t.prng))
    (exec (.addNoiseI 4096) { bpskState with prng := 0x94DACB7A }) =
    some ([-19424, 15601, 25132, 16917, 13232, 32705, -6228, -9099], 0x9E2F3E39) := by decide +kernel

/-- V53: the first bit of a pair is the in-phase one. -/
theorem test_demodulate_qpsk : shows (fun t => (t.mem.rxbits.map (fun e => e.2.toNat), t.res.accI.toInt,
      t.res.accQ.toInt)) (exec .demodulate qpskState) =
    some ([1, 0, 0, 1], 536859906, -536859906) := by decide +kernel
/-- The comparison with the threshold is strict (the table after V57): 11585 leaves one high sample. -/
theorem test_demodulate_ask_strict : shows (fun t => t.mem.rxbits.map (fun e => e.2.toNat))
    (exec .demodulate { loaded (active .ask 8 1 2 4 2 4) sine8 [] [1, 1] sine8 [] with askThresh := 11585 }) =
    some [0, 0] := by decide +kernel

/-- V6: fully complementary sequences. -/
theorem test_score_complement : shows (fun t => (t.res.errCount, t.res.berDen)) (exec .score qpskState) =
    some (4, 4) := by decide
/-- SCORE from reset: an empty pair. -/
theorem test_score_empty : shows (fun t => t.ctl.errCode) (exec .score State.reset) = some 0x0201 := by decide

/-- V60, one step. -/
theorem test_runSweep_one : shows (fun t => (nums t.mem.log, t.prng, t.sweep.logCount, t.res.errCount))
    (exec (.runSweep 1) { active .bpsk 8 1 2 4 2 4 with
      cfg := { (active .bpsk 8 1 2 4 2 4).cfg with noiseStd := 0 } }) =
    some ([1, 8, 1, 2, 0, 0, 11585, 1], 0x9E2F3E39, 1, 1) := by decide +kernel
/-- V62. -/
theorem test_runSweep_range : shows (fun t => (t.ctl.errCode, t.ctl.errCmd, t.sweep.state))
    (exec (.runSweep 33) bpskState) = some (0x1801, 0x00210008, .init) := by decide

/-- R5, R270: a block with STEP_MAX = 12 rejects 13 steps. -/
theorem test_runSweep_small_block : shows (fun t => t.ctl.errCode) (exec (.runSweep 13) (small bpskState)) =
    some 0x1801 := by decide

theorem test_getName : shows (fun t => t.res.name) (exec .getName qpskState) = some 0x5150534B := by decide
/-- GET_NAME from reset. -/
theorem test_getName_unconfigured : shows (fun t => (t.ctl.errCode, t.ctl.errCmd))
    (exec .getName State.reset) = some (0x1301, 0x00000009) := by decide

/-- V72: DONE is 0 after SOFT_RESET. -/
theorem test_softReset : shows (fun t => (statusWord t, t.ctl.cmd, t.prng, t.askThresh, nums t.mem.wave))
    (exec .softReset qpskState) = some (0, 0, 0x92D68CA2, 6554, []) := by decide

/-! ## Reference functions -/

/-- V30. -/
theorem test_prng : prngNext 0x92D68CA2 = 0x2B1F4D63 ∧ prngNext 0xFFFFFFFF = 0x0003E01F ∧
    prngNext 0x80000000 = 0x80084000 ∧ prngNext 0 = 0 := by decide
/-- V40. -/
theorem test_gauss : gauss 0x2B1F4D63 0x94DACB7A = (BitVec.ofInt 16 (-6740), BitVec.ofInt 16 (-3786)) ∧
    gauss 1 0x40000000 = (0, 27281) ∧ gauss 0xFFFFFFFF 0x80000000 = (0, 0) := by decide +kernel
/-- V41. -/
theorem test_noise_scaling : noiseSample 1 512 = 1 ∧ noiseSample 1 (-512) = 0 ∧ noiseSample 1 (-513) = -1 ∧
    noiseSample 3 (-171) = -1 ∧ noiseSample 32767 27281 = 872965 := by decide
/-- V45: saturation. -/
theorem test_saturation : satAdd32 0x7FFFFFFF 1 = 0x7FFFFFFF ∧ satAdd32 0x80000000 (-1) = 0x80000000 := by
  decide

/-! ## The host port -/

/-- V70: an illegal word from reset. -/
theorem test_illegal_word : shows (fun t => (t.ctl.errCode, t.ctl.errCmd, t.ctl.cmd, statusWord t))
    (step (facing (.hostWrite 0 0x0001000F) [] State.reset)) = some (0x1701, 0x0001000F, 0x0001000F, 0x4) := by
  decide
/-- V71: a command while ERR is 1. -/
theorem test_error_ignores_command : shows id (step (facing (.hostWrite 0 0x00000002) [] errorState)) =
    some errorState := by decide
/-- V73: only bit 0 of a TXBITS write is stored. -/
theorem test_txbits_bit0 : shows (fun t => t.mem.txbits)
    (step (facing (.hostWrite 0x40001 3) [] State.reset)) = some [(1, 1)] := by decide
/-- V73: SIGMA_ROM reads. -/
theorem test_sigma_read : shows (fun t => t.host.results)
    (step (facing (.hostRead 0x7000B) [] State.reset)) = some [0x00000CC1] := by decide
/-- R60, R63: in a block with FS_MAX = 16 the window of WAVE ends after word 15. -/
theorem test_small_block_window :
    shows (fun t => nums t.mem.wave) (step (facing (.hostWrite 0x3000F 5) [] (small State.reset))) = some [5] ∧
    shows (fun t => nums t.mem.wave) (step (facing (.hostWrite 0x30010 5) [] (small State.reset))) = some [] ∧
    shows (fun t => (t.host.results, t.draws)) (step (facing (.hostRead 0x30010) [] (small State.reset))) =
      some ([0], 0) := by decide
/-- Section 2.1: STG_NOISE_STD keeps 16 bits and STG_SCHEME two. -/
theorem test_staging_widths : shows (fun t => t.stg.noiseStd)
      (step (facing (.hostWrite 0x07 0xFFFFFFFF) [] State.reset)) = some 0xFFFF ∧
    shows (fun t => t.stg.scheme) (step (facing (.hostWrite 0x08 4) [] State.reset)) = some 0 := by decide
/-- The next step of a placed word runs it: GET_NAME from reset raises NOT_CONFIGURED. -/
theorem test_fetch_word : shows (fun t => (t.ctl.errCode, t.ctl.errCmd))
    (step (State.reset.withFetchWord 32 0x00000009)) = some (0x1301, 0x00000009) := by decide

theorem test_reset_memory : State.reset.mem.wf State.reset.params := reset_memory_wf

/-! ## Witnesses: states and operands that meet the hypotheses of each statement -/

theorem bpsk_valid : bpskState.cfg.Valid bpskState.params := by constructor <;> decide
theorem ask_valid : askState.cfg.Valid askState.params := by constructor <;> decide
theorem qpsk_valid : qpskState.cfg.Valid qpskState.params := by constructor <;> decide

theorem witness_DecodeOfEncode : (Instr.addNoiseI (-32768)).wf = true ∧ (Instr.runSweep 65535).wf = true ∧
    Instr.config.wf = true := by decide

theorem witness_EncodeOfDecode : decode 0x80000105 = .ok (.addNoiseI (-32768)) := by decide

/-- An illegal word of each clause, and a state the second part speaks about. -/
theorem witness_IllegalWordsRaiseIllegalCmd :
    (0x0000000A : Word).toNat % 256 = 0x0A ∧ (0x00000010 : Word).toNat % 256 = 0x10 ∧
    (0x00000201 : Word).toNat / 512 % 128 ≠ 0 ∧ (0x00000101 : Word).toNat / 256 % 2 = 1 ∧
    (0x00010005 : Word).toNat / 65536 ≠ 0 ∧ decode 0x00010005 = .error .immediate ∧
    busy State.reset = false ∧ State.reset.ctl.err = false := by decide

theorem witness_StepRunsDecodedCommand :
    (facing (.hostWrite (regAddr .cmd) 0x00000004) [.wait] bpskState).host.script =
      .hostWrite (regAddr .cmd) 0x00000004 :: [.wait] ∧
    busy (facing (.hostWrite (regAddr .cmd) 0x00000004) [.wait] bpskState) = false ∧
    (facing (.hostWrite (regAddr .cmd) 0x00000004) [.wait] bpskState).ctl.err = false ∧
    decode 0x00000004 = .ok .modulate := by decide

/-- The error state, with a write and a read elsewhere that work without the error. -/
theorem witness_ErrorStateExecutesOnlyReset :
    (busy errorState = false ∧ errorState.ctl.err = true ∧ (0x00000002 : Word) ≠ 0x0000000F) ∧
    regAddr .stgNbits ≠ regAddr .cmd ∧ regAddr .errCode ≠ regAddr .status ∧
    writesTo { errorState with ctl := { errorState.ctl with err := false } } (regAddr .stgNbits) 5
      { errorState with ctl := { errorState.ctl with err := false }, stg := { errorState.stg with nbits := 5 } } ∧
    readsTo { errorState with ctl := { errorState.ctl with err := false } } (regAddr .errCode) 0x1301 :=
  ⟨by decide, by decide, by decide, fun _ => rfl, fun _ => rfl⟩

theorem witness_BusyBlockDropsWrites : busy busyState = true ∧ (0x7FFFF : Addr) ≠ regAddr .status ∧
    (0 : Addr) ≠ regAddr .status := by decide

/-- One step of each of the three kinds that change the active configuration. -/
theorem witness_ActiveConfigChangesOnlyByConfigOrReset :
    shows (fun t => decide (t.cfg ≠ State.reset.cfg)) (step (facing (.hostWrite (regAddr .cmd) 0x00000001) []
      (staged 8 1 2 0 1))) = some true ∧
    shows (fun t => decide (t.cfg ≠ bpskState.cfg)) (step (facing (.hostWrite (regAddr .cmd) 0x0000000F) []
      bpskState)) = some true ∧
    shows (fun t => decide (t.cfg ≠ bpskState.cfg)) (step (facing .hardwareReset [] bpskState)) = some true := by
  decide

/-- A step that keeps the error, and the two that clear it. -/
theorem witness_ErrorIsStickyUntilReset : errorState.ctl.err = true ∧
    shows (fun t => t.ctl.err) (step (facing (.hostWrite (regAddr .cmd) 0x00000001) [] errorState)) = some true ∧
    shows (fun t => t.ctl.err) (step (facing (.hostWrite (regAddr .cmd) 0x0000000F) [] errorState)) = some false ∧
    shows (fun t => t.ctl.err) (step (facing .hardwareReset [] errorState)) = some false := by decide

theorem witness_ResetWaitAndEndOfScript : busy State.reset = false ∧ busy busyState = true ∧
    State.reset.host.script = [] := by decide

theorem witness_RegisterReads : busy qpskState = false := by decide

/-- Written elements at the last index of every buffer, in an idle block. -/
def fullState : State :=
  { State.reset with
    mem := { carrI := [(65535, 0x8000)], carrQ := [(65535, 0x4000)], wave := [(65535, 0xFFFFFFFF)]
             txbits := [(65535, 1)], rxbits := [(65535, 1)], log := [(255, 7)] } }

/-- The largest block, and the addresses a smaller one leaves unmapped. -/
theorem witness_BufferAndUnmappedReads : fullState.params.Valid ∧ busy fullState = false ∧
    65535 < fullState.params.fsMax ∧ 31 < fullState.params.stepMax ∧
    fullState.mem.carrI.read? 65535 = some 0x8000 ∧ fullState.mem.carrQ.read? 65535 = some 0x4000 ∧
    fullState.mem.wave.read? 65535 = some 0xFFFFFFFF ∧ fullState.mem.txbits.read? 65535 = some 1 ∧
    fullState.mem.rxbits.read? 65535 = some 1 ∧ fullState.mem.log.read? (8 * 31 + 7) = some 7 ∧
    (0x0B ≤ (0x0000B : Addr).toNat ∧ (0x0000F : Addr).toNat ≤ 0x0F) ∧
    (0x27 ≤ (0x00027 : Addr).toNat ∧ (0x0FFFF : Addr).toNat ≤ 0xFFFF) ∧
    (0x60000 + 8 * fullState.params.stepMax ≤ (0x60100 : Addr).toNat ∧ (0x6FFFF : Addr).toNat ≤ 0x6FFFF) ∧
    0x70000 + fullState.params.stepMax ≤ (0x70020 : Addr).toNat ∧
    ((small State.reset).params.Valid ∧ busy (small State.reset) = false ∧
      (small State.reset).params.fsMax ≤ (0x10010 : Addr).toNat % 0x10000 ∧
      (small State.reset).params.fsMax ≤ (0x5FFFF : Addr).toNat % 0x10000 ∧
      0x60000 + 8 * (small State.reset).params.stepMax ≤ (0x60060 : Addr).toNat ∧
      0x70000 + (small State.reset).params.stepMax ≤ (0x7000C : Addr).toNat) := by decide

/-- An unwritten word next to the written one, or at the last index, in every buffer. -/
theorem witness_UnwrittenWordReadsAsDraw :
    (fullState.params.Valid ∧ busy fullState = false ∧ 65534 < fullState.params.fsMax ∧
      31 < fullState.params.stepMax ∧ fullState.mem.carrI.read? 65534 = none ∧
      fullState.mem.carrQ.read? 65534 = none ∧ fullState.mem.wave.read? 65534 = none ∧
      fullState.mem.txbits.read? 65534 = none ∧ fullState.mem.rxbits.read? 65534 = none ∧
      fullState.mem.log.read? (8 * 31 + 6) = none) ∧
    ((small State.reset).params.Valid ∧ busy (small State.reset) = false ∧
      15 < (small State.reset).params.fsMax ∧ 11 < (small State.reset).params.stepMax ∧
      (small State.reset).mem.carrI.read? 15 = none ∧ (small State.reset).mem.log.read? (8 * 11 + 7) = none) := by
  decide

/-- The first and the last address of each range. -/
theorem witness_ReadOnlyWritesAreIgnored : busy State.reset = false ∧
    1 ≤ (0x00001 : Addr).toNat ∧ (0x00003 : Addr).toNat ≤ 3 ∧ 0x0B ≤ (0x0000B : Addr).toNat ∧
    (0x00019 : Addr).toNat ≤ 0x19 ∧ (0x0001B : Addr).toNat = 0x1B ∧ 0x1D ≤ (0x0001D : Addr).toNat ∧
    (0x2FFFF : Addr).toNat ≤ 0x2FFFF ∧ 0x50000 ≤ (0x50000 : Addr).toNat ∧ 0x50000 ≤ (0x7FFFF : Addr).toNat ∧
    (busy (small State.reset) = false ∧ (small State.reset).params.fsMax ≤ (0x30010 : Addr).toNat % 0x10000 ∧
      (small State.reset).params.fsMax ≤ (0x4FFFF : Addr).toNat % 0x10000) := by
  decide

theorem witness_WritableTargetsStore : State.reset.params.Valid ∧ busy State.reset = false ∧
    0 < State.reset.params.fsMax ∧ 65535 < State.reset.params.fsMax := by decide

theorem witness_PrngSeedingAndReadback : busy qpskState = false := by decide

/-- V10 to V14: every scheme, and the largest configuration. -/
theorem witness_ConfigCommitsValidStaging :
    (∀ sc : Scheme, sc = .ask ∨ sc = .bpsk ∨ sc = .qpsk) ∧
    ((staged 65536 4000000000 2 0 2).params.Valid ∧ 1 ≤ (staged 65536 4000000000 2 0 2).stg.fs.toNat ∧
      (staged 65536 4000000000 2 0 2).stg.fs.toNat ≤ (staged 65536 4000000000 2 0 2).params.fsMax ∧
      1 ≤ (staged 65536 4000000000 2 0 2).stg.fc.toNat ∧ 1 ≤ (staged 65536 4000000000 2 0 2).stg.nbits.toNat ∧
      (staged 65536 4000000000 2 0 2).stg.fs.toNat % (staged 65536 4000000000 2 0 2).stg.nbits.toNat = 0 ∧
      (staged 65536 4000000000 2 0 2).stg.nbits.toNat % 2 = 0 ∧
      (staged 65536 4000000000 2 0 2).stg.scheme = 2) ∧
    ((staged 16 2 4 0 0).stg.scheme = 0 ∧ (staged 16 2 4 0 0).stg.fs.toNat % 4 = 0) ∧
    ((staged 1 1 1 0 1).stg.scheme = 1 ∧ (staged 1 1 1 0 1).stg.fs.toNat % 1 = 0) :=
  ⟨fun sc => by cases sc <;> simp, by decide, by decide, by decide⟩

/-- V15 to V19c: a staging for each failing check. -/
theorem witness_ConfigReportsFirstFailingCheck :
    (staged 8 1 2 0 3).stg.scheme = 3 ∧ (staged 0 1 2 0 1).stg.fs = 0 ∧
    (staged 65537 1 1 0 1).params.fsMax < (staged 65537 1 1 0 1).stg.fs.toNat ∧
    (small (staged 17 1 1 0 1)).params.fsMax < (small (staged 17 1 1 0 1)).stg.fs.toNat ∧
    ((staged 8 0 2 0 1).stg.fc = 0 ∧ 8 ≤ (staged 8 0 2 0 1).params.fsMax) ∧
    (staged 8 1 0 0 1).stg.nbits = 0 ∧
    (staged 100 10 8 0 2).stg.fs.toNat % (staged 100 10 8 0 2).stg.nbits.toNat ≠ 0 ∧
    ((staged 100 10 5 0 2).stg.scheme = 2 ∧
      (staged 100 10 5 0 2).stg.fs.toNat % (staged 100 10 5 0 2).stg.nbits.toNat = 0 ∧
      (staged 100 10 5 0 2).stg.nbits.toNat % 2 = 1) := by decide

theorem witness_ConfigEstablishesValidConfiguration : (staged 8 1 2 0 1).params.Valid ∧
    (staged 8 1 2 0 1).ctl.err = false ∧
    ∃ t, exec .config (staged 8 1 2 0 1) = .next t ∧ t.ctl.err = false := ⟨by decide, rfl, _, rfl, by decide⟩

theorem witness_GetNamePacksSchemeName : qpskState.ctl.cfgValid = true ∧ State.reset.ctl.cfgValid = false := by
  decide

theorem witness_UnconfiguredCommandsAreRefused :
    (State.reset.ctl.cfgValid = false ∧ Instr.runSweep 0 ≠ .config ∧ Instr.runSweep 0 ≠ .score ∧
      Instr.runSweep 0 ≠ .softReset) ∧
    State.reset.ctl.err = false ∧ ∃ t, exec .score State.reset = .next t ∧ t.ctl.err = true :=
  ⟨by decide, rfl, _, rfl, by decide⟩

theorem witness_FailingCommandChangesOnlyErrorRegisters : (∀ k, Instr.modulate ≠ .runSweep k) ∧
    State.reset.ctl.err = false ∧ ∃ t, exec .modulate State.reset = .next t ∧ t.ctl.err = true :=
  ⟨fun _ => by simp, rfl, _, rfl, by decide⟩

theorem witness_GenCarriersFillsReferences : qpskState.ctl.cfgValid = true ∧ bpskState.ctl.cfgValid = true := by
  decide

theorem witness_RomRangeAndSymmetry : (1 ≤ 1 ∧ 1 ≤ 65536) ∧ 0 < 1 ∧ 1 < 2 ∧ 65535 < 65536 := by decide

/-- V27: `FS = 4, FC = 2`. -/
theorem witness_DegenerateCarrierIsAllZero : (active .bpsk 4 2 2 2 2 2).ctl.cfgValid = true ∧
    (active .bpsk 4 2 2 2 2 2).cfg.Valid (active .bpsk 4 2 2 2 2 2).params ∧ (active .bpsk 4 2 2 2 2 2).cfg.scheme ≠ .qpsk ∧
    2 * (active .bpsk 4 2 2 2 2 2).cfg.fc.toNat % (active .bpsk 4 2 2 2 2 2).cfg.fs.toNat = 0 :=
  ⟨by decide, by constructor <;> decide, by decide, by decide⟩

theorem witness_GenBitsWritesTopBits : qpskState.ctl.cfgValid = true := by decide

/-- The hypotheses of MODULATE in each scheme, the first and the last sample, and written sources. -/
theorem witness_ModulateWritesKeyedCarriers :
    (askState.ctl.cfgValid = true ∧ askState.len.cilen = askState.cfg.fs ∧
      askState.len.txlen = askState.cfg.nbits ∧ askState.mem.txbits.read? (7 / 4) = some 1 ∧
      askState.mem.txbits.read? (0 / 4) = some 0 ∧ askState.mem.carrI.read? 7 = some (BitVec.ofInt 16 (-11585))) ∧
    (bpskState.ctl.cfgValid = true ∧ bpskState.len.cilen = bpskState.cfg.fs ∧
      bpskState.len.txlen = bpskState.cfg.nbits ∧ bpskState.mem.txbits.read? (7 / 4) = some 1 ∧
      bpskState.mem.carrI.read? 7 = some (BitVec.ofInt 16 (-11585))) ∧
    (qpskState.ctl.cfgValid = true ∧ qpskState.len.cilen = qpskState.cfg.fs ∧
      qpskState.len.cqlen = qpskState.cfg.fs ∧ qpskState.len.txlen = qpskState.cfg.nbits ∧
      qpskState.mem.txbits.read? (2 * (7 / 4)) = some 0 ∧ qpskState.mem.txbits.read? (2 * (7 / 4) + 1) = some 1 ∧
      qpskState.mem.carrI.read? 7 = some 11585 ∧
      qpskState.mem.carrQ.read? 7 = some (BitVec.ofInt 16 (-11585))) := by decide

/-- Everything MODULATE reads is written; ASK has no carrier sample where its bit is 0. -/
theorem witness_ModulateUsesNoDraw :
    (∀ k, k < askState.cfg.fs.toNat → ∃ b, askState.mem.txbits.read? (k / askState.cfg.spb.toNat) = some b ∧
      (b = 1 → ∃ c, askState.mem.carrI.read? k = some c)) ∧
    (∀ k, k < bpskState.cfg.fs.toNat → ∃ b c,
      bpskState.mem.txbits.read? (k / bpskState.cfg.spb.toNat) = some b ∧
      bpskState.mem.carrI.read? k = some c) ∧
    (∀ k, k < qpskState.cfg.fs.toNat → ∃ i q ci cq,
      qpskState.mem.txbits.read? (2 * (k / qpskState.cfg.sps.toNat)) = some i ∧
      qpskState.mem.txbits.read? (2 * (k / qpskState.cfg.sps.toNat) + 1) = some q ∧
      qpskState.mem.carrI.read? k = some ci ∧ qpskState.mem.carrQ.read? k = some cq) := by
  have ha : ∀ k, k < askState.cfg.fs.toNat →
      askState.mem.txbits.read? (k / askState.cfg.spb.toNat) = some (elem 1 [0, 1] (k / 4)) ∧
      askState.mem.carrI.read? k = some (elem 16 sine8 k) := by decide
  have hb : ∀ k, k < bpskState.cfg.fs.toNat →
      bpskState.mem.txbits.read? (k / bpskState.cfg.spb.toNat) = some (elem 1 [0, 1] (k / 4)) ∧
      bpskState.mem.carrI.read? k = some (elem 16 sine8 k) := by decide
  have hq : ∀ k, k < qpskState.cfg.fs.toNat →
      qpskState.mem.txbits.read? (2 * (k / qpskState.cfg.sps.toNat)) = some (elem 1 [1, 0, 0, 1] (2 * (k / 4))) ∧
      qpskState.mem.txbits.read? (2 * (k / qpskState.cfg.sps.toNat) + 1) =
        some (elem 1 [1, 0, 0, 1] (2 * (k / 4) + 1)) ∧
      qpskState.mem.carrI.read? k = some (elem 16 cosine8 k) ∧
      qpskState.mem.carrQ.read? k = some (elem 16 sine8 k) := by decide
  exact ⟨fun k hk => ⟨_, (ha k hk).1, fun _ => ⟨_, (ha k hk).2⟩⟩,
    fun k hk => ⟨_, _, hb k hk⟩, fun k hk => ⟨_, _, _, _, hq k hk⟩⟩

theorem qpsk_txbits_filled : qpskState.mem.txbits.filled qpskState.cfg.nbits.toNat := fun k hk =>
  ⟨elem 1 [1, 0, 0, 1] k, by
    have all : ∀ j, j < qpskState.cfg.nbits.toNat →
        qpskState.mem.txbits.read? j = some (elem 1 [1, 0, 0, 1] j) := by decide
    exact all k hk⟩

/-- In range: the carriers of V21. -/
theorem carriers_in_range : ∀ k, k < qpskState.cfg.fs.toNat →
    (qpskState.mem.carrI.read? k = some (elem 16 cosine8 k) ∧ -16384 ≤ (elem 16 cosine8 k).toInt ∧
      (elem 16 cosine8 k).toInt ≤ 16384) ∧
    (qpskState.mem.carrQ.read? k = some (elem 16 sine8 k) ∧ -16384 ≤ (elem 16 sine8 k).toInt ∧
      (elem 16 sine8 k).toInt ≤ 16384) := by decide

theorem witness_TransmittedSampleRange : qpskState.ctl.cfgValid = true ∧ qpskState.cfg.Valid qpskState.params ∧
    qpskState.ctl.err = false ∧ qpskState.mem.txbits.filled qpskState.cfg.nbits.toNat ∧
    (∀ k, k < qpskState.cfg.fs.toNat →
      ∃ c, qpskState.mem.carrI.read? k = some c ∧ -16384 ≤ c.toInt ∧ c.toInt ≤ 16384) ∧
    (∀ k, k < qpskState.cfg.fs.toNat →
      ∃ c, qpskState.mem.carrQ.read? k = some c ∧ -16384 ≤ c.toInt ∧ c.toInt ≤ 16384) ∧
    ∃ t, exec .modulate qpskState = .next t ∧ t.ctl.err = false :=
  ⟨by decide, qpsk_valid, by decide, qpsk_txbits_filled, fun k hk => ⟨_, (carriers_in_range k hk).1⟩,
    fun k hk => ⟨_, (carriers_in_range k hk).2⟩, _, rfl, by decide +kernel⟩

/-- Configured states that fail each check. -/
theorem witness_MissingArgumentsAreReportedInOrder :
    ((active .bpsk 8 1 2 4 2 4).ctl.cfgValid = true ∧
      (active .bpsk 8 1 2 4 2 4).len.cilen ≠ (active .bpsk 8 1 2 4 2 4).cfg.fs ∧
      0 ≤ (active .bpsk 8 1 2 4 2 4).cfg.noiseStd.toInt ∧
      (active .bpsk 8 1 2 4 2 4).len.wlen ≠ (active .bpsk 8 1 2 4 2 4).cfg.fs) ∧
    ((loaded (active .qpsk 8 1 4 2 2 4) cosine8 [] [] [] []).cfg.scheme = .qpsk ∧
      (loaded (active .qpsk 8 1 4 2 2 4) cosine8 [] [] [] []).len.cqlen ≠
        (loaded (active .qpsk 8 1 4 2 2 4) cosine8 [] [] [] []).cfg.fs) ∧
    ((loaded (active .bpsk 8 1 2 4 2 4) sine8 [] [0] [0] []).len.cilen = 8 ∧
      (loaded (active .bpsk 8 1 2 4 2 4) sine8 [] [0] [0] []).len.txlen ≠ 2 ∧
      (loaded (active .bpsk 8 1 2 4 2 4) sine8 [] [0] [0] []).len.wlen ≠ 8) ∧
    ((-1 : Half).toInt < 0 ∧ (-1 : Int) < 0 ∧ (0 : Int) ≤ 0) := by decide

theorem wave_written : ∀ k, k < bpskState.cfg.fs.toNat →
    bpskState.mem.wave.read? k = some (elem 32 bpskWave k) := by decide

theorem witness_AddNoiseAddsScaledVariates : bpskState.ctl.cfgValid = true ∧
    0 ≤ bpskState.cfg.noiseStd.toInt ∧ (0 : Int) ≤ 32767 ∧ bpskState.len.wlen = bpskState.cfg.fs ∧
    bpskState.mem.wave.filled bpskState.cfg.fs.toNat ∧
    bpskState.mem.wave.read? 0 = some 0 ∧ bpskState.mem.wave.read? 7 = some 11585 :=
  ⟨by decide, by decide, by decide, by decide, fun k hk => ⟨_, wave_written k hk⟩, by decide, by decide⟩

theorem witness_ZeroSigmaIsPassThrough :
    ({ bpskState with cfg := { bpskState.cfg with noiseStd := 0 } } : State).cfg.noiseStd = 0 ∧
    bpskState.ctl.cfgValid = true ∧ bpskState.len.wlen = bpskState.cfg.fs ∧
    bpskState.mem.wave.filled bpskState.cfg.fs.toNat :=
  ⟨rfl, by decide, by decide, fun k hk => ⟨_, wave_written k hk⟩⟩

theorem witness_NoiseIsBounded : (1 : Word) ≠ 0 ∧ (0xFFFFFFFF : Word) ≠ 0 ∧
    (0 : Int) ≤ 32767 ∧ (-27281 : Int) ≤ -27281 ∧ (27281 : Int) ≤ 27281 := by decide

theorem witness_DemodulateAskTakesMajority : askState.ctl.cfgValid = true ∧ askState.cfg.Valid askState.params ∧
    askState.cfg.scheme = .ask ∧ askState.len.cilen = askState.cfg.fs ∧ askState.len.wlen = askState.cfg.fs ∧
    ∀ k, k < askState.cfg.fs.toNat → askState.mem.wave.read? k = some (elem 32 askWave k) :=
  ⟨by decide, ask_valid, by decide, by decide, by decide, by decide⟩

theorem witness_DemodulateBpskTakesCorrelationSign : bpskState.ctl.cfgValid = true ∧ bpskState.cfg.Valid bpskState.params ∧
    bpskState.cfg.scheme = .bpsk ∧ bpskState.len.cilen = bpskState.cfg.fs ∧
    bpskState.len.wlen = bpskState.cfg.fs ∧
    ∀ k, k < bpskState.cfg.fs.toNat → bpskState.mem.wave.read? k = some (elem 32 bpskWave k) ∧
      bpskState.mem.carrI.read? k = some (elem 16 sine8 k) :=
  ⟨by decide, bpsk_valid, by decide, by decide, by decide, by decide⟩

theorem witness_DemodulateQpskTakesBothSigns : qpskState.ctl.cfgValid = true ∧ qpskState.cfg.Valid qpskState.params ∧
    qpskState.cfg.scheme = .qpsk ∧ qpskState.len.cilen = qpskState.cfg.fs ∧
    qpskState.len.cqlen = qpskState.cfg.fs ∧ qpskState.len.wlen = qpskState.cfg.fs ∧
    ∀ k, k < qpskState.cfg.fs.toNat → qpskState.mem.wave.read? k = some (elem 32 qpskWave k) ∧
      qpskState.mem.carrI.read? k = some (elem 16 cosine8 k) ∧
      qpskState.mem.carrQ.read? k = some (elem 16 sine8 k) :=
  ⟨by decide, qpsk_valid, by decide, by decide, by decide, by decide, by decide⟩

theorem witness_DemodulateIgnoresTransmittedBits : ∃ t, exec .demodulate qpskState = .next t := ⟨_, rfl⟩

/-- V32a, with a transmitted 0 and a transmitted 1. -/
theorem witness_BpskRoundTrip : bpskState.ctl.cfgValid = true ∧ bpskState.cfg.Valid bpskState.params ∧
    bpskState.ctl.err = false ∧ bpskState.cfg.scheme = .bpsk ∧ bpskState.len.cilen = bpskState.cfg.fs ∧
    bpskState.len.txlen = bpskState.cfg.nbits ∧
    (∀ j, j < bpskState.cfg.nbits.toNat → bpskState.mem.txbits.read? j = some (elem 1 [0, 1] j)) ∧
    (∀ k, k < bpskState.cfg.fs.toNat → bpskState.mem.carrI.read? k = some (elem 16 sine8 k)) ∧
    elem 1 [0, 1] 0 = 0 ∧ elem 1 [0, 1] 1 = 1 :=
  ⟨by decide, bpsk_valid, by decide, by decide, by decide, by decide, by decide, by decide, by decide, by decide⟩

/-- V32f; the first symbol's `abs(X)` lies below both energies (its segment products are computed here). -/
theorem witness_QpskRoundTrip : qpskState.ctl.cfgValid = true ∧ qpskState.cfg.Valid qpskState.params ∧
    qpskState.ctl.err = false ∧ qpskState.cfg.scheme = .qpsk ∧ qpskState.len.cilen = qpskState.cfg.fs ∧
    qpskState.len.cqlen = qpskState.cfg.fs ∧ qpskState.len.txlen = qpskState.cfg.nbits ∧
    (∀ j, j < qpskState.cfg.nbits.toNat → qpskState.mem.txbits.read? j = some (elem 1 [1, 0, 0, 1] j)) ∧
    (∀ k, k < qpskState.cfg.fs.toNat → qpskState.mem.carrI.read? k = some (elem 16 cosine8 k) ∧
      qpskState.mem.carrQ.read? k = some (elem 16 sine8 k)) ∧
    |segmentProduct (elem 16 cosine8) (elem 16 sine8) 4 0| <
      segmentProduct (elem 16 cosine8) (elem 16 cosine8) 4 0 ∧
    |segmentProduct (elem 16 cosine8) (elem 16 sine8) 4 0| < segmentProduct (elem 16 sine8) (elem 16 sine8) 4 0 :=
  ⟨by decide, qpsk_valid, by decide, by decide, by decide, by decide, by decide, by decide, by decide,
    by simp [segmentProduct, Finset.sum_range_succ]; decide, by simp [segmentProduct, Finset.sum_range_succ]; decide⟩

theorem witness_AskRoundTrip : askState.ctl.cfgValid = true ∧ askState.cfg.Valid askState.params ∧
    askState.ctl.err = false ∧ askState.cfg.scheme = .ask ∧ askState.len.cilen = askState.cfg.fs ∧
    askState.len.txlen = askState.cfg.nbits ∧
    (∀ j, j < askState.cfg.nbits.toNat → askState.mem.txbits.read? j = some (elem 1 [0, 1] j)) ∧
    (∀ k, k < askState.cfg.fs.toNat → askState.mem.carrI.read? k = some (elem 16 sine8 k)) ∧
    elem 1 [0, 1] 0 = 0 ∧ elem 1 [0, 1] 1 = 1 :=
  ⟨by decide, ask_valid, by decide, by decide, by decide, by decide, by decide, by decide, by decide, by decide⟩

theorem witness_ScoreCountsDifferingPositions : qpskState.len.txlen = qpskState.len.rxlen ∧
    1 ≤ qpskState.len.txlen.toNat ∧
    ∀ j, j < qpskState.len.txlen.toNat → qpskState.mem.txbits.read? j = some (elem 1 [1, 0, 0, 1] j) ∧
      qpskState.mem.rxbits.read? j = some (elem 1 [0, 1, 1, 0] j) := by decide

/-- Complementary sequences, and identical ones. -/
theorem witness_BerBounds : qpskState.ctl.err = false ∧
    (∃ t, exec .score qpskState = .next t ∧ t.ctl.err = false) ∧
    qpskState.mem.txbits.filled qpskState.len.txlen.toNat ∧
    (∀ j x, j < qpskState.len.txlen.toNat → qpskState.mem.txbits.read? j = some x →
      qpskState.mem.rxbits.read? j = some (x ^^^ 1)) ∧
    (∀ j, j < qpskState.len.txlen.toNat →
      ({ qpskState.mem with rxbits := qpskState.mem.txbits } : Memory).rxbits.read? j =
        qpskState.mem.txbits.read? j) := by
  refine ⟨by decide, ⟨_, rfl, by decide⟩, qpsk_txbits_filled, fun j x hj hx => ?_, fun _ _ => rfl⟩
  have all : ∀ j, j < qpskState.len.txlen.toNat →
      qpskState.mem.txbits.read? j = some (elem 1 [1, 0, 0, 1] j) ∧
      qpskState.mem.rxbits.read? j = some (elem 1 [1, 0, 0, 1] j ^^^ 1) := by decide
  obtain ⟨h1, h2⟩ := all j hj
  rw [hx] at h1
  rw [h2, Option.some.inj h1]

theorem witness_ScoreRejectsMismatchThenEmpty : (active .bpsk 8 1 2 4 2 4).len.txlen = 0 ∧
    (active .bpsk 8 1 2 4 2 4).len.txlen = (active .bpsk 8 1 2 4 2 4).len.rxlen ∧
    (loaded (active .bpsk 8 1 2 4 2 4) sine8 [] [0, 1] [] []).len.txlen ≠
      (loaded (active .bpsk 8 1 2 4 2 4) sine8 [] [0, 1] [] []).len.rxlen := by decide

theorem small_valid : (small bpskState).cfg.Valid (small bpskState).params := by constructor <;> decide

/-- The longest sweep of the largest block and of a smaller one, and a first and a last record. -/
theorem witness_RunSweepReachesDoneWithOrderedRecords :
    (bpskState.ctl.cfgValid = true ∧ bpskState.cfg.Valid bpskState.params ∧ 0 ≤ bpskState.params.stepMax ∧
      32 ≤ bpskState.params.stepMax ∧ 0 < 32 ∧ 31 < 32) ∧
    ((small bpskState).ctl.cfgValid = true ∧ (small bpskState).cfg.Valid (small bpskState).params ∧
      12 ≤ (small bpskState).params.stepMax) :=
  ⟨⟨by decide, bpsk_valid, by decide, by decide, by decide, by decide⟩, by decide, small_valid, by decide⟩

theorem witness_SweepIsManualTrials : qpskState.ctl.cfgValid = true ∧ qpskState.cfg.Valid qpskState.params ∧
    qpskState.ctl.err = false ∧ 32 ≤ qpskState.params.stepMax ∧ 0 < 32 ∧ 31 < 32 :=
  ⟨by decide, qpsk_valid, by decide, by decide, by decide, by decide⟩

theorem witness_StepCountAboveMaximumIsRefused : (bpskState.ctl.cfgValid = true ∧ bpskState.params.stepMax < 33) ∧
    (small bpskState).ctl.cfgValid = true ∧ (small bpskState).params.stepMax < 13 := by decide

/-- Two states that agree on what a trial reads and on nothing else it writes. -/
theorem witness_TrialReadsNothingOfEarlierTrials :
    let t : State := { qpskState with
      mem := { qpskState.mem with wave := [], txbits := [], rxbits := [] }
      len := { qpskState.len with txlen := 0, rxlen := 0, wlen := 0 } }
    qpskState.ctl.cfgValid = true ∧ t.ctl.cfgValid = true ∧ qpskState.ctl.err = false ∧ t.ctl.err = false ∧
    qpskState.cfg.Valid qpskState.params ∧ t.params = qpskState.params ∧ t.cfg = qpskState.cfg ∧
    t.prng = qpskState.prng ∧ t.askThresh = qpskState.askThresh ∧
    0 ≤ qpskState.cfg.noiseStd.toInt ∧ (0 : Int) ≤ 4096 ∧ qpskState.len.cilen = qpskState.cfg.fs ∧ t.len.cilen = qpskState.cfg.fs ∧
    (qpskState.len.cqlen = qpskState.cfg.fs ∧ t.len.cqlen = qpskState.cfg.fs) ∧
    (∀ k, k < qpskState.cfg.fs.toNat →
      ∃ c, qpskState.mem.carrI.read? k = some c ∧ t.mem.carrI.read? k = some c) ∧
    (∀ k, k < qpskState.cfg.fs.toNat →
      ∃ c, qpskState.mem.carrQ.read? k = some c ∧ t.mem.carrQ.read? k = some c) :=
  ⟨by decide, by decide, by decide, by decide, qpsk_valid, rfl, rfl, rfl, rfl, by decide, by decide, by decide, by decide,
    ⟨by decide, by decide⟩, fun k hk => ⟨_, (carriers_in_range k hk).1.1, (carriers_in_range k hk).1.1⟩,
    fun k hk => ⟨_, (carriers_in_range k hk).2.1, (carriers_in_range k hk).2.1⟩⟩

/-- Parameters R5 allows: the smallest and the largest block. -/
theorem witness_InvHoldsAtReset : Config.Params.Valid ⟨1, 12⟩ ∧ Config.Params.Valid ⟨65536, 32⟩ := by decide

theorem witness_StepKeepsParameters :
    shows (fun t => t.params) (step (facing .hardwareReset [] (small bpskState))) = some ⟨16, 12⟩ := by decide

/-- A configured state with its carriers and recovered bits in place meets the invariant. -/
theorem witness_StepKeepsInv : bpskState.Inv ∧
    ∃ t, step (facing (.hostWrite (regAddr .cmd) 0x00000001) [] bpskState) = .next t := by
  refine ⟨?_, _, rfl⟩
  exact {
    idle := rfl
    params := by decide
    config := fun _ => bpsk_valid
    unconfigured := fun h => nomatch h
    prng := by decide
    memory := by decide
    carrI := .inr ⟨by decide, by decide +kernel⟩
    carrQ := .inl (by decide)
    rxbits := .inr ⟨by decide, fun k hk => ⟨0, by
      have all : ∀ j, j < bpskState.cfg.nbits.toNat → bpskState.mem.rxbits.read? j = some 0 := by decide
      exact all k hk⟩⟩
    noError := fun _ => by decide
    error := fun h => nomatch h
    score := by decide
    sweep := .inl (by decide)
    log := fun k hk => absurd hk (Nat.not_lt_zero k) }

end Sys2Proof.Tests
end

/-! SUPPORT. The host's steps (R7, R95, R112, R312) and the parameters of the block (R5), the proofs
of StepRunsDecodedCommand, ResetWaitAndEndOfScript and StepKeepsParameters. -/

namespace Sys2Proof.Machine

/-- Without an error a CMD write of a word that decodes runs its command (R95). -/
theorem writeCmd_of_decode {s : State} {w : Word} {i : Instr} (herr : s.ctl.err = false)
    (hd : decode w = .ok i) : writeCmd w s = exec i s := by
  simp [writeCmd, herr, hd]

/-- Settles O5: the step hands the CMD write over, and an idle block without an error decodes it. -/
theorem stepRunsDecodedCommand : Obligations.StepRunsDecodedCommand := by
  intro s w i rest hscript hidle herr hd
  rw [step_of_script hscript]
  exact (hostWrite_cmd (s := { s with host := { s.host with script := rest } }) hidle w).trans
    (writeCmd_of_decode herr hd)

theorem hostWait_of_idle {s : State} (h : busy s = false) : hostWait s = s := by
  simp [hostWait, h]

/-- A busy block puts WAIT back in front of the script it was taken off (R112). -/
theorem hostWait_of_busy {s : State} (h : busy s = true) : hostWait s = facing .wait s.host.script s :=
  if_pos h

/-- Settles O11, item by item: `step_facing` takes the item off the script and hands it over. -/
theorem resetWaitAndEndOfScript : Obligations.ResetWaitAndEndOfScript := by
  refine ⟨fun s rest => ?reset, fun s rest hidle => ?idle, fun s rest hbusy => ?busy, fun s => step_of_empty⟩
  case reset => exact step_facing .hardwareReset rest s
  case idle =>
    rw [step_facing]
    exact congrArg Host.Outcome.next (hostWait_of_idle hidle)
  case busy =>
    rw [step_facing]
    exact congrArg Host.Outcome.next (hostWait_of_busy hbusy)

/-! ## No step changes the parameters (R5) -/

theorem configBody_final_params (P : Config.Params) (s : State) : (configBody P s).final.params = s.params := by
  rcases configBody_cases P s with ⟨c, h, -⟩ | ⟨sc, -, h, -⟩ <;> rw [h] <;> rfl

/-- A command keeps the parameters when its pseudocode does. -/
theorem runCommand_params {w : Word} {body : State → Completion}
    (hbody : ∀ s, (body s).final.params = s.params) {s t : State} (h : runCommand w body s = .next t) :
    t.params = s.params := by
  have hfinal := hbody (startCommand w s)
  rcases runCommand_cases w body s with ⟨u, hu, e⟩ | ⟨c, u, hu, e⟩
  all_goals
    rw [hu] at hfinal
    obtain rfl : _ = t := Host.Outcome.next.inj (e.symm.trans h)
    exact hfinal

theorem exec_params {i : Instr} {s t : State} (h : exec i s = .next t) : t.params = s.params := by
  by_cases hc : i = .config
  · subst hc
    exact runCommand_params (configBody_final_params s.params) h
  by_cases hr : i = .softReset
  · subst hr
    cases h
    rfl
  · obtain ⟨-, -, -, -, -, hp⟩ := exec_steady hc hr h
    exact hp

theorem writeCmd_params {w : Word} {s t : State} (h : writeCmd w s = .next t) : t.params = s.params := by
  rcases writeCmd_cases w s with ⟨-, -, e⟩ | ⟨-, -, e⟩ | ⟨-, i, -, e⟩ | ⟨-, c, -, e⟩
  case inr.inr.inl => exact exec_params (e.symm.trans h)
  all_goals
    cases e.symm.trans h
    rfl

theorem writePlace_params (p : Place) (v : Word) (s : State) : (writePlace p v s).params = s.params := by
  obtain ⟨_, _, _, _, _, _, _, h⟩ := writePlace_spec p v s
  rw [h]

theorem hostWrite_params {a : Addr} {v : Word} {s t : State} (h : hostWrite a v s = .next t) :
    t.params = s.params := by
  unfold hostWrite at h
  split at h
  · cases h
    rfl
  · split at h
    · exact writeCmd_params h
    · cases h
      exact writePlace_params _ v s

theorem hostRead_params (a : Addr) (s : State) : (hostRead a s).params = s.params := by
  obtain ⟨v, d, h⟩ := hostRead_spec a s
  rw [h]

theorem hostWait_params (s : State) : (hostWait s).params = s.params := by
  unfold hostWait
  split <;> rfl

theorem handleInput_params {x : Input} {s t : State} (h : handleInput x s = .next t) :
    t.params = s.params := by
  cases x with
  | hostWrite a v => exact hostWrite_params h
  | hostRead a =>
    cases h
    exact hostRead_params a s
  | wait =>
    cases h
    exact hostWait_params s
  | hardwareReset =>
    cases h
    rfl

/-- Settles O55: a step is a handled item or nothing, and no item changes the parameters. -/
theorem stepKeepsParameters : Obligations.StepKeepsParameters := by
  intro s t h
  rcases step_cases s with ⟨-, e⟩ | ⟨x, rest, -, e⟩
  · cases e.symm.trans h
    rfl
  · exact handleInput_params (s := { s with host := { s.host with script := rest } }) (e.symm.trans h)

end Sys2Proof.Machine

/-! SUPPORT. The reference functions of R10: the random generator, the rounding shared by the ROM and
the noise source, the symmetry of the ROM (R145), the bounds of R204; the proofs of
PrngNextIsXorshiftAndKeepsNonzero, RomRangeAndSymmetry and NoiseIsBounded. -/

namespace Sys2Proof.Machine

/-- Settles O29: a non-zero word has a non-zero successor, as each of the three shifts loses nothing. -/
theorem prngNextIsXorshiftAndKeepsNonzero : Obligations.PrngNextIsXorshiftAndKeepsNonzero := by
  refine ⟨fun x => ⟨_, _, rfl, rfl, rfl⟩, fun x => ⟨fun h => ?_, fun h => ?_⟩⟩
  · by_contra hx
    exact prngNext_ne_zero hx h
  · subst h
    decide

/-! ## Rounding -/

theorem abs_roundWithin_le (limit s : Nat) (v : Int) : |roundWithin limit s v| ≤ limit := by
  have hm := Nat.min_le_left limit ((v.natAbs + 2 ^ (s - 1)) / 2 ^ s)
  unfold roundWithin
  dsimp only
  split
  · rw [Nat.abs_cast]
    exact_mod_cast hm
  · rw [abs_neg, Nat.abs_cast]
    exact_mod_cast hm

theorem roundWithin_zero (limit : Nat) {s : Nat} (hs : 0 < s) : roundWithin limit s 0 = 0 := by
  have hhalf : 2 ^ (s - 1) / 2 ^ s = 0 := Nat.div_eq_of_lt (Nat.pow_lt_pow_right (by decide) (by omega))
  simp [roundWithin, hhalf]

/-- Rounding is odd: it rounds the magnitude. -/
theorem roundWithin_neg (limit : Nat) {s : Nat} (hs : 0 < s) (v : Int) :
    roundWithin limit s (-v) = -roundWithin limit s v := by
  rcases lt_trichotomy v 0 with h | rfl | h
  · simp [roundWithin, h.le, not_le.mpr h]
  · simp [roundWithin_zero limit hs]
  · simp [roundWithin, h.le, not_le.mpr h]

/-- A limit in the `s16` range makes the rounded value its own `s16` element. -/
theorem toInt_ofInt_roundWithin {limit : Nat} (hlimit : limit ≤ 32767) (s : Nat) (v : Int) :
    (BitVec.ofInt 16 (roundWithin limit s v)).toInt = roundWithin limit s v := by
  obtain ⟨hlo, hhi⟩ := abs_le.mp (abs_roundWithin_le limit s v)
  exact BitVec.toInt_ofInt_eq_self (by decide) (by norm_num; omega) (by norm_num; omega)

theorem roundedHalf_range {limit : Nat} (hlimit : limit ≤ 32767) (s : Nat) (v : Int) :
    -(limit : Int) ≤ (BitVec.ofInt 16 (roundWithin limit s v)).toInt ∧
      (BitVec.ofInt 16 (roundWithin limit s v)).toInt ≤ limit := by
  rw [toInt_ofInt_roundWithin hlimit]
  exact abs_le.mp (abs_roundWithin_le limit s v)

theorem sinq_toInt (p fs : Nat) : (sinq p fs).toInt = roundWithin 16384 (fixBits - 14) (fixSin p fs) :=
  toInt_ofInt_roundWithin (by decide) _ _

theorem cosq_toInt (p fs : Nat) : (cosq p fs).toInt = roundWithin 16384 (fixBits - 14) (fixCos p fs) :=
  toInt_ofInt_roundWithin (by decide) _ _

/-! ## The ROM at phase 0 -/

@[simp] theorem octantSin_zero (den : Nat) : octantSin 0 den = 0 := by
  simp [octantSin, octantAngle]

theorem cosHorner_zero_angle (n k : Nat) : cosHorner 0 n k = fixOne := by
  cases n <;> simp [cosHorner]

@[simp] theorem octantCos_zero (den : Nat) : octantCos 0 den = fixOne := by
  simp [octantCos, octantAngle, cosHorner_zero_angle]

theorem quadrantSin_zero {fs : Nat} (h : 0 < fs) : quadrantSin 0 fs = 0 := by
  simp [quadrantSin, h]

theorem quadrantCos_zero (fs : Nat) : quadrantCos 0 fs = fixOne := by
  simp [quadrantCos]

theorem fixSin_zero {fs : Nat} (h : 0 < fs) : fixSin 0 fs = 0 := by
  simp [fixSin, quadrantSin_zero h]

theorem fixCos_zero (fs : Nat) : fixCos 0 fs = fixOne := by
  simp [fixCos, quadrantCos_zero]

/-! ## The turn mirrored (R145): phase `fs - p` against phase `p` -/

/-- The sine of a quarter turn's angle is the cosine of its complement, exactly: both pick the same
octant function. -/
theorem quadrantCos_sub {r fs : Nat} (h : r ≤ fs) : quadrantCos (fs - r) fs = quadrantSin r fs := by
  by_cases hr : 2 * r < fs
  · simp [quadrantSin, quadrantCos, hr, show ¬ 2 * (fs - r) ≤ fs by omega, Nat.sub_sub_self h]
  · simp [quadrantSin, quadrantCos, hr, show 2 * (fs - r) ≤ fs by omega]

theorem quadrantSin_sub {r fs : Nat} (h : r ≤ fs) : quadrantSin (fs - r) fs = quadrantCos r fs := by
  rw [← quadrantCos_sub (Nat.sub_le fs r), Nat.sub_sub_self h]

theorem quadrant_lt {p fs : Nat} (h : p < fs) : 4 * p / fs < 4 := Nat.div_lt_of_lt_mul (by omega)

/-- Quadrant and remainder of the mirrored phase: a quadrant border goes to a border, and inside a
quadrant the remainder is complemented. -/
theorem quadrant_mirror {p fs : Nat} (h0 : 0 < p) (h1 : p < fs) :
    (4 * p % fs = 0 ∧ 4 * (fs - p) % fs = 0 ∧ 0 < 4 * p / fs ∧ 4 * (fs - p) / fs = 4 - 4 * p / fs) ∨
      (4 * (fs - p) % fs = fs - 4 * p % fs ∧ 4 * (fs - p) / fs = 3 - 4 * p / fs) := by
  have hfs : 0 < fs := by omega
  have hq := quadrant_lt h1
  have hr : 4 * p % fs < fs := Nat.mod_lt _ hfs
  have hsplit : 4 * p % fs + fs * (4 * p / fs) = 4 * p := Nat.mod_add_div _ _
  generalize 4 * p / fs = q at *
  generalize 4 * p % fs = r at *
  rcases Nat.eq_zero_or_pos r with rfl | hpos
  · have hq0 : 0 < q := Nat.pos_of_ne_zero (by rintro rfl; omega)
    obtain ⟨hdiv, hmod⟩ := (Nat.div_mod_unique (a := 4 * (fs - p)) (d := 4 - q) (c := 0) hfs).mpr
      ⟨by interval_cases q <;> omega, hfs⟩
    exact .inl ⟨rfl, hmod, hq0, hdiv⟩
  · obtain ⟨hdiv, hmod⟩ := (Nat.div_mod_unique (a := 4 * (fs - p)) (d := 3 - q) (c := fs - r) hfs).mpr
      ⟨by interval_cases q <;> omega, by omega⟩
    exact .inr ⟨hmod, hdiv⟩

/-- The fixed-point sine is odd and the cosine even around the turn: the mirrored quadrant swaps sine and
cosine of the quarter as the complement of the angle does. -/
theorem fixSin_sub_and_fixCos_sub {p fs : Nat} (h0 : 0 < p) (h1 : p < fs) :
    fixSin (fs - p) fs = -fixSin p fs ∧ fixCos (fs - p) fs = fixCos p fs := by
  have hq := quadrant_lt h1
  have hr : 4 * p % fs ≤ fs := (Nat.mod_lt _ (by omega)).le
  have hsin0 : quadrantSin 0 fs = 0 := quadrantSin_zero (by omega)
  simp only [fixSin, fixCos]
  rcases quadrant_mirror h0 h1 with ⟨hr0, hr0', hq0, hq'⟩ | ⟨hr', hq'⟩
  · rw [hr0, hr0', hq']
    generalize 4 * p / fs = q at *
    interval_cases q <;> simp [hsin0]
  · rw [hr', hq', quadrantSin_sub hr, quadrantCos_sub hr]
    generalize 4 * p / fs = q at *
    interval_cases q <;> simp

theorem sinq_zero {fs : Nat} (h : 0 < fs) : sinq 0 fs = 0 := by
  rw [sinq, fixSin_zero h, roundWithin_zero _ (by decide)]
  rfl

theorem cosq_zero (fs : Nat) : cosq 0 fs = 16384 := by
  rw [cosq, fixCos_zero]
  decide

/-- Settles O26: the range is the rounding's limit, the symmetry that of the fixed-point functions. -/
theorem romRangeAndSymmetry : Obligations.RomRangeAndSymmetry := by
  refine ⟨fun p fs => ?range, fun fs h => ⟨sinq_zero h, cosq_zero fs⟩, fun p fs h0 h1 => ⟨?odd, ?even⟩⟩
  case range => exact and_assoc.mp ⟨roundedHalf_range (by decide) _ _, roundedHalf_range (by decide) _ _⟩
  case odd =>
    obtain ⟨hsin, -⟩ := fixSin_sub_and_fixCos_sub h0 h1
    rw [sinq_toInt, sinq_toInt, hsin, roundWithin_neg _ (by decide), neg_neg]
  case even =>
    obtain ⟨-, hcos⟩ := fixSin_sub_and_fixCos_sub h0 h1
    rw [cosq_toInt, cosq_toInt, hcos]

/-! ## The noise (R204) -/

/-- Both variates of a generator state other than 0 are within the rounding's limit (R10). -/
theorem gauss_range {x1 : Word} (h : x1 ≠ 0) (x2 : Word) :
    (-27281 ≤ (gauss x1 x2).1.toInt ∧ (gauss x1 x2).1.toInt ≤ 27281) ∧
      (-27281 ≤ (gauss x1 x2).2.toInt ∧ (gauss x1 x2).2.toInt ≤ 27281) := by
  rw [gauss, if_neg h]
  exact ⟨roundedHalf_range (by decide) _ _, roundedHalf_range (by decide) _ _⟩

/-- The product `sigma * z` is at most `32767 * 27281` in magnitude, and scaling is monotone. -/
theorem noiseSample_range {sigma z : Int} (hsigma : |sigma| ≤ 32767) (hz : |z| ≤ 27281) :
    -872965 ≤ noiseSample sigma z ∧ noiseSample sigma z ≤ 872965 := by
  have hprod : |sigma * z| ≤ 32767 * 27281 := by
    rw [abs_mul]
    exact mul_le_mul hsigma hz (abs_nonneg z) (by decide)
  obtain ⟨hlo, hhi⟩ := abs_le.mp hprod
  unfold noiseSample asr
  omega

/-- Settles O36, by `gauss_range` and `noiseSample_range`. -/
theorem noiseIsBounded : Obligations.NoiseIsBounded := by
  refine ⟨fun x1 x2 h => and_assoc.mp (gauss_range h x2), fun sigma z h0 hsigma hlo hhi => ?_⟩
  exact noiseSample_range (abs_le.mpr ⟨by omega, hsigma⟩) (abs_le.mpr ⟨hlo, hhi⟩)

end Sys2Proof.Machine

/-! SUPPORT. The invariant of the machine over a step: the reset state has it, every command's pseudocode
keeps its clauses on everything but the control registers, `runCommand` adds those (R95, R290), and the host's
other items keep it; the proof of StepKeepsInv. -/

namespace Sys2Proof.Machine

/-! ## The invariant apart from the control registers -/

/-- The state with an idle sequencer and no error reported: of the control registers only CFG_VALID stays. -/
def quiet (s : State) : State :=
  { s with ctl := { State.reset.ctl with cfgValid := s.ctl.cfgValid } }

/-- What the pseudocode of a command keeps: the invariant, the sequencer and the error registers left out. -/
def Sound (s : State) : Prop := (quiet s).Inv

theorem State.Inv.sound {s : State} (h : s.Inv) : Sound s :=
  { h with idle := rfl, noError := fun _ => ⟨rfl, rfl⟩, error := nofun }

/-- After normal completion the invariant is what the pseudocode keeps, ERR being 0. -/
theorem Sound.inv_completeCommand {s : State} (h : Sound s) (herr : s.ctl.err = false)
    (hcode : s.ctl.errCode = 0 ∧ s.ctl.errCmd = 0) : (completeCommand s).Inv :=
  { h with
    idle := rfl
    noError := fun _ => hcode
    error := fun e => absurd (herr.symm.trans e) (by decide) }

/-- After error entry it is too, the running command being the one CMD holds. -/
theorem Sound.inv_enterError {s : State} (h : Sound s) {w : Word} (hdone : s.ctl.done = false)
    (hcmd : w = s.ctl.cmd) (c : Cause) : (enterError w c s).Inv :=
  { h with
    idle := rfl
    noError := nofun
    error := fun _ => ⟨hdone, hcmd, c, rfl⟩ }

@[simp] theorem Completion.final_ended (s : State) : (Completion.ended s).final = s := rfl
@[simp] theorem Completion.final_raised (c : Cause) (s : State) : (Completion.raised c s).final = s := rfl

/-- A command keeps the invariant when its pseudocode keeps it and leaves every control register but CFG_VALID
alone. -/
theorem inv_runCommand {w : Word} {body : State → Completion} {s t : State} (h : s.Inv)
    (herr : s.ctl.err = false) (hbody : Sound (startCommand w s) → Sound (body (startCommand w s)).final)
    (hctl : ∃ b, (body (startCommand w s)).final.ctl = { (startCommand w s).ctl with cfgValid := b })
    (ht : runCommand w body s = .next t) : t.Inv := by
  have hfinal := hbody h.sound
  obtain ⟨b, hctl⟩ := hctl
  rcases runCommand_cases w body s with ⟨u, hu, e⟩ | ⟨c, u, hu, e⟩
  all_goals obtain rfl : _ = t := Host.Outcome.next.inj (e.symm.trans ht)
  case inl =>
    rw [hu, Completion.final_ended] at hfinal hctl
    exact hfinal.inv_completeCommand (by rw [hctl]; exact herr) (by rw [hctl]; exact h.noError herr)
  case inr =>
    rw [hu, Completion.final_raised] at hfinal hctl
    exact hfinal.inv_enterError (by rw [hctl]; rfl) (by rw [hctl]; rfl) c

/-- The case of every command but CONFIG and SOFT_RESET. -/
theorem inv_runCommand_of_steady {w : Word} {body : State → Completion} {s t : State} (h : s.Inv)
    (herr : s.ctl.err = false) (hbody : ∀ u, u.params = s.params → Sound u → Sound (body u).final)
    (hsteady : ∀ u, Steady u (body u).final) (ht : runCommand w body s = .next t) : t.Inv :=
  inv_runCommand h herr (hbody _ rfl) ⟨_, (hsteady _).ctl⟩ ht

/-! ## The parts of a valid configuration the commands use -/

theorem Sound.valid {s : State} (h : Sound s) (hcfg : s.ctl.cfgValid = true) : s.cfg.Valid s.params :=
  h.config hcfg

theorem Sound.fs_le {s : State} (h : Sound s) (hcfg : s.ctl.cfgValid = true) : cfgFs s ≤ s.params.fsMax :=
  (h.valid hcfg).fs_le

theorem Sound.mem_wf {s : State} (h : Sound s) : s.mem.wf s.params := h.memory

theorem Sound.prng_ne_zero {s : State} (h : Sound s) : s.prng ≠ 0 := h.prng

theorem Sound.of_raised {s : State} (h : Sound s) {r : Completion} {c : Cause} (e : r = .raised c s) :
    Sound r.final := by
  rw [e]
  exact h

/-! ## A command raises with the state untouched, or its checks are met -/

theorem requireConfigured_raises_or (s : State) (rest : Completion) :
    (∃ c, requireConfigured s rest = .raised c s) ∨ s.ctl.cfgValid = true := by
  rcases requireElse_cases (s.ctl.cfgValid = true) .notConfigured s rest with ⟨h, -⟩ | ⟨-, e⟩
  · exact .inr h
  · exact .inl ⟨_, e⟩

theorem genCarriersBody_raises_or (s : State) : (∃ c, genCarriersBody s = .raised c s) ∨ s.ctl.cfgValid = true :=
  requireConfigured_raises_or s _

theorem genBitsBody_raises_or (s : State) : (∃ c, genBitsBody s = .raised c s) ∨ s.ctl.cfgValid = true :=
  requireConfigured_raises_or s _

theorem getNameBody_raises_or (s : State) : (∃ c, getNameBody s = .raised c s) ∨ s.ctl.cfgValid = true :=
  requireConfigured_raises_or s _

theorem modulateBody_raises_or (s : State) : (∃ c, modulateBody s = .raised c s) ∨
    s.ctl.cfgValid = true ∧ s.len.cilen = s.cfg.fs ∧ (s.cfg.scheme = .qpsk → s.len.cqlen = s.cfg.fs) ∧
      s.len.txlen = s.cfg.nbits := by
  simp only [modulateBody, requireConfigured, requireCarriers, requireElse]
  split_ifs with h1 h2 h3 h4
  · exact .inr ⟨h1, h2, h3, h4⟩
  all_goals exact .inl ⟨_, rfl⟩

theorem addNoiseBody_raises_or (src : SigmaSource) (s : State) : (∃ c, addNoiseBody src s = .raised c s) ∨
    s.ctl.cfgValid = true ∧ 0 ≤ sigmaOf src s ∧ s.len.wlen = s.cfg.fs := by
  simp only [addNoiseBody, requireConfigured, requireElse]
  split_ifs with h1 h2 h3
  · exact .inr ⟨h1, h2, h3⟩
  all_goals exact .inl ⟨_, rfl⟩

theorem demodulateBody_raises_or (s : State) : (∃ c, demodulateBody s = .raised c s) ∨
    s.ctl.cfgValid = true ∧ s.len.cilen = s.cfg.fs ∧ (s.cfg.scheme = .qpsk → s.len.cqlen = s.cfg.fs) ∧
      s.len.wlen = s.cfg.fs := by
  simp only [demodulateBody, requireConfigured, requireCarriers, requireElse]
  split_ifs with h1 h2 h3 h4
  · exact .inr ⟨h1, h2, h3, h4⟩
  all_goals exact .inl ⟨_, rfl⟩

theorem scoreBody_raises_or (s : State) : (∃ c, scoreBody s = .raised c s) ∨
    s.len.txlen = s.len.rxlen ∧ 1 ≤ s.len.txlen.toNat := by
  simp only [scoreBody, requireElse]
  split_ifs with h1 h2
  · exact .inr ⟨h1, h2⟩
  all_goals exact .inl ⟨_, rfl⟩

theorem runSweepBody_raises_or (P : Config.Params) (k : Nat) (s : State) :
    (∃ c, runSweepBody P k s = .raised c s) ∨ s.ctl.cfgValid = true ∧ k ≤ P.stepMax := by
  rcases requireElse_cases (s.ctl.cfgValid = true) .notConfigured s _ with ⟨h1, e1⟩ | ⟨-, e⟩
  · rcases requireElse_cases (k ≤ P.stepMax) .stepRange s _ with ⟨h2, -⟩ | ⟨-, e2⟩
    · exact .inr ⟨h1, h2⟩
    · exact .inl ⟨_, e1.trans e2⟩
  · exact .inl ⟨_, e⟩

/-! ## Each command's pseudocode keeps it -/

/-- A commit leaves all five sequences absent and a valid configuration (R121). -/
theorem sound_config {s : State} (h : Sound s) : Sound (configBody s.params s).final := by
  rcases configBody_cases s.params s with ⟨c, e, -⟩ | ⟨sc, -, e, h1, h2, h3, h4, h5, h6⟩ <;> rw [e]
  · exact h
  · exact { h with
      config := fun _ => committedConfig_valid h.params s.stg sc h1 h2 h3 h4 h5 h6
      unconfigured := nofun
      carrI := .inl rfl
      carrQ := .inl rfl
      rxbits := .inl rfl }

/-- GEN_CARRIERS fills the references its length registers announce (R142). -/
theorem sound_genCarriers {s : State} (h : Sound s) : Sound (genCarriersBody s).final := by
  rcases genCarriersBody_raises_or s with ⟨c, e⟩ | hcfg
  · exact h.of_raised e
  obtain ⟨ci, cq, e, hi, hq⟩ := genCarriersBody_spec s hcfg
  have hmem := wf_genCarriers h.mem_wf (h.fs_le hcfg)
  rw [e] at hmem ⊢
  refine { h with
    unconfigured := fun hf => absurd (hcfg.symm.trans hf) (by decide)
    memory := hmem
    carrI := .inr ⟨rfl, fun _ hk => hi.filled hk⟩
    carrQ := ?_ }
  show (if s.cfg.scheme = .qpsk then s.cfg.fs else 0) = 0 ∨
    (if s.cfg.scheme = .qpsk then s.cfg.fs else 0) = s.cfg.fs ∧ s.cfg.scheme = .qpsk ∧ _
  by_cases hs : s.cfg.scheme = .qpsk
  · rw [if_pos hs] at hq ⊢
    exact .inr ⟨rfl, hs, fun _ hk => hq.filled hk⟩
  · exact .inl (if_neg hs)

theorem sound_genBits {s : State} (h : Sound s) : Sound (genBitsBody s).final := by
  rcases genBitsBody_raises_or s with ⟨c, e⟩ | hcfg
  · exact h.of_raised e
  obtain ⟨tx, e, -⟩ := genBitsBody_spec s hcfg
  have hmem := wf_genBits h.mem_wf ((h.valid hcfg).nbits_le.trans (h.fs_le hcfg))
  rw [e] at hmem ⊢
  exact { h with memory := hmem, prng := prngNext_iterate_ne_zero h.prng_ne_zero _ }

theorem sound_modulate {s : State} (h : Sound s) : Sound (modulateBody s).final := by
  rcases modulateBody_raises_or s with ⟨c, e⟩ | ⟨hcfg, hci, hcq, htx⟩
  · exact h.of_raised e
  obtain ⟨w, d, e, -, -⟩ := modulateBody_spec s hcfg hci hcq htx
  have hmem := wf_modulate h.mem_wf (h.fs_le hcfg)
  rw [e] at hmem ⊢
  exact { h with memory := hmem }

theorem sound_addNoise (src : SigmaSource) {s : State} (h : Sound s) : Sound (addNoiseBody src s).final := by
  rcases addNoiseBody_raises_or src s with ⟨c, e⟩ | ⟨hcfg, hsigma, hw⟩
  · exact h.of_raised e
  obtain ⟨w, d, e, -, -⟩ := addNoiseBody_spec src s hcfg hsigma hw
  have hmem := wf_addNoise (src := src) h.mem_wf (h.fs_le hcfg)
  rw [e] at hmem ⊢
  exact { h with memory := hmem, prng := prngNext_iterate_ne_zero h.prng_ne_zero _ }

/-- Under every scheme DEMODULATE writes all `NBITS` recovered bits (R221). -/
theorem demodulateAll_filled (s : State) (hv : s.cfg.Valid s.params) : ∃ rx a q d,
    demodulateAll s = demodulated s rx { s.res with accI := a, accQ := q } d ∧
      rx.filled s.cfg.nbits.toNat := by
  cases hs : s.cfg.scheme with
  | ask =>
    obtain ⟨rx, a, d, e, ⟨hfill, -⟩, -⟩ := demodulateAll_ask s hv hs
    exact ⟨rx, a, 0, d, e, fun k hk => (hfill k hk).imp fun _ hx => hx.1⟩
  | bpsk =>
    obtain ⟨rx, a, d, e, ⟨hfill, -⟩, -⟩ := demodulateAll_bpsk s hv hs
    exact ⟨rx, a, 0, d, e, fun k hk => (hfill k hk).imp fun _ hx => hx.1⟩
  | qpsk =>
    obtain ⟨rx, a, q, d, e, hfill, -⟩ := demodulateAll_qpsk s hv hs
    refine ⟨rx, a, q, d, e, fun k hk => ?_⟩
    have hpairs := (hv.qpsk hs).1
    obtain ⟨v, u, -, -, hv, hu, -⟩ := hfill (k / 2) (by omega)
    rcases Nat.mod_two_eq_zero_or_one k with hpar | hpar
    · exact ⟨v, by rw [← hv]; congr 1; omega⟩
    · exact ⟨u, by rw [← hu]; congr 1; omega⟩

theorem sound_demodulate {s : State} (h : Sound s) : Sound (demodulateBody s).final := by
  rcases demodulateBody_raises_or s with ⟨c, e⟩ | ⟨hcfg, hci, hcq, hw⟩
  · exact h.of_raised e
  obtain ⟨rx, a, q, d, hall, hfill⟩ := demodulateAll_filled s (h.valid hcfg)
  have e := demodulateBody_of_checks s hcfg hci hcq hw
  rw [hall] at e
  have hmem := wf_demodulate h.mem_wf (h.valid hcfg)
  rw [e] at hmem ⊢
  exact { h with
    unconfigured := fun hf => absurd (hcfg.symm.trans hf) (by decide)
    memory := hmem
    rxbits := .inr ⟨rfl, hfill⟩ }

theorem sound_score {s : State} (h : Sound s) : Sound (scoreBody s).final := by
  rcases scoreBody_raises_or s with ⟨c, e⟩ | ⟨hlen, hpos⟩
  · exact h.of_raised e
  obtain ⟨n, d, e, hle, -⟩ := scoreBody_spec s hlen hpos
  rw [e]
  exact { h with score := hle }

theorem sound_getName {s : State} (h : Sound s) : Sound (getNameBody s).final := by
  rcases getNameBody_raises_or s with ⟨c, e⟩ | hcfg
  · exact h.of_raised e
  · rw [getNameBody, requireConfigured, requireElse_of hcfg]
    exact { h with }

/-- Every word of the records below `n` has been written: a record has eight words (R267). -/
theorem SweepAfter.log_filled {s t : State} {ci cq : Nat → Half} {n : Nat} (a : SweepAfter s ci cq n t) :
    t.mem.log.filled (8 * n) := by
  intro i hi
  have hlen : i % 8 < (recordWords s.cfg (i / 8) (sweepErrors s ci cq (i / 8))).length :=
    Nat.mod_lt i (by decide)
  have hread := a.records (i / 8) (by omega) (i % 8) _ (List.getElem?_eq_getElem hlen)
  rw [Nat.div_add_mod] at hread
  exact ⟨_, hread⟩

/-- The state RUN_SWEEP's loop starts in: INIT with an empty log, and the carriers just generated (R262). -/
def sweepStart (s : State) (ci cq : Buffer 16) : State :=
  { startSweep s with
    mem := { s.mem with carrI := ci, carrQ := cq }
    len := { s.len with cilen := s.cfg.fs, cqlen := if s.cfg.scheme = .qpsk then s.cfg.fs else 0 } }

/-- After a sweep's loop RXBITS and the score are those of its last step, or with no step those from before. -/
theorem SweepAfter.rxbits_and_score {s t : State} {ci cq : Buffer 16} {i q : Nat → Half} {n : Nat}
    (a : SweepAfter (sweepStart s ci cq) i q n t) (h : Sound s) :
    (t.len.rxlen = 0 ∨ t.len.rxlen = t.cfg.nbits ∧ t.mem.rxbits.filled t.cfg.nbits.toNat) ∧
      t.res.errCount.toNat ≤ t.res.berDen.toNat := by
  rcases Nat.eq_zero_or_pos n with hn | hn
  · rw [a.noSteps hn]
    exact ⟨h.rxbits, h.score⟩
  · obtain ⟨-, hrx, -, hden, herr, hfill⟩ := a.someSteps hn
    rw [hden, herr, a.cfg]
    exact ⟨.inr ⟨hrx, hfill⟩, sweepErrors_le _ i q _⟩

/-- The state a sweep of `n` steps ends in: DONE, with the records of its loop counted and written. -/
theorem SweepAfter.sound_endSweep {s t : State} {ci cq : Buffer 16} {n : Nat}
    (a : SweepAfter (sweepStart s ci cq) (inPhaseReference s.cfg) (quadratureReference s.cfg) n t)
    (h : Sound s) (hn : n ≤ s.params.stepMax) (hmem : t.mem.wf s.params) : Sound (endSweep n t) := by
  have hcfg : t.cfg = s.cfg := a.cfg
  have hparams : t.params = s.params := a.params
  have hprng : t.prng = prngNext^[n * trialDraws s.cfg] s.prng := a.prng
  have hready : TrialReady t (inPhaseReference t.cfg) (quadratureReference t.cfg) := by
    rw [hcfg]
    exact a.ready
  have hcount : t.sweep.logCount.toNat = n := by
    have hmax : s.params.stepMax ≤ 32 := h.params.2.2.2
    rw [a.logCount, BitVec.toNat_ofNat, Nat.mod_eq_of_lt (by omega)]
  obtain ⟨hrx, hscore⟩ := a.rxbits_and_score h
  exact {
    idle := rfl
    params := hready.valid.params
    config := fun _ => hready.valid
    unconfigured := fun hf => absurd (hready.configured.symm.trans hf) (by decide)
    prng := hprng ▸ prngNext_iterate_ne_zero h.prng_ne_zero _
    memory := hparams ▸ hmem
    carrI := .inr ⟨hready.cilen, hready.carrI⟩
    carrQ := by
      by_cases hs : t.cfg.scheme = .qpsk
      · exact .inr ⟨hready.cqlen hs, hs, hready.carrQ hs⟩
      · exact .inl (a.cqlen.trans (if_neg (hcfg ▸ hs)))
    rxbits := hrx
    noError := fun _ => ⟨rfl, rfl⟩
    error := nofun
    score := hscore
    sweep := .inr ⟨rfl, a.logCount.symm, hcount.trans_le (hparams ▸ hn)⟩
    log := hcount.symm ▸ a.log_filled }

/-- RUN_SWEEP can not raise once its two checks are met (R262, R268). -/
theorem sound_runSweep (k : Nat) {s : State} (h : Sound s) : Sound (runSweepBody s.params k s).final := by
  rcases runSweepBody_raises_or s.params k s with ⟨c, e⟩ | ⟨hcfg, hk⟩
  · exact h.of_raised e
  obtain ⟨ci, cq, t, e, -, -, a⟩ := runSweepBody_spec s.params k s hcfg (h.valid hcfg) hk
  have hmem := wf_runSweep (k := k) ⟨h.mem_wf, h.valid hcfg⟩
  rw [e] at hmem ⊢
  exact a.sound_endSweep h hk hmem

/-! ## Every item of the script keeps it -/

/-- In every block whose parameters R5 allows the reset state meets the invariant. -/
theorem resetWith_inv {P : Config.Params} (hP : P.Valid) : (State.resetWith P).Inv where
  idle := rfl
  params := hP
  config := nofun
  unconfigured := fun _ => ⟨rfl, rfl, rfl⟩
  prng := (by decide : Config.seedDefault ≠ 0)
  memory := memory_empty_wf P
  carrI := .inl rfl
  carrQ := .inl rfl
  rxbits := .inl rfl
  noError := fun _ => ⟨rfl, rfl⟩
  error := nofun
  score := Nat.le_refl _
  sweep := .inl rfl
  log := fun _ hk => absurd hk (Nat.not_lt_zero _)

/-- The invariant says nothing of the host's side and the count of draws. -/
theorem State.Inv.of_host {s : State} (h : s.Inv) (H : HostSide) (d : Nat) :
    State.Inv { s with host := H, draws := d } :=
  { h with }

theorem State.Inv.after_reset {s : State} (h : s.Inv) : (resetBlock s).Inv :=
  (resetWith_inv h.params).of_host s.host s.draws

theorem configBody_final_ctl (P : Config.Params) (s : State) :
    ∃ b, (configBody P s).final.ctl = { s.ctl with cfgValid := b } := by
  rcases configBody_cases P s with ⟨c, e, -⟩ | ⟨sc, -, e, -⟩ <;> rw [e] <;> exact ⟨_, rfl⟩

theorem inv_exec {i : Instr} {s t : State} (h : s.Inv) (herr : s.ctl.err = false) (ht : exec i s = .next t) :
    t.Inv := by
  cases i with
  | config => exact inv_runCommand h herr sound_config (configBody_final_ctl _ _) ht
  | softReset =>
    cases ht
    exact h.after_reset
  | genCarriers => exact inv_runCommand_of_steady h herr (fun _ _ => sound_genCarriers) steady_genCarriers ht
  | genBits => exact inv_runCommand_of_steady h herr (fun _ _ => sound_genBits) steady_genBits ht
  | modulate => exact inv_runCommand_of_steady h herr (fun _ _ => sound_modulate) steady_modulate ht
  | addNoise => exact inv_runCommand_of_steady h herr (fun _ _ => sound_addNoise _) (steady_addNoise _) ht
  | addNoiseI sigma => exact inv_runCommand_of_steady h herr (fun _ _ => sound_addNoise _) (steady_addNoise _) ht
  | demodulate => exact inv_runCommand_of_steady h herr (fun _ _ => sound_demodulate) steady_demodulate ht
  | score => exact inv_runCommand_of_steady h herr (fun _ _ => sound_score) steady_score ht
  | runSweep k =>
    exact inv_runCommand_of_steady h herr (fun _ hP => hP ▸ sound_runSweep k) (steady_runSweep _ k) ht
  | getName => exact inv_runCommand_of_steady h herr (fun _ _ => sound_getName) steady_getName ht

theorem inv_writeCmd {w : Word} {s t : State} (h : s.Inv) (ht : writeCmd w s = .next t) : t.Inv := by
  rcases writeCmd_cases w s with ⟨-, -, e⟩ | ⟨-, -, e⟩ | ⟨herr, i, -, e⟩ | ⟨-, c, -, e⟩
  case inr.inr.inl => exact inv_exec h herr (e.symm.trans ht)
  all_goals cases e.symm.trans ht
  · exact h.after_reset
  · exact h
  · exact { h with idle := rfl, noError := nofun, error := fun _ => ⟨rfl, rfl, _, rfl⟩ }

/-- A host write to PRNG never stores 0 (R162). -/
theorem writePlace_prng_ne_zero (p : Place) (v : Word) {s : State} (h : s.prng ≠ 0) :
    (writePlace p v s).prng ≠ 0 := by
  cases p with
  | reg r =>
    cases r with
    | prng =>
      show seedOf v ≠ 0
      unfold seedOf
      split
      · decide
      · assumption
    | _ => exact h
  | _ => exact h

theorem inv_writePlace {s : State} (h : s.Inv) (a : Addr) (v : Word) :
    (writePlace (placeOf s.params a) v s).Inv := by
  have hmem := writePlace_wf h.memory a v
  have hprng := writePlace_prng_ne_zero (placeOf s.params a) v h.prng
  obtain ⟨g, tx, w, th, x, b, wave, e⟩ := writePlace_spec (placeOf s.params a) v s
  rw [e] at hmem hprng ⊢
  exact { h with prng := hprng, memory := hmem }

/-- What a host write can be: dropped, a CMD write, or a write to another place of the map. -/
theorem hostWrite_cases (a : Addr) (v : Word) (s : State) :
    hostWrite a v s = .next s ∨ (a = regAddr .cmd ∧ hostWrite a v s = writeCmd v s) ∨
      hostWrite a v s = .next (writePlace (placeOf s.params a) v s) := by
  unfold hostWrite
  split_ifs with hbusy hcmd
  · exact .inl rfl
  · exact .inr (.inl ⟨placeOf_eq_reg hcmd, rfl⟩)
  · exact .inr (.inr rfl)

theorem inv_hostWrite {a : Addr} {v : Word} {s t : State} (h : s.Inv) (ht : hostWrite a v s = .next t) :
    t.Inv := by
  rcases hostWrite_cases a v s with e | ⟨-, e⟩ | e
  case inr.inl => exact inv_writeCmd h (e.symm.trans ht)
  all_goals cases e.symm.trans ht
  · exact h
  · exact inv_writePlace h a v

theorem inv_handleInput {x : Input} {s t : State} (h : s.Inv) (ht : handleInput x s = .next t) : t.Inv := by
  cases x with
  | hostWrite a v => exact inv_hostWrite h ht
  | hostRead a =>
    cases ht
    obtain ⟨v, d, e⟩ := hostRead_spec a s
    rw [e]
    exact h.of_host _ d
  | wait =>
    cases ht
    rw [hostWait_of_idle (by simp [busy, h.idle])]
    exact h
  | hardwareReset =>
    cases ht
    exact h.after_reset

/-- Settles O54: a step is a handled item or nothing, and every item keeps the invariant. -/
theorem stepKeepsInv : Obligations.StepKeepsInv := by
  intro s t h ht
  rcases step_cases s with ⟨-, e⟩ | ⟨x, rest, -, e⟩
  · cases e.symm.trans ht
    exact h
  · exact inv_handleInput (h.of_host { s.host with script := rest } s.draws) (e.symm.trans ht)

end Sys2Proof.Machine

/-! SUPPORT. The active configuration (R22, R121), the register map of the host's reads (R62) and writes
(R63), SOFT_RESET (R311); the proofs of ActiveConfigChangesOnlyByConfigOrReset, RegisterReads,
ReadOnlyWritesAreIgnored, WritableTargetsStore, ConfigEstablishesValidConfiguration and
SoftResetRestoresResetState. -/

namespace Sys2Proof.Machine

/-! ## CONFIG and SOFT_RESET -/

/-- Every way CONFIG ends: an error that leaves the active configuration alone, or the commit of a valid one
(R121). -/
theorem execConfig_cases {s t : State} (ht : exec .config s = .next t) :
    (t.cfg = s.cfg ∧ t.ctl.err = true) ∨
      ∃ sc, schemeOfCode s.stg.scheme = some sc ∧ t.cfg = committedConfig s.stg sc ∧ t.ctl.cfgValid = true ∧
        t.ctl.err = s.ctl.err ∧ (s.params.Valid → t.cfg.Valid s.params) := by
  rcases configBody_cases s.params (startCommand (encode .config) s) with
    ⟨c, e, -⟩ | ⟨sc, hsc, e, h1, h2, h3, h4, h5, h6⟩
  · cases (runCommand_of_raised e).symm.trans ht
    exact .inl ⟨rfl, rfl⟩
  · cases (runCommand_of_ended e).symm.trans ht
    exact .inr ⟨sc, hsc, rfl, rfl, rfl, fun hP => committedConfig_valid hP s.stg sc h1 h2 h3 h4 h5 h6⟩

/-- Settles O21: a CONFIG that ends without an error has committed, and what it commits is valid. -/
theorem configEstablishesValidConfiguration : Obligations.ConfigEstablishesValidConfiguration := by
  intro s t hP _ ht hok
  rcases execConfig_cases ht with ⟨-, herr⟩ | ⟨sc, -, -, -, -, hvalid⟩
  · exact absurd (hok.symm.trans herr) (by decide)
  · exact hvalid hP

/-- Settles O52: `resetBlock` is the reset state with the host's side, the parameters and the draws kept. -/
theorem softResetRestoresResetState : Obligations.SoftResetRestoresResetState := fun s =>
  ⟨resetBlock s, rfl, rfl, rfl, ⟨rfl, rfl, rfl, rfl, rfl, rfl, rfl, rfl⟩, rfl, rfl, rfl, rfl, rfl,
    (by decide : statusWord State.reset = 0), fun _ => ⟨rfl, rfl, rfl, rfl, rfl, rfl⟩, rfl, rfl⟩

/-! ## The words of CONFIG and SOFT_RESET (R93) -/

theorem decodeOpcode_eq_some {opc : BitVec 8} {imm : BitVec 16} {i : Instr} (h : decodeOpcode opc imm = some i) :
    opcodeOf i = opc ∧ modeOf i = 0 ∧ immOf i = if takesImmediate opc = true then imm else 0 := by
  unfold decodeOpcode at h
  split_ifs at h with h1 h2 h3 h4 h5 h6 h7 h8 h9 h10
  all_goals
    cases h
    subst opc
    exact ⟨rfl, rfl, by simp [immOf, takesImmediate]⟩

/-- The decoder reads every field of the word: a word that decodes is the word of its command. -/
theorem encode_of_decode {w : Word} {i : Instr} (h : decode w = .ok i) : encode i = w := by
  have fields : ∀ j, opcodeOf j = fieldOpc w → modeOf j = fieldM w → immOf j = fieldImm w → fieldRsv w = 0#7 →
      encode j = w := fun j ho hm hi hr => by
    rw [encode, ho, hm, hi, ← hr, word_eq_fields]
  unfold decode at h
  split at h
  · cases h
  · rename_i j hj
    obtain ⟨hopc, hmode, himm⟩ := decodeOpcode_eq_some hj
    split_ifs at h with hrsv hm h5 himm0
    · cases h
      exact fields _ h5.symm hm.symm (by simp [immOf]) (not_not.mp hrsv)
    · cases h
      refine fields _ hopc (hmode.trans ?_) (himm.trans ?_) (not_not.mp hrsv)
      · exact ((bit_eq_zero_or_one _).resolve_right hm).symm
      · by_cases ht : takesImmediate (fieldOpc w) = true
        · exact if_pos ht
        · rw [if_neg ht]
          by_contra hne
          exact himm0 ⟨by simpa using ht, fun e => hne e.symm⟩

/-! ## The active configuration changes only by CONFIG and by a reset -/

/-- A CMD write keeps the active configuration, or it is CONFIG's and commits, or it is SOFT_RESET's. -/
theorem writeCmd_cfg_cases {w : Word} {s t : State} (ht : writeCmd w s = .next t) :
    t.cfg = s.cfg ∨
      (w = encode .config ∧ ∃ sc, schemeOfCode s.stg.scheme = some sc ∧ t.cfg = committedConfig s.stg sc ∧
        t.ctl.cfgValid = true ∧ t.ctl.err = false) ∨
      (w = encode .softReset ∧ t.cfg = State.reset.cfg) := by
  rcases writeCmd_cases w s with ⟨-, hw, e⟩ | ⟨-, -, e⟩ | ⟨herr, i, hd, e⟩ | ⟨-, c, -, e⟩
  case inr.inr.inl =>
    have hw : w = encode i := (encode_of_decode hd).symm
    have hexec : exec i s = .next t := e.symm.trans ht
    by_cases hc : i = .config
    · subst hc
      rcases execConfig_cases hexec with ⟨hcfg, -⟩ | ⟨sc, hsc, hcfg, hvalid, hok, -⟩
      · exact .inl hcfg
      · exact .inr (.inl ⟨hw, sc, hsc, hcfg, hvalid, hok.trans herr⟩)
    by_cases hr : i = .softReset
    · subst hr
      cases hexec
      exact .inr (.inr ⟨hw, rfl⟩)
    · obtain ⟨-, hcfg, -⟩ := exec_steady hc hr hexec
      exact .inl hcfg
  all_goals cases e.symm.trans ht
  · exact .inr (.inr ⟨hw, rfl⟩)
  · exact .inl rfl
  · exact .inl rfl

theorem writePlace_cfg (p : Place) (v : Word) (s : State) : (writePlace p v s).cfg = s.cfg := by
  obtain ⟨_, _, _, _, _, _, _, e⟩ := writePlace_spec p v s
  rw [e]

theorem hostRead_cfg (a : Addr) (s : State) : (hostRead a s).cfg = s.cfg := by
  obtain ⟨v, d, e⟩ := hostRead_spec a s
  rw [e]

theorem hostWait_cfg (s : State) : (hostWait s).cfg = s.cfg := by
  unfold hostWait
  split <;> rfl

/-- Settles O9: of the items of the script only a CMD write and a hardware reset reach the active
configuration. -/
theorem activeConfigChangesOnlyByConfigOrReset : Obligations.ActiveConfigChangesOnlyByConfigOrReset := by
  intro s t ht hne
  rcases step_cases s with ⟨-, e⟩ | ⟨x, rest, hscript, e⟩
  · cases e.symm.trans ht
    exact absurd rfl hne
  have hx := e.symm.trans ht
  rw [hscript]
  cases x with
  | hostRead a =>
    cases hx
    exact absurd (hostRead_cfg a _) hne
  | wait =>
    cases hx
    exact absurd (hostWait_cfg _) hne
  | hardwareReset =>
    cases hx
    exact .inr (.inr ⟨rfl, rfl⟩)
  | hostWrite a v =>
    rcases hostWrite_cases a v { s with host := { s.host with script := rest } } with e | ⟨rfl, e⟩ | e
    case inr.inl =>
      rcases writeCmd_cfg_cases (e.symm.trans hx) with hcfg | ⟨rfl, hcommit⟩ | ⟨rfl, hcfg⟩
      · exact absurd hcfg hne
      · exact .inl ⟨rfl, hcommit⟩
      · exact .inr (.inl ⟨rfl, hcfg⟩)
    all_goals cases e.symm.trans hx
    · exact absurd rfl hne
    · exact absurd (writePlace_cfg _ v _) hne

/-! ## The register map: reads (R62) -/

theorem readsTo_reg {s : State} (h : busy s = false) (r : Reg) : readsTo s (regAddr r) (readReg s r) :=
  readsTo_of_place h (placeOf_regAddr _ r) fun _ => by cases r <;> rfl

/-- STATUS bit by bit, in an idle block (R24). -/
theorem statusWord_toNat_of_idle {s : State} (h : busy s = false) : (statusWord s).toNat =
    (if s.ctl.done = true then 2 else 0) + (if s.ctl.err = true then 4 else 0)
      + (if s.ctl.cfgValid = true then 8 else 0) := by
  unfold statusWord
  rw [h]
  generalize s.ctl.done = d, s.ctl.err = e, s.ctl.cfgValid = c
  revert d e c
  decide

/-- A 64-bit accumulator is its two words. -/
theorem acc_toNat_eq_words (a : Acc) :
    a.toNat = (a.extractLsb' 32 32).toNat * 2 ^ 32 + (a.extractLsb' 0 32).toNat := by
  have := a.isLt
  simp only [BitVec.extractLsb'_toNat, Nat.shiftRight_eq_div_pow]
  omega

/-- Settles O13, register by register of the map by `readsTo_reg`. -/
theorem registerReads : Obligations.RegisterReads := by
  intro s h
  have r := readsTo_reg h
  refine ⟨r .cmd, ⟨_, r .status, statusWord_toNat_of_idle h⟩, r .errCode, r .errCmd, r .stgFs, r .stgFc,
    r .stgNbits, r .stgNoiseStd, r .stgScheme, r .askThresh, r .prng, r .cfgFs, r .cfgFc, r .cfgNbits,
    r .cfgNoiseStd, ?scheme, r .spb, r .nsym, r .sps, r .cilen, r .cqlen, r .txlen, r .rxlen, r .wlen,
    r .errCount, r .berDen, r .name, ⟨_, _, r .accILo, r .accIHi, acc_toNat_eq_words _⟩,
    ⟨_, _, r .accQLo, r .accQHi, acc_toNat_eq_words _⟩, ?sweep, r .sweepStep, r .logCount⟩
  case scheme =>
    have hread : readsTo s 0x14 (zext32 (schemeCode s.cfg.scheme)) := r .cfgScheme
    generalize s.cfg.scheme = c at hread ⊢
    cases c <;> exact hread
  case sweep =>
    have hread : readsTo s 0x24 (sweepStateCode s.sweep.state) := r .sweepState
    generalize s.sweep.state = c at hread ⊢
    cases c <;> exact hread

/-! ## The register map: writes (R63) -/

/-- The places at which a host write stores something; at CMD it issues a command (R20, R63). -/
def Place.stored : Place → Bool
  | .reg .stgFs | .reg .stgFc | .reg .stgNbits | .reg .stgNoiseStd | .reg .stgScheme => true
  | .reg .askThresh | .reg .prng | .reg .txlen | .reg .wlen => true
  | .wave _ | .txbits _ => true
  | _ => false

theorem writePlace_of_not_stored {p : Place} (h : p.stored = false) (v : Word) (s : State) :
    writePlace p v s = s := by
  cases p with
  | reg r => cases r <;> simp [Place.stored, writePlace, writeReg] at h ⊢
  | wave k => exact nomatch h
  | txbits j => exact nomatch h
  | _ => rfl

theorem regAddr_of_stored {r : Reg} : (Place.reg r).stored = true →
    4 ≤ (regAddr r).toNat ∧ (regAddr r).toNat ≤ 0x0A ∨ (regAddr r).toNat = 0x1A ∨ (regAddr r).toNat = 0x1C := by
  cases r <;> decide

theorem lt_and_stored_of_within {depth k : Nat} {mk : Nat → Place} (h : (within depth mk k).stored = true) :
    k < depth ∧ (mk k).stored = true := by
  unfold within at h
  split at h
  · exact ⟨‹_›, h⟩
  · exact nomatch h

/-- The addresses of those places: the writable registers of R20, WAVE and TXBITS below FS_MAX. -/
theorem addr_of_stored {P : Config.Params} {a : Addr} (h : (placeOf P a).stored = true) :
    (4 ≤ a.toNat ∧ a.toNat ≤ 0x0A ∨ a.toNat = 0x1A ∨ a.toNat = 0x1C) ∨
      0x30000 ≤ a.toNat ∧ a.toNat ≤ 0x4FFFF ∧ a.toNat % 0x10000 < P.fsMax := by
  unfold placeOf at h
  dsimp only at h
  split at h
  case h_1 =>
    split at h
    · rename_i r hr
      have hindex := regAt_eq_some hr
      have haddr := regAddr_of_stored h
      omega
    · exact nomatch h
  all_goals obtain ⟨hk, hstored⟩ := lt_and_stored_of_within h
  case h_4 | h_5 => omega
  all_goals exact nomatch hstored

/-- A host write to a place that stores nothing changes nothing. -/
theorem writesTo_self_of_not_stored {s : State} (h : busy s = false) {a : Addr}
    (hstored : (placeOf s.params a).stored = false) (hcmd : placeOf s.params a ≠ .reg .cmd) (v : Word) :
    writesTo s a v s :=
  writesTo_of_place h rfl hcmd fun _ => writePlace_of_not_stored hstored v _

/-- Settles O16: its ranges hold neither the address of CMD nor that of a place that stores. -/
theorem readOnlyWritesAreIgnored : Obligations.ReadOnlyWritesAreIgnored := by
  intro s a v h ha
  refine writesTo_self_of_not_stored h ?_ (fun hcmd => ?_) v
  · by_contra hstored
    have haddr := addr_of_stored (Bool.of_not_eq_false hstored)
    omega
  · rw [placeOf_eq_reg hcmd] at ha
    simp [regAddr] at ha

/-- A host write to a register other than CMD stores what the register takes and changes nothing else. -/
theorem writesTo_reg {s : State} (h : busy s = false) {r : Reg} (hr : r ≠ .cmd) (v : Word) :
    writesTo s (regAddr r) v (writeReg r v s) :=
  writesTo_of_place h (placeOf_regAddr _ r) (by simpa using hr) fun _ => by cases r <;> rfl

/-- Settles O17, register by register and window by window of the map. -/
theorem writableTargetsStore : Obligations.WritableTargetsStore := by
  intro s v hP h
  have hmax : s.params.fsMax ≤ 65536 := hP.2.1
  have hlow : ∀ n, n ≤ 32 → v.setWidth n = v.extractLsb' 0 n := fun _ => BitVec.setWidth_eq_extractLsb'
  have w : ∀ r, r ≠ .cmd → writesTo s (regAddr r) v (writeReg r v s) := fun _ hr => writesTo_reg h hr v
  refine ⟨w .stgFs (by decide), w .stgFc (by decide), w .stgNbits (by decide), ?noise, ?scheme,
    w .askThresh (by decide), w .txlen (by decide), w .wlen (by decide), fun k hk => ?wave, fun j hj => ?txbits⟩
  case noise =>
    rw [hlow 16 (by decide)]
    exact w .stgNoiseStd (by decide)
  case scheme =>
    rw [hlow 2 (by decide)]
    exact w .stgScheme (by decide)
  case wave =>
    have hp : placeOf s.params (BitVec.ofNat 19 (0x30000 + k)) = .wave k :=
      (placeOf_window s.params 3 k (by decide) (by omega)).trans (within_of_lt _ hk)
    exact ⟨_, writesTo_of_place h hp nofun fun _ => rfl, fun n => Buffer.read?_write _ k n v⟩
  case txbits =>
    have hp : placeOf s.params (BitVec.ofNat 19 (0x40000 + j)) = .txbits j :=
      (placeOf_window s.params 4 j (by decide) (by omega)).trans (within_of_lt _ hj)
    rw [hlow 1 (by decide)]
    exact ⟨_, writesTo_of_place h hp nofun fun _ => rfl, fun n => Buffer.read?_write _ j n _⟩

end Sys2Proof.Machine

/-! SUPPORT. The host's reads: while the block is busy (R64), their frame (R62), the buffers, the noise table
and the unmapped addresses (R60, R66); that no item of the script stops the machine (R63, R97); two trials
from states that agree on what a trial reads (R73).  The proofs of BusyBlockDropsWrites,
StepAlwaysAnswersNext, HostReadHasNoSideEffect, BufferAndUnmappedReads, UnwrittenWordReadsAsDraw and
TrialReadsNothingOfEarlierTrials. -/

namespace Sys2Proof.Machine

/-! ## Two trials that start from the same configuration, seed, threshold and carriers (R73) -/

theorem sigmaOf_congr {s t : State} (h : t.cfg = s.cfg) (src : SigmaSource) : sigmaOf src t = sigmaOf src s := by
  cases src with
  | config => exact congrArg (fun c => c.noiseStd.toInt) h
  | immediate sigma => rfl
  | rom n => rfl

/-- The results and the generator after a trial depend on the active configuration, PRNG and ASK_THRESH alone. -/
theorem trialResult_congr {s t : State} (hcfg : t.cfg = s.cfg) (hprng : t.prng = s.prng)
    (hask : t.askThresh = s.askThresh) (ci cq : Nat → Half) (sigma : Int) (tx tx' : Buffer 1) (w w' : Buffer 32)
    (rx rx' : Buffer 1) :
    (trialResult t ci cq sigma tx' w' rx').res =
        { (trialResult s ci cq sigma tx w rx).res with name := t.res.name } ∧
      (trialResult t ci cq sigma tx' w' rx').prng = (trialResult s ci cq sigma tx w rx).prng := by
  simp only [trialResult, hcfg, hprng, trialErrors_congr hcfg hprng hask, trialSample_congr hcfg hprng,
    finalAccs_congr hcfg hask, and_self]

/-- The buffers after a trial agree below FS and NBITS, whatever they held before it. -/
theorem TrialBuffers.read?_congr {s t : State} (hcfg : t.cfg = s.cfg) (hprng : t.prng = s.prng)
    (hask : t.askThresh = s.askThresh) {ci cq : Nat → Half} {sigma : Int} {tx tx' : Buffer 1} {w w' : Buffer 32}
    {rx rx' : Buffer 1} (hs : TrialBuffers s ci cq sigma tx w rx) (ht : TrialBuffers t ci cq sigma tx' w' rx') :
    (∀ k, k < s.cfg.fs.toNat → w'.read? k = w.read? k) ∧
      ∀ j, j < s.cfg.nbits.toNat → tx'.read? j = tx.read? j ∧ rx'.read? j = rx.read? j := by
  obtain ⟨htx, hwave, hrx⟩ := ht
  rw [hcfg] at htx hwave hrx
  rw [hprng] at htx
  rw [trialSample_congr hcfg hprng] at hwave
  rw [trialBit_congr hcfg hprng hask] at hrx
  exact ⟨fun k hk => (hwave.filled hk).trans (hs.wave.filled hk).symm, fun j hj =>
    ⟨(htx.filled hj).trans (hs.tx.filled hj).symm, (hrx.filled hj).trans (hs.rx.filled hj).symm⟩⟩

/-- The two noise commands of a trial as one body, at the sigma the command takes (R201, R207). -/
theorem exists_sigmaSource {s : State} {noise : Instr} (h : (noise = .addNoise ∧ 0 ≤ s.cfg.noiseStd.toInt) ∨
    ∃ sigma, noise = .addNoiseI sigma ∧ 0 ≤ sigma) :
    ∃ src, (∀ u, exec noise u = runCommand (encode noise) (addNoiseBody src) u) ∧ 0 ≤ sigmaOf src s := by
  rcases h with ⟨rfl, hsigma⟩ | ⟨sigma, rfl, hsigma⟩
  · exact ⟨.config, fun _ => rfl, hsigma⟩
  · exact ⟨.immediate sigma, fun _ => rfl, hsigma⟩

/-- Settles O51: both trials run to the state `execAll_manualTrialWith` gives, which depends on nothing else. -/
theorem trialReadsNothingOfEarlierTrials : Obligations.TrialReadsNothingOfEarlierTrials := by
  intro s t noise hnoise hsc htc hse hte hv hparams hcfg hprng hask hsi hti hcqlen hcarrI hcarrQ
  obtain ⟨src, hexec, hsigma⟩ := exists_sigmaSource hnoise
  choose! ci hci using hcarrI
  choose! cq hcq using hcarrQ
  have hs : TrialReady s ci cq := ⟨hsc, hv, hsi, fun hq => (hcqlen hq).1, fun k hk => (hci k hk).1,
    fun hq k hk => (hcq hq k hk).1⟩
  have ht : TrialReady t ci cq := by
    constructor
    case configured => exact htc
    case valid => rwa [hcfg, hparams]
    case cilen => rwa [hcfg]
    case cqlen => rw [hcfg]; exact fun hq => (hcqlen hq).2
    case carrI => unfold CarrIIs; rw [hcfg]; exact fun k hk => (hci k hk).2
    case carrQ => unfold CarrQIs; rw [hcfg]; exact fun hq k hk => (hcq hq k hk).2
  obtain ⟨tx, w, rx, hbuf, hrun⟩ := execAll_manualTrialWith s ci cq hexec hs hse hsigma
  obtain ⟨tx', w', rx', hbuf', hrun'⟩ := execAll_manualTrialWith t ci cq hexec ht hte
    (by rwa [sigmaOf_congr hcfg])
  rw [sigmaOf_congr hcfg] at hbuf' hrun'
  obtain ⟨hres, hprng'⟩ := trialResult_congr hcfg hprng hask ci cq (sigmaOf src s) tx tx' w w' rx rx'
  obtain ⟨hwave, hbits⟩ := hbuf.read?_congr hcfg hprng hask hbuf'
  exact ⟨_, _, hrun, hrun', hse, hte, (congrArg Results.errCount hres :), (congrArg Results.berDen hres :), hprng',
    (congrArg Results.accI hres :), (congrArg Results.accQ hres :), hwave, hbits⟩

/-! ## Reads while the block is busy (R64) -/

/-- A read of STATUS is the same in a busy and in an idle block. -/
theorem readsTo_status (s : State) : readsTo s (regAddr .status) (statusWord s) := fun rest => by
  rw [step_facing, handleInput, hostRead, hostReadValue, if_neg (by simp), placeOf_regAddr]
  rfl

/-- In a busy block every other read is a draw. -/
theorem drawsTo_of_busy {s : State} (h : busy s = true) {a : Addr} (ha : a ≠ regAddr .status) :
    drawsTo s a (Config.freeWord s.draws) := fun rest => by
  have hplace : placeOf s.params a ≠ .reg .status := fun e => ha (placeOf_eq_reg e)
  rw [step_facing, handleInput, hostRead, hostReadValue, if_pos ⟨h, hplace⟩, drawn, BitVec.setWidth_eq]
  rfl

/-- Settles O7: the block drops the write, and only STATUS is read as in an idle block. -/
theorem busyBlockDropsWrites : Obligations.BusyBlockDropsWrites := fun s h =>
  ⟨step_write_busy h, readsTo_status s, fun _ rest ha => drawsTo_of_busy h ha rest⟩

/-! ## Every step answers a next state -/

theorem hostWrite_next (a : Addr) (v : Word) (s : State) : ∃ t, hostWrite a v s = .next t := by
  rcases hostWrite_cases a v s with h | ⟨-, h⟩ | h
  · exact ⟨_, h⟩
  · rw [h]
    exact writeCmd_next v s
  · exact ⟨_, h⟩

theorem handleInput_next (x : Input) (s : State) : ∃ t, handleInput x s = .next t := by
  cases x with
  | hostWrite a v => exact hostWrite_next a v s
  | hostRead a => exact ⟨_, rfl⟩
  | wait => exact ⟨_, rfl⟩
  | hardwareReset => exact ⟨_, rfl⟩

/-- Settles O8: a step is a handled item or nothing, and every item of the script answers a next state. -/
theorem stepAlwaysAnswersNext : Obligations.StepAlwaysAnswersNext := by
  intro s
  rcases step_cases s with ⟨-, h⟩ | ⟨x, rest, -, h⟩
  · exact ⟨s, h⟩
  · rw [h]
    exact handleInput_next x _

/-! ## The frame of a host read (R62) -/

/-- Settles O12, by `hostRead_spec` on the state without the item. -/
theorem hostReadHasNoSideEffect : Obligations.HostReadHasNoSideEffect := by
  intro s a rest
  obtain ⟨v, d, h⟩ := hostRead_spec a { s with host := { s.host with script := rest } }
  exact ⟨v, d, (step_facing (.hostRead a) rest s).trans (congrArg Host.Outcome.next h)⟩

/-! ## The windows of the six buffers (R60, R62, R66) -/

/-- In `s` the host reads element `k` of the buffer `b` at `a`, extended to a word. -/
def ElemAt {w : Nat} (s : State) (a : Addr) (b : Buffer w) (k : Nat) (extend : BitVec w → Word) : Prop :=
  ∃ p, placeOf s.params a = p ∧ ∀ H : HostSide, readPlace p { s with host := H } =
    (extend (fetchElem b k { s with host := H }).1, (fetchElem b k { s with host := H }).2)

theorem ElemAt.readsTo {w : Nat} {s : State} {a : Addr} {b : Buffer w} {k : Nat} {extend : BitVec w → Word}
    (h : ElemAt s a b k extend) (hidle : busy s = false) {x : BitVec w} (hx : b.read? k = some x) :
    readsTo s a (extend x) := by
  obtain ⟨p, hp, hread⟩ := h
  exact readsTo_of_place hidle hp fun _ => by rw [hread, fetchElem_of_some hx]

theorem ElemAt.drawsTo {w : Nat} {s : State} {a : Addr} {b : Buffer w} {k : Nat} {extend : BitVec w → Word}
    (h : ElemAt s a b k extend) (hidle : busy s = false) (hx : b.read? k = none) :
    drawsTo s a (extend ((Config.freeWord s.draws).setWidth w)) := fun rest => by
  obtain ⟨p, hp, hread⟩ := h
  rw [step_read_place hidle hp, hread, fetchElem_of_none hx]
  rfl

section
variable {s : State} (hP : s.params.Valid) {k : Nat}
include hP

theorem elemAt_carrI (hk : k < s.params.fsMax) :
    ElemAt s (BitVec.ofNat 19 (0x10000 + k)) s.mem.carrI k (BitVec.signExtend 32) :=
  ⟨_, (placeOf_window _ 1 k (by decide) (by omega)).trans (within_of_lt _ hk), fun _ => rfl⟩

theorem elemAt_carrQ (hk : k < s.params.fsMax) :
    ElemAt s (BitVec.ofNat 19 (0x20000 + k)) s.mem.carrQ k (BitVec.signExtend 32) :=
  ⟨_, (placeOf_window _ 2 k (by decide) (by omega)).trans (within_of_lt _ hk), fun _ => rfl⟩

theorem elemAt_wave (hk : k < s.params.fsMax) : ElemAt s (BitVec.ofNat 19 (0x30000 + k)) s.mem.wave k id :=
  ⟨_, (placeOf_window _ 3 k (by decide) (by omega)).trans (within_of_lt _ hk), fun _ => rfl⟩

theorem elemAt_txbits (hk : k < s.params.fsMax) :
    ElemAt s (BitVec.ofNat 19 (0x40000 + k)) s.mem.txbits k (BitVec.setWidth 32) :=
  ⟨_, (placeOf_window _ 4 k (by decide) (by omega)).trans (within_of_lt _ hk), fun _ => rfl⟩

theorem elemAt_rxbits (hk : k < s.params.fsMax) :
    ElemAt s (BitVec.ofNat 19 (0x50000 + k)) s.mem.rxbits k (BitVec.setWidth 32) :=
  ⟨_, (placeOf_window _ 5 k (by decide) (by omega)).trans (within_of_lt _ hk), fun _ => rfl⟩

theorem elemAt_log {r f : Nat} (hr : r < s.params.stepMax) (hf : f < 8) :
    ElemAt s (BitVec.ofNat 19 (0x60000 + 8 * r + f)) s.mem.log (8 * r + f) id := by
  rw [Nat.add_assoc]
  exact ⟨_, (placeOf_window _ 6 (8 * r + f) (by decide) (by omega)).trans (within_of_lt _ (by omega)),
    fun _ => rfl⟩

end

/-! ## SIGMA_ROM and the addresses without a place (R60) -/

theorem readsTo_sigmaRom {s : State} (hP : s.params.Valid) (h : busy s = false) {n : Nat}
    (hn : n < s.params.stepMax) : readsTo s (BitVec.ofNat 19 (0x70000 + n)) ((sigmaRomAt n).setWidth 32) :=
  readsTo_of_place h ((placeOf_window _ 7 n (by decide) (by omega)).trans (within_of_lt _ hn)) fun _ => rfl

theorem regAddr_not_reserved (r : Reg) : (regAddr r).toNat < 0x0B ∨
    0x0F < (regAddr r).toNat ∧ (regAddr r).toNat < 0x27 := by
  cases r <;> decide

theorem placeOf_eq_unmapped {P : Config.Params} {a : Addr}
    (h : 0x0B ≤ a.toNat ∧ a.toNat ≤ 0x0F ∨ 0x27 ≤ a.toNat ∧ a.toNat ≤ 0xFFFF ∨
      0x10000 ≤ a.toNat ∧ a.toNat ≤ 0x5FFFF ∧ P.fsMax ≤ a.toNat % 0x10000 ∨
      0x60000 + 8 * P.stepMax ≤ a.toNat ∧ a.toNat ≤ 0x6FFFF ∨ 0x70000 + P.stepMax ≤ a.toNat) :
    placeOf P a = .unmapped := by
  have ha := a.isLt
  unfold placeOf
  dsimp only
  split
  case h_1 =>
    split
    · rename_i r hr
      have hindex := regAt_eq_some hr
      have hmapped := regAddr_not_reserved r
      omega
    · rfl
  case h_8 h0 h1 h2 h3 h4 h5 h6 =>
    simp only [imp_false] at h0 h1 h2 h3 h4 h5 h6
    exact within_of_le _ (by omega)
  all_goals exact within_of_le _ (by omega)

theorem readsTo_unmapped {s : State} (h : busy s = false) {a : Addr} (ha : placeOf s.params a = .unmapped) :
    readsTo s a 0 :=
  readsTo_of_place h ha fun _ => rfl

/-- Settles O14, window by window of the map. -/
theorem bufferAndUnmappedReads : Obligations.BufferAndUnmappedReads := fun _ hP h =>
  ⟨fun _ _ hk => (elemAt_carrI hP hk).readsTo h, fun _ _ hk => (elemAt_carrQ hP hk).readsTo h,
    fun _ _ hk => (elemAt_wave hP hk).readsTo h, fun _ _ hj => (elemAt_txbits hP hj).readsTo h,
    fun _ _ hj => (elemAt_rxbits hP hj).readsTo h, fun _ _ _ hr hf => (elemAt_log hP hr hf).readsTo h,
    fun _ hn => readsTo_sigmaRom hP h hn, fun _ ha => readsTo_unmapped h (placeOf_eq_unmapped ha)⟩

/-- Settles O15, window by window of the map; a draw has the width of WAVE and LOG. -/
theorem unwrittenWordReadsAsDraw : Obligations.UnwrittenWordReadsAsDraw := by
  intro s hP h
  have whole : id ((Config.freeWord s.draws).setWidth 32) = Config.freeWord s.draws := BitVec.setWidth_eq _
  exact ⟨fun _ hk => (elemAt_carrI hP hk).drawsTo h, fun _ hk => (elemAt_carrQ hP hk).drawsTo h,
    fun _ hk hx => whole ▸ (elemAt_wave hP hk).drawsTo h hx, fun _ hj => (elemAt_txbits hP hj).drawsTo h,
    fun _ hj => (elemAt_rxbits hP hj).drawsTo h,
    fun _ _ hr hf hx => whole ▸ (elemAt_log hP hr hf).drawsTo h hx⟩

end Sys2Proof.Machine

/-! SUPPORT. The encoding of the commands (R91 to R94): the decoder on the fields of a word, the proofs of
DecodeOfEncode, EncodeOfDecode and WrittenWordsDecode. -/

namespace Sys2Proof

/-! ## The word of a command -/

/-- The two's complement of a sigma that fits the field gives it back (R92). -/
theorem toInt_immOf_addNoiseI {sigma : Int} (h : sigmaFits sigma) : (immOf (.addNoiseI sigma)).toInt = sigma := by
  obtain ⟨hlow, hhigh⟩ := h
  exact BitVec.toInt_ofInt_eq_self (by decide) hlow (by omega)

/-- A step count that fits the field is read back from it (R92). -/
theorem toNat_immOf_runSweep {k : Nat} (h : stepCountFits k) : (immOf (.runSweep k)).toNat = k :=
  (BitVec.toNat_ofNat k 16).trans (Nat.mod_eq_of_lt (Nat.lt_succ_of_le h))

theorem decode_encode {i : Instr} (h : i.wf = true) : decode (encode i) = .ok i := by
  unfold decode
  rw [fieldOpc_encode, fieldM_encode, fieldRsv_encode, fieldImm_encode]
  cases i with
  | addNoiseI sigma =>
    have hsigma := toInt_immOf_addNoiseI (of_decide_eq_true h)
    exact congrArg (fun v => Except.ok (Instr.addNoiseI v)) hsigma
  | runSweep k =>
    have hk := toNat_immOf_runSweep (of_decide_eq_true h)
    exact congrArg (fun n => Except.ok (Instr.runSweep n)) hk
  | _ => rfl

/-- Settles O1: each field of the word is the command's own, and `IMM16` holds the operand. -/
theorem decodeOfEncode : Obligations.DecodeOfEncode := fun _ => decode_encode

/-! ## The command of a word -/

theorem wf_addNoiseI_toInt (imm : BitVec 16) : (Instr.addNoiseI imm.toInt).wf = true := by
  have hlow : -32768 ≤ imm.toInt := imm.le_toInt
  have hhigh : imm.toInt < 32768 := imm.toInt_lt
  exact decide_eq_true ⟨hlow, by omega⟩

theorem wf_runSweep_toNat (imm : BitVec 16) : (Instr.runSweep imm.toNat).wf = true :=
  decide_eq_true (Nat.le_of_lt_succ imm.isLt)

theorem wf_of_decodeOpcode {opc : BitVec 8} {imm : BitVec 16} {i : Instr} (h : decodeOpcode opc imm = some i) :
    i.wf = true := by
  unfold decodeOpcode at h
  split_ifs at h with h1 h2 h3 h4 h5 h6 h7 h8 h9 h10
  all_goals cases h
  any_goals rfl
  exact wf_runSweep_toNat imm

theorem wf_of_decode {w : Word} {i : Instr} (h : decode w = .ok i) : i.wf = true := by
  unfold decode at h
  split at h
  · cases h
  · rename_i j hj
    split_ifs at h
    all_goals cases h
    · exact wf_addNoiseI_toInt _
    · exact wf_of_decodeOpcode hj

/-- Settles O2: no field of a word is ignored, and what `IMM16` holds fits it. -/
theorem encodeOfDecode : Obligations.EncodeOfDecode := fun _ _ h =>
  ⟨wf_of_decode h, Machine.encode_of_decode h⟩

/-- Settles O4, by evaluating the decoder on the eleven words. -/
theorem writtenWordsDecode : Obligations.WrittenWordsDecode := by
  unfold Obligations.WrittenWordsDecode
  decide

end Sys2Proof

/-! SUPPORT. The illegal command words (R94, R97) and ILLEGAL_CMD; the host's transactions in the error state
(R96); commands that raise (R95, R290); GET_NAME (R126).  The proofs of
IllegalWordsRaiseIllegalCmd, ErrorStateExecutesOnlyReset, FailingCommandChangesOnlyErrorRegisters and
GetNamePacksSchemeName. -/

namespace Sys2Proof.Machine

/-! ## The illegal words (R97) -/

/-- The reserved opcodes of R94 are those without a command. -/
theorem decodeOpcode_eq_none_iff (opc : BitVec 8) (imm : BitVec 16) : decodeOpcode opc imm = none ↔
    opc.toNat = 0 ∨ 0x0A ≤ opc.toNat ∧ opc.toNat ≤ 0x0E ∨ 0x10 ≤ opc.toNat := by
  unfold decodeOpcode
  split_ifs with h1 h2 h3 h4 h5 h6 h7 h8 h9 h10
  case neg => exact iff_of_true rfl (by bv_omega)
  all_goals exact iff_of_false nofun (by subst opc; decide)

/-- R97's list, said of the fields of the word. -/
theorem decode_error_iff (w : Word) : (∃ e, decode w = .error e) ↔
    decodeOpcode (fieldOpc w) (fieldImm w) = none ∨ fieldRsv w ≠ 0 ∨ (fieldM w = 1 ∧ fieldOpc w ≠ 0x05) ∨
      (fieldImm w ≠ 0 ∧ fieldOpc w ≠ 0x08 ∧ ¬ (fieldOpc w = 0x05 ∧ fieldM w = 1)) := by
  unfold decode
  cases decodeOpcode (fieldOpc w) (fieldImm w) with
  | none => exact iff_of_true ⟨_, rfl⟩ (.inl rfl)
  | some i =>
    dsimp only
    split_ifs with hrsv hm hopc himm
    · exact iff_of_true ⟨_, rfl⟩ (.inr (.inl hrsv))
    · exact iff_of_false nofun (by simp [not_not.mp hrsv, hm, hopc])
    · exact iff_of_true ⟨_, rfl⟩ (.inr (.inr (.inl ⟨hm, hopc⟩)))
    · obtain ⟨hformat, hne⟩ := himm
      exact iff_of_true ⟨_, rfl⟩ (.inr (.inr (.inr ⟨hne, beq_eq_false_iff_ne.mp hformat, fun h => hm h.2⟩)))
    · have hfield : fieldOpc w ≠ 0x08 → fieldImm w = 0 := fun h8 =>
        by_contra fun hne => himm ⟨beq_eq_false_iff_ne.mpr h8, hne⟩
      refine iff_of_false nofun ?_
      rintro (h | h | ⟨h, -⟩ | ⟨hne, h8, -⟩)
      · exact nomatch h
      · exact hrsv h
      · exact hm h
      · exact hne (hfield h8)

/-- In an idle block without an error such a word raises ILLEGAL_CMD and changes nothing else (R97, R290). -/
theorem writesTo_cmd_of_illegal {s : State} {w : Word} {e : Illegal} (hd : decode w = .error e)
    (hidle : busy s = false) (herr : s.ctl.err = false) :
    writesTo s (regAddr .cmd) w { s with ctl := errorCtl w .illegalCmd s } := fun rest => by
  rw [step_write_cmd hidle, writeCmd, if_neg (by simp [herr]), hd]
  rfl

/-- Settles O3: R97's list is `decode_error_iff` with the fields written as digits of the word. -/
theorem illegalWordsRaiseIllegalCmd : Obligations.IllegalWordsRaiseIllegalCmd := by
  refine ⟨fun w => ?_, fun w e s hd hidle herr => ⟨writesTo_cmd_of_illegal hd hidle herr, by decide⟩⟩
  rw [decode_error_iff, decodeOpcode_eq_none_iff]
  simp only [← BitVec.toNat_inj, ne_eq, fieldOpc_toNat, fieldM_toNat, fieldRsv_toNat, fieldImm_toNat]
  exact Iff.rfl

/-! ## The error state (R96) -/

/-- With an error reported, the word of SOFT_RESET alone is executed. -/
theorem writesTo_cmd_softReset {s : State} (hidle : busy s = false) (herr : s.ctl.err = true) :
    writesTo s (regAddr .cmd) (encode .softReset) (resetBlock s) := fun rest => by
  rw [step_write_cmd hidle, writeCmd, if_pos herr, if_pos rfl]
  rfl

theorem writesTo_cmd_ignored {s : State} {w : Word} (hidle : busy s = false) (herr : s.ctl.err = true)
    (hw : w ≠ encode .softReset) : writesTo s (regAddr .cmd) w s := fun rest => by
  rw [step_write_cmd hidle, writeCmd, if_pos herr, if_neg hw]

/-- The machine with its ERR bit at `e`. -/
def withErr (e : Bool) (s : State) : State := { s with ctl := { s.ctl with err := e } }

theorem withErr_of_err {s : State} {e : Bool} (h : s.ctl.err = e) : withErr e s = s := by
  subst h
  rfl

theorem writePlace_withErr (p : Place) (v : Word) (s : State) (e : Bool) :
    writePlace p v (withErr e s) = withErr e (writePlace p v s) := by
  have hctl : (writePlace p v s).ctl = s.ctl := by
    obtain ⟨_, _, _, _, _, _, _, h⟩ := writePlace_spec p v s
    rw [h]
  rw [withErr, writePlace_ctl, withErr, hctl]

theorem readPlace_withErr {p : Place} (hp : p ≠ .reg .status) (s : State) (e : Bool) :
    readPlace p (withErr e s) = ((readPlace p s).1, withErr e (readPlace p s).2) := by
  have hctl : (readPlace p s).2.ctl = s.ctl := by
    obtain ⟨_, _, h⟩ := readPlace_spec p s
    rw [h]
  rw [withErr, readPlace_err p hp, withErr, hctl]

/-- A host write to an address other than CMD neither reads nor writes ERR. -/
theorem step_write_withErr {s t : State} (hidle : busy s = false) {a : Addr} (ha : a ≠ regAddr .cmd) {v : Word}
    {rest : List Input} (h : step (facing (.hostWrite a v) rest s) = .next t) (e : Bool) :
    step (facing (.hostWrite a v) rest (withErr e s)) = .next (withErr e t) := by
  have hc : placeOf s.params a ≠ .reg .cmd := fun hp => ha (placeOf_eq_reg hp)
  cases (step_write_place hidle rfl hc v rest).symm.trans h
  exact (step_write_place (s := withErr e s) hidle rfl hc v rest).trans
    (congrArg Host.Outcome.next (writePlace_withErr _ v { s with host := { s.host with script := rest } } e))

/-- A host read of an address other than STATUS neither reads nor writes ERR. -/
theorem step_read_withErr {s t : State} (hidle : busy s = false) {a : Addr} (ha : a ≠ regAddr .status)
    {rest : List Input} (h : step (facing (.hostRead a) rest s) = .next t) (e : Bool) :
    step (facing (.hostRead a) rest (withErr e s)) = .next (withErr e t) := by
  have hc : placeOf s.params a ≠ .reg .status := fun hp => ha (placeOf_eq_reg hp)
  cases (step_read_place hidle rfl rest).symm.trans h
  have hread := readPlace_withErr hc { s with host := { s.host with script := rest } } e
  exact (step_read_place (s := withErr e s) hidle rfl rest).trans
    (congrArg (fun r => Host.Outcome.next (recordResult r)) hread)

/-- Settles O6: CMD by the two rules of R96, every other address by comparison with the state without the
error. -/
theorem errorStateExecutesOnlyReset : Obligations.ErrorStateExecutesOnlyReset := by
  intro s hidle herr
  have hback : withErr true (withErr false s) = s := withErr_of_err herr
  refine ⟨writesTo_cmd_softReset hidle herr, fun w hw => writesTo_cmd_ignored hidle herr hw,
    fun a v t ha h rest => ?write, fun a v d ha h rest => ?read, readsTo_status s⟩
  case write =>
    have hstep := step_write_withErr (s := withErr false s) hidle ha (h rest) true
    rwa [hback] at hstep
  case read =>
    have hstep := step_read_withErr (s := withErr false s) hidle ha (h rest) true
    rw [hback] at hstep
    exact hstep.trans (congrArg (fun u : State => Host.Outcome.next { u with
      host := { script := rest, results := s.host.results ++ [v] }, draws := d }) hback)

/-! ## Commands that raise (R95, R290) -/

/-- The pseudocode raises, if at all, from the state it started in. -/
def PreciseRaise (s : State) (r : Completion) : Prop := ∀ c t, r = .raised c t → t = s

theorem preciseRaise_ended (s t : State) : PreciseRaise s (.ended t) :=
  fun _ _ h => nomatch h

theorem preciseRaise_requireElse {c : Prop} [Decidable c] {e : Cause} {s : State} {rest : Completion}
    (h : PreciseRaise s rest) : PreciseRaise s (requireElse c e s rest) := by
  rcases requireElse_cases c e s rest with ⟨-, hr⟩ | ⟨-, hr⟩ <;> rw [hr]
  · exact h
  · rintro _ _ ⟨⟩
    rfl

theorem preciseRaise_config (P : Config.Params) (s : State) : PreciseRaise s (configBody P s) := by
  rcases configBody_cases P s with ⟨c, h, -⟩ | ⟨sc, -, h, -⟩ <;> rw [h]
  · rintro _ _ ⟨⟩
    rfl
  · exact preciseRaise_ended _ _

theorem preciseRaise_genCarriers (s : State) : PreciseRaise s (genCarriersBody s) :=
  preciseRaise_requireElse (preciseRaise_ended _ _)

theorem preciseRaise_genBits (s : State) : PreciseRaise s (genBitsBody s) :=
  preciseRaise_requireElse (preciseRaise_ended _ _)

theorem preciseRaise_modulate (s : State) : PreciseRaise s (modulateBody s) :=
  preciseRaise_requireElse (preciseRaise_requireElse (preciseRaise_requireElse (preciseRaise_requireElse
    (preciseRaise_ended _ _))))

theorem preciseRaise_addNoise (src : SigmaSource) (s : State) : PreciseRaise s (addNoiseBody src s) :=
  preciseRaise_requireElse (preciseRaise_requireElse (preciseRaise_requireElse (preciseRaise_ended _ _)))

theorem preciseRaise_demodulate (s : State) : PreciseRaise s (demodulateBody s) :=
  preciseRaise_requireElse (preciseRaise_requireElse (preciseRaise_requireElse (preciseRaise_requireElse
    (preciseRaise_ended _ _))))

theorem preciseRaise_score (s : State) : PreciseRaise s (scoreBody s) :=
  preciseRaise_requireElse (preciseRaise_requireElse (preciseRaise_ended _ _))

theorem preciseRaise_getName (s : State) : PreciseRaise s (getNameBody s) :=
  preciseRaise_requireElse (preciseRaise_ended _ _)

/-- A command whose pseudocode leaves ERR alone ends with an error only by raising it. -/
theorem runCommand_raised_of_err {w : Word} {body : State → Completion} {s t : State} (herr : s.ctl.err = false)
    (hbody : (body (startCommand w s)).final.ctl.err = s.ctl.err) (ht : runCommand w body s = .next t)
    (hterr : t.ctl.err = true) : ∃ c u, body (startCommand w s) = .raised c u ∧ t = enterError w c u := by
  rcases runCommand_cases w body s with ⟨u, hu, e⟩ | ⟨c, u, hu, e⟩ <;> cases e.symm.trans ht
  · rw [hu] at hbody
    exact absurd (hterr.symm.trans (hbody.trans herr)) (by decide)
  · exact ⟨c, u, hu, rfl⟩

/-- The case of a command whose errors are precise. -/
theorem runCommand_eq_of_err {w : Word} {body : State → Completion} {s t : State} (herr : s.ctl.err = false)
    (hbody : (body (startCommand w s)).final.ctl.err = s.ctl.err)
    (hraise : PreciseRaise (startCommand w s) (body (startCommand w s))) (ht : runCommand w body s = .next t)
    (hterr : t.ctl.err = true) : ∃ c, t = { s with ctl := errorCtl w c s } := by
  obtain ⟨c, u, hu, rfl⟩ := runCommand_raised_of_err herr hbody ht hterr
  obtain rfl := hraise c u hu
  exact ⟨c, rfl⟩

/-- Of these, the commands other than CONFIG and SOFT_RESET. -/
theorem runCommand_eq_of_steady {w : Word} {body : State → Completion} {s t : State} (herr : s.ctl.err = false)
    (hsteady : ∀ u, Steady u (body u).final) (hraise : ∀ u, PreciseRaise u (body u))
    (ht : runCommand w body s = .next t) (hterr : t.ctl.err = true) : ∃ c, t = { s with ctl := errorCtl w c s } :=
  runCommand_eq_of_err herr (congrArg Control.err (hsteady (startCommand w s)).ctl :) (hraise _) ht hterr

/-- Precise or not (R268): a command that ends with an error leaves R290's control registers. -/
theorem runCommand_ctl_of_err {w : Word} {body : State → Completion} {s t : State} (herr : s.ctl.err = false)
    (hsteady : ∀ u, Steady u (body u).final) (ht : runCommand w body s = .next t) (hterr : t.ctl.err = true) :
    ∃ c, t.ctl = errorCtl w c s := by
  have hctl := (hsteady (startCommand w s)).ctl
  obtain ⟨c, u, hu, rfl⟩ := runCommand_raised_of_err herr (congrArg Control.err hctl :) ht hterr
  rw [hu, Completion.final_raised] at hctl
  exact ⟨c, by rw [enterError_ctl, hctl]; rfl⟩

theorem exec_eq_of_err {i : Instr} {s t : State} (hi : ∀ k, i ≠ .runSweep k) (herr : s.ctl.err = false)
    (ht : exec i s = .next t) (hterr : t.ctl.err = true) : ∃ c, t = { s with ctl := errorCtl (encode i) c s } := by
  cases i with
  | config =>
    obtain ⟨b, hb⟩ := configBody_final_ctl s.params (startCommand (encode .config) s)
    exact runCommand_eq_of_err herr (congrArg Control.err hb :) (preciseRaise_config _ _) ht hterr
  | softReset =>
    cases ht
    exact nomatch hterr
  | runSweep k => exact absurd rfl (hi k)
  | genCarriers => exact runCommand_eq_of_steady herr steady_genCarriers preciseRaise_genCarriers ht hterr
  | genBits => exact runCommand_eq_of_steady herr steady_genBits preciseRaise_genBits ht hterr
  | modulate => exact runCommand_eq_of_steady herr steady_modulate preciseRaise_modulate ht hterr
  | addNoise => exact runCommand_eq_of_steady herr (steady_addNoise _) (preciseRaise_addNoise _) ht hterr
  | addNoiseI sigma => exact runCommand_eq_of_steady herr (steady_addNoise _) (preciseRaise_addNoise _) ht hterr
  | demodulate => exact runCommand_eq_of_steady herr steady_demodulate preciseRaise_demodulate ht hterr
  | score => exact runCommand_eq_of_steady herr steady_score preciseRaise_score ht hterr
  | getName => exact runCommand_eq_of_steady herr steady_getName preciseRaise_getName ht hterr

/-- Settles O24: RUN_SWEEP by what its pseudocode leaves alone, every other command by its precise errors. -/
theorem failingCommandChangesOnlyErrorRegisters : Obligations.FailingCommandChangesOnlyErrorRegisters := by
  intro s t i herr ht hterr
  by_cases hi : ∀ k, i ≠ .runSweep k
  · obtain ⟨c, rfl⟩ := exec_eq_of_err hi herr ht hterr
    exact ⟨c, rfl, rfl, fun _ => rfl⟩
  · obtain ⟨k, rfl⟩ : ∃ k, i = .runSweep k := by simpa using hi
    obtain ⟨c, hctl⟩ := runCommand_ctl_of_err herr (steady_runSweep s.params k) ht hterr
    exact ⟨c, hctl, congrArg Control.errCode hctl, fun hne => absurd rfl (hne k)⟩

/-! ## GET_NAME (R126) -/

theorem getNameBody_of_configured {s : State} (h : s.ctl.cfgValid = true) :
    getNameBody s = .ended { s with res := { s.res with name := nameCode s.cfg.scheme } } :=
  requireElse_of h _ _ _

theorem getNameBody_of_not_configured {s : State} (h : s.ctl.cfgValid = false) :
    getNameBody s = .raised .notConfigured s :=
  requireElse_of_not (by simp [h]) _ _ _

/-- Settles O22: the one check of GET_NAME decides between the name and NOT_CONFIGURED. -/
theorem getNamePacksSchemeName : Obligations.GetNamePacksSchemeName := by
  refine fun s => ⟨fun hcfg => ?named, fun hcfg => ?refused⟩
  case named =>
    have hbody := getNameBody_of_configured (s := startCommand (encode .getName) s) hcfg
    exact runCommand_of_ended hbody
  case refused => exact runCommand_of_raised (getNameBody_of_not_configured (s := startCommand _ s) hcfg)

end Sys2Proof.Machine

/-! SUPPORT. CONFIG's checks one by one, what it commits and what NOT_CONFIGURED guards (R121, R127, R281); the
degenerate carrier (R145, R232); the proofs of ConfigCommitsValidStaging, ConfigReportsFirstFailingCheck,
UnconfiguredCommandsAreRefused and DegenerateCarrierIsAllZero. -/

namespace Sys2Proof.Machine

/-! ## The ends of CONFIG, one by one (R121) -/

theorem configBody_of_reserved_scheme {P : Config.Params} {s : State} (h : s.stg.scheme = 3) :
    configBody P s = .raised .badScheme s := by
  rw [configBody, h]
  rfl

section
variable {P : Config.Params} {s : State} {sc : Scheme} (hsc : schemeOfCode s.stg.scheme = some sc)
include hsc

theorem configBody_of_zero_fs (h1 : ¬ 1 ≤ s.stg.fs.toNat) : configBody P s = .raised .zeroFs s := by
  rw [configBody_of_scheme hsc, requireElse_of_not h1]

theorem configBody_of_fs_gt (h1 : 1 ≤ s.stg.fs.toNat) (h2 : ¬ s.stg.fs.toNat ≤ P.fsMax) :
    configBody P s = .raised .capacity s := by
  rw [configBody_of_scheme hsc, requireElse_of h1, requireElse_of_not h2]

/-- CONFIG after its checks of FS. -/
theorem configBody_of_fs_accepted (hfs : 1 ≤ s.stg.fs.toNat ∧ s.stg.fs.toNat ≤ P.fsMax) : configBody P s =
    (requireElse (1 ≤ s.stg.fc.toNat) .zeroFc s <|
    requireElse (1 ≤ s.stg.nbits.toNat) .zeroBits s <|
    requireElse (s.stg.fs.toNat % s.stg.nbits.toNat = 0) .nonintegralDiv s <|
    requireElse (sc = .qpsk → s.stg.nbits.toNat % 2 = 0) .oddBitsQpsk s <|
    .ended (commitConfig sc s)) := by
  rw [configBody_of_scheme hsc, requireElse_of hfs.1, requireElse_of hfs.2]

variable (hfs : 1 ≤ s.stg.fs.toNat ∧ s.stg.fs.toNat ≤ P.fsMax)
include hfs

theorem configBody_of_zero_fc (h3 : ¬ 1 ≤ s.stg.fc.toNat) : configBody P s = .raised .zeroFc s := by
  rw [configBody_of_fs_accepted hsc hfs, requireElse_of_not h3]

variable (h3 : 1 ≤ s.stg.fc.toNat)
include h3

theorem configBody_of_zero_nbits (h4 : ¬ 1 ≤ s.stg.nbits.toNat) : configBody P s = .raised .zeroBits s := by
  rw [configBody_of_fs_accepted hsc hfs, requireElse_of h3, requireElse_of_not h4]

variable (h4 : 1 ≤ s.stg.nbits.toNat)
include h4

theorem configBody_of_nbits_not_dvd (h5 : ¬ s.stg.fs.toNat % s.stg.nbits.toNat = 0) :
    configBody P s = .raised .nonintegralDiv s := by
  rw [configBody_of_fs_accepted hsc hfs, requireElse_of h3, requireElse_of h4, requireElse_of_not h5]

variable (h5 : s.stg.fs.toNat % s.stg.nbits.toNat = 0)
include h5

theorem configBody_of_odd_nbits (h6 : ¬ (sc = .qpsk → s.stg.nbits.toNat % 2 = 0)) :
    configBody P s = .raised .oddBitsQpsk s := by
  rw [configBody_of_fs_accepted hsc hfs, requireElse_of h3, requireElse_of h4, requireElse_of h5,
    requireElse_of_not h6]

theorem configBody_of_valid (h6 : sc = .qpsk → s.stg.nbits.toNat % 2 = 0) :
    configBody P s = .ended (commitConfig sc s) := by
  rw [configBody_of_fs_accepted hsc hfs, requireElse_of h3, requireElse_of h4, requireElse_of h5,
    requireElse_of h6]

end

theorem one_le_toNat_iff {x : Word} : 1 ≤ x.toNat ↔ x ≠ 0 := by
  constructor <;> bv_omega

/-- Settles O20: the clauses follow the order of the checks, each by the lemma of its exit. -/
theorem configReportsFirstFailingCheck : Obligations.ConfigReportsFirstFailingCheck := by
  refine fun s => ⟨fun h => ?badScheme, fun hne => ?legalScheme, by decide⟩
  case badScheme => exact runCommand_of_raised (configBody_of_reserved_scheme (s := startCommand _ s) h)
  case legalScheme =>
    obtain ⟨h, -⟩ | ⟨sc, hsc, -⟩ := schemeOfCode_code (startCommand (encode .config) s).stg.scheme
    · exact absurd h hne
    refine ⟨fun h1 => ?zeroFs, fun h2 => ?capacity, fun hpos hle =>
      ⟨fun h3 => ?zeroFc, fun h3 => ⟨fun h4 => ?zeroBits, fun h4 => ⟨fun h5 => ?indivisible, fun h5 hq h6 => ?odd⟩⟩⟩⟩
    case zeroFs => exact runCommand_of_raised (configBody_of_zero_fs hsc (one_le_toNat_iff.not_left.mpr h1))
    case capacity => exact runCommand_of_raised (configBody_of_fs_gt hsc (Nat.one_le_of_lt h2) (Nat.not_le.mpr h2))
    case zeroFc =>
      exact runCommand_of_raised (configBody_of_zero_fc hsc ⟨hpos, hle⟩ (one_le_toNat_iff.not_left.mpr h3))
    all_goals rw [← one_le_toNat_iff] at h3
    case zeroBits =>
      exact runCommand_of_raised (configBody_of_zero_nbits hsc ⟨hpos, hle⟩ h3 (one_le_toNat_iff.not_left.mpr h4))
    all_goals rw [← one_le_toNat_iff] at h4
    case indivisible => exact runCommand_of_raised (configBody_of_nbits_not_dvd hsc ⟨hpos, hle⟩ h3 h4 h5)
    case odd =>
      obtain rfl : sc = .qpsk := Option.some.inj (hsc.symm.trans (congrArg schemeOfCode hq))
      refine runCommand_of_raised (configBody_of_odd_nbits hsc ⟨hpos, hle⟩ h3 h4 h5 fun heven => ?_)
      exact absurd (h6.symm.trans (heven rfl)) (by decide)

/-! ## What CONFIG commits (R121) -/

/-- A count at most a register's value fits a register. -/
theorem toNat_ofNat_of_le_toNat {n : Nat} {x : Word} (h : n ≤ x.toNat) : (BitVec.ofNat 32 n).toNat = n := by
  rw [BitVec.toNat_ofNat, Nat.mod_eq_of_lt (Nat.lt_of_le_of_lt h x.isLt)]

theorem symbolCount_le (sc : Scheme) (nb : Nat) : symbolCount sc nb ≤ nb := by
  unfold symbolCount
  split <;> omega

theorem committedConfig_spb_toNat (g : Staging) (sc : Scheme) :
    (committedConfig g sc).spb.toNat = g.fs.toNat / g.nbits.toNat :=
  toNat_ofNat_of_le_toNat (Nat.div_le_self _ _)

theorem committedConfig_nsym_toNat (g : Staging) (sc : Scheme) :
    (committedConfig g sc).nsym.toNat = symbolCount sc g.nbits.toNat :=
  toNat_ofNat_of_le_toNat (symbolCount_le _ _)

theorem committedConfig_sps_toNat (g : Staging) (sc : Scheme) :
    (committedConfig g sc).sps.toNat = g.fs.toNat / (committedConfig g sc).nsym.toNat := by
  rw [committedConfig_nsym_toNat]
  exact toNat_ofNat_of_le_toNat (Nat.div_le_self _ _)

/-- Settles O19: with its checks met CONFIG commits `committedConfig`, whose counts fit their registers. -/
theorem configCommitsValidStaging : Obligations.ConfigCommitsValidStaging := by
  intro s sc hcode _ hpos hle h3 h4 h5 h6
  have hsc : schemeOfCode s.stg.scheme = some sc := by
    rw [hcode]
    cases sc <;> rfl
  have hbody := configBody_of_valid (s := startCommand (encode .config) s) hsc ⟨hpos, hle⟩ h3 h4 h5 h6
  exact ⟨_, _, _, committedConfig_spb_toNat s.stg sc, committedConfig_nsym_toNat s.stg sc,
    committedConfig_sps_toNat s.stg sc, runCommand_of_ended hbody⟩

/-! ## NOT_CONFIGURED (R127) -/

theorem requireConfigured_of_not_configured {s : State} (h : s.ctl.cfgValid = false) (rest : Completion) :
    requireConfigured s rest = .raised .notConfigured s :=
  requireElse_of_not (by simp [h]) _ _ _

/-- A command whose pseudocode begins with the check of CFG_VALID is refused without a configuration. -/
theorem runCommand_of_not_configured {w : Word} {body : State → Completion} {s : State}
    (hbody : ∀ u, ∃ rest, body u = requireConfigured u rest) (h : s.ctl.cfgValid = false) :
    runCommand w body s = .next { s with ctl := errorCtl w .notConfigured s } := by
  obtain ⟨rest, hrest⟩ := hbody (startCommand w s)
  exact runCommand_of_raised (hrest.trans (requireConfigured_of_not_configured (s := startCommand w s) h rest))

theorem raises_notConfigured {s : State} {i : Instr} (h : s.ctl.cfgValid = false) (hc : i ≠ .config)
    (hs : i ≠ .score) (hr : i ≠ .softReset) : raises i .notConfigured s := by
  cases i with
  | config => exact absurd rfl hc
  | score => exact absurd rfl hs
  | softReset => exact absurd rfl hr
  | genCarriers | genBits | modulate | addNoise | addNoiseI | demodulate | runSweep | getName =>
    exact runCommand_of_not_configured (fun _ => ⟨_, rfl⟩) h

theorem eq_notConfigured_of_errCodeWord_eq {c : Cause} :
    errCodeWord c = errCodeWord .notConfigured → c = .notConfigured := by
  cases c <;> decide

theorem configBody_ne_notConfigured (P : Config.Params) (s u : State) :
    configBody P s ≠ .raised .notConfigured u := by
  rcases configBody_cases P s with ⟨c, e, hc⟩ | ⟨sc, -, e, -⟩ <;> rw [e]
  · rintro ⟨⟩
    exact hc rfl
  · exact nofun

theorem scoreBody_ne_notConfigured (s u : State) : scoreBody s ≠ .raised .notConfigured u := by
  simp only [scoreBody, requireElse]
  split_ifs <;> exact nofun

/-- A command that never raises NOT_CONFIGURED, started without an error, never ends with its code. -/
theorem runCommand_errCode_ne_notConfigured {w : Word} {body : State → Completion} {s t : State}
    (hbody : ∀ u v, body u ≠ .raised .notConfigured v) (herr : s.ctl.err = false)
    (hkeep : (body (startCommand w s)).final.ctl.err = s.ctl.err) (ht : runCommand w body s = .next t)
    (hterr : t.ctl.err = true) : t.ctl.errCode ≠ errCodeWord .notConfigured := by
  obtain ⟨c, u, hu, rfl⟩ := runCommand_raised_of_err herr hkeep ht hterr
  intro hcode
  obtain rfl := eq_notConfigured_of_errCodeWord_eq hcode
  exact hbody _ _ hu

/-- Settles O23: eight constructors share the check of CFG_VALID, the other three can not raise its cause. -/
theorem unconfiguredCommandsAreRefused : Obligations.UnconfiguredCommandsAreRefused := by
  refine ⟨fun s i h hc hs hr => raises_notConfigured h hc hs hr, ?exempt, by decide⟩
  rintro s t i (rfl | rfl | rfl) herr ht hterr
  case exempt.inl =>
    obtain ⟨b, hb⟩ := configBody_final_ctl s.params (startCommand (encode .config) s)
    exact runCommand_errCode_ne_notConfigured (configBody_ne_notConfigured s.params) herr
      (congrArg Control.err hb :) ht hterr
  case exempt.inr.inl =>
    exact runCommand_errCode_ne_notConfigured scoreBody_ne_notConfigured herr
      (congrArg Control.err (steady_score _).ctl :) ht hterr
  case exempt.inr.inr =>
    cases ht
    exact nomatch hterr

/-! ## The degenerate carrier (R145, R232) -/

/-- At a multiple of half a turn the quadrant is even and its remainder 0. -/
theorem fixSin_of_dvd {p fs : Nat} (hfs : 0 < fs) (h : fs ∣ 2 * p) : fixSin p fs = 0 := by
  obtain ⟨m, hm⟩ := h
  have hturn : 4 * p = fs * (2 * m) := by
    rw [Nat.mul_left_comm, ← hm]
    omega
  have hquadrant : 2 * m % 4 = 0 ∨ 2 * m % 4 = 2 := by omega
  rw [fixSin, hturn, Nat.mul_mod_right, Nat.mul_div_cancel_left _ hfs, quadrantSin_zero hfs]
  rcases hquadrant with h | h <;> rw [h] <;> rfl

theorem sinq_of_dvd {p fs : Nat} (hfs : 0 < fs) (h : fs ∣ 2 * p) : sinq p fs = 0 := by
  rw [sinq, fixSin_of_dvd hfs h, roundWithin_zero _ (by decide)]
  rfl

/-- With a carrier of whole half turns a sample every phase is one too. -/
theorem dvd_two_mul_phaseAt {c : ActiveConfig} (h : c.fs.toNat ∣ 2 * c.fc.toNat) (k : Nat) :
    c.fs.toNat ∣ 2 * phaseAt c k := by
  have hphase : 2 * phaseAt c k ≡ k * (2 * c.fc.toNat) [MOD c.fs.toNat] := by
    rw [Nat.mul_left_comm]
    exact (Nat.mod_modEq _ _).mul_left 2
  exact (hphase.dvd_iff dvd_rfl).mpr (h.mul_left k)

/-- Settles O28: GEN_CARRIERS fills CARR_I with sines at whole half turns. -/
theorem degenerateCarrierIsAllZero : Obligations.DegenerateCarrierIsAllZero := by
  intro s hcfg hvalid hscheme hmod
  have hfs : 0 < s.cfg.fs.toNat := Nat.lt_of_lt_of_le hvalid.nbits_pos hvalid.nbits_le
  obtain ⟨ci, cq, hbody, hci, -⟩ := genCarriersBody_spec (startCommand (encode .genCarriers) s) hcfg
  refine ⟨_, runCommand_of_ended hbody, fun k hk => (hci.filled hk).trans (congrArg some ?_)⟩
  calc inPhaseReference s.cfg k = sinq (phaseAt s.cfg k) s.cfg.fs.toNat := if_neg hscheme
    _ = 0 := sinq_of_dvd hfs (dvd_two_mul_phaseAt (Nat.dvd_of_mod_eq_zero hmod) k)

end Sys2Proof.Machine

/-! SUPPORT. The tables of R146; the proofs of GenCarriersFillsReferences and RomTables. -/

namespace Sys2Proof.Machine

/-! ## The references GEN_CARRIERS writes (R141, R142, R143) -/

/-- A prefix under a condition that does not depend on the index, read at any index. -/
theorem Buffer.Prefixed.read?_of_ite {w n : Nat} {c : Prop} [Decidable c] {f : Nat → BitVec w} {old b : Buffer w}
    (h : Buffer.Prefixed (if c then n else 0) f old b) (k : Nat) :
    b.read? k = if c ∧ k < n then some (f k) else old.read? k := by
  by_cases hc : c <;> simpa [hc] using h k

/-- Settles O25: GEN_CARRIERS ends as `genCarriersBody_spec` says, and R142's references are the model's
`inPhaseReference` and `quadratureReference`. -/
theorem genCarriersFillsReferences : Obligations.GenCarriersFillsReferences := by
  intro s hcfg
  obtain ⟨ci, cq, hbody, hci, hcq⟩ := genCarriersBody_spec (startCommand (encode .genCarriers) s) hcfg
  exact ⟨ci, cq, runCommand_of_ended hbody, hci, hcq.read?_of_ite⟩

/-! ## The ROM tables (R146) -/

/-- Settles O27: each of the eight tables is evaluated on its own. -/
theorem romTables : Obligations.RomTables := by
  refine ⟨?_, ?_, ?_, ?_, ?_, ?_, ?_, ?_⟩ <;> decide

end Sys2Proof.Machine

/-! SUPPORT. The bit a generator state gives (R163) and the seed register (R162); the proofs of
GenBitsWritesTopBits and PrngSeedingAndReadback. -/

namespace Sys2Proof.Machine

theorem dataBit_eq_ofBool (x : Word) : dataBit x = BitVec.ofBool (x.getLsbD 31) := by
  ext i hi
  obtain rfl : i = 0 := by omega
  simp [dataBit, BitVec.getElem_extractLsb']

/-- Settles O30: GEN_BITS ends as `genBitsBody_spec` says, and the bit it writes is bit 31 of the generator. -/
theorem genBitsWritesTopBits : Obligations.GenBitsWritesTopBits := by
  intro s hcfg
  obtain ⟨tx, hbody, htx⟩ := genBitsBody_spec (startCommand (encode .genBits) s) hcfg
  refine ⟨tx, runCommand_of_ended hbody, fun j => ?_⟩
  rw [← dataBit_eq_ofBool]
  exact htx j

/-- Settles O18: PRNG's own lines of the register map, where a write stores `seedOf v`. -/
theorem prngSeedingAndReadback : Obligations.PrngSeedingAndReadback :=
  ⟨fun _ v h => writesTo_reg h (r := .prng) (by decide) v, fun _ h => readsTo_reg h .prng, rfl⟩

end Sys2Proof.Machine

/-! SUPPORT. The checks MODULATE, ADD_NOISE and DEMODULATE make after CFG_VALID (R176, R201, R221) and the range of a
transmitted sample (R177); the proofs of ModulateWritesKeyedCarriers, TransmittedSampleRange and
MissingArgumentsAreReportedInOrder. -/

namespace Sys2Proof.Machine

/-! ## The waveform MODULATE writes (R176) -/

/-- Settles O31: MODULATE ends as `modulateBody_spec` says, and `SampleFits` is the rule of the three schemes. -/
theorem modulateWritesKeyedCarriers : Obligations.ModulateWritesKeyedCarriers := by
  intro s hcfg hci hcq htx
  obtain ⟨w, d, hbody, ⟨hfill, habove⟩, hd⟩ :=
    modulateBody_spec (startCommand (encode .modulate) s) hcfg hci hcq htx
  refine ⟨w, d, runCommand_of_ended hbody, fun k hk => (hfill k hk).imp fun _ h => h.1, habove, hd, fun k hk => ?_⟩
  obtain ⟨v, hv, hfits⟩ := hfill k hk
  simp only [hv, Option.some.injEq]
  exact hfits

/-! ## The range of a transmitted sample (R177) -/

/-- The range of a carrier sample (R10, R177). -/
def CarrierInRange (c : Half) : Prop := -16384 ≤ c.toInt ∧ c.toInt ≤ 16384

theorem keyedSample_toInt (b : Bit) (c : Half) :
    (keyedSample b c).toInt = if b = 1 then -c.toInt else c.toInt := by
  have hlt := BitVec.toInt_lt (x := c)
  have hle := BitVec.le_toInt (x := c)
  norm_num at hlt hle
  rw [keyedSample_eq]
  split <;> exact BitVec.toInt_ofInt_eq_self (by decide) (by norm_num; omega) (by norm_num; omega)

theorem keyedSample_range {c : Half} (hc : CarrierInRange c) (b : Bit) :
    -16384 ≤ (keyedSample b c).toInt ∧ (keyedSample b c).toInt ≤ 16384 := by
  obtain ⟨hlow, hhigh⟩ := hc
  rw [keyedSample_toInt]
  split <;> omega

theorem sext32_range {c : Half} (hc : CarrierInRange c) : -16384 ≤ (sext32 c).toInt ∧ (sext32 c).toInt ≤ 16384 :=
  keyedSample_range hc 0

/-- Such a sum does not wrap in 32 bits. -/
theorem keyedSum_range {ci cq : Half} (hi : CarrierInRange ci) (hq : CarrierInRange cq) (i q : Bit) :
    -32768 ≤ (keyedSample i ci + keyedSample q cq).toInt ∧
      (keyedSample i ci + keyedSample q cq).toInt ≤ 32768 := by
  obtain ⟨hi1, hi2⟩ := keyedSample_range hi i
  obtain ⟨hq1, hq2⟩ := keyedSample_range hq q
  rw [BitVec.toInt_add, Int.bmod_eq_of_le] <;> omega

theorem sentSample_range_of_ne_qpsk {c : ActiveConfig} (hc : c.scheme ≠ .qpsk) (b : Nat → Bit) {ci : Nat → Half}
    (cq : Nat → Half) {k : Nat} (hi : CarrierInRange (ci k)) :
    -16384 ≤ (sentSample c b ci cq k).toInt ∧ (sentSample c b ci cq k).toInt ≤ 16384 := by
  cases hs : c.scheme with
  | ask =>
    simp only [sentSample, hs]
    split
    · exact sext32_range hi
    · decide
  | bpsk =>
    simp only [sentSample, hs]
    exact keyedSample_range hi _
  | qpsk => exact absurd hs hc

theorem sentSample_range {c : ActiveConfig} (b : Nat → Bit) {ci cq : Nat → Half} {k : Nat}
    (hi : CarrierInRange (ci k)) (hq : c.scheme = .qpsk → CarrierInRange (cq k)) :
    -32768 ≤ (sentSample c b ci cq k).toInt ∧ (sentSample c b ci cq k).toInt ≤ 32768 := by
  by_cases hc : c.scheme = .qpsk
  · simp only [sentSample, hc]
    exact keyedSum_range hi (hq hc) _ _
  · obtain ⟨hlow, hhigh⟩ := sentSample_range_of_ne_qpsk hc b cq hi
    omega

/-- MODULATE ends without an error only with its four checks met. -/
theorem modulate_checks_of_no_error {s t : State} (ht : exec .modulate s = .next t) (herr : t.ctl.err = false) :
    s.ctl.cfgValid = true ∧ s.len.cilen = s.cfg.fs ∧ (s.cfg.scheme = .qpsk → s.len.cqlen = s.cfg.fs) ∧
      s.len.txlen = s.cfg.nbits := by
  rcases modulateBody_raises_or (startCommand (encode .modulate) s) with ⟨c, hbody⟩ | hchecks
  · cases (runCommand_of_raised hbody).symm.trans ht
    exact nomatch herr
  · exact hchecks

/-- Settles O32: a MODULATE without an error has sent `sentSample` of the bits and carriers the state holds. -/
theorem transmittedSampleRange : Obligations.TransmittedSampleRange := by
  intro s t hcfg hvalid _ hbits hI hQ ht herr k hk
  choose! b hb using hbits
  choose! ci hci hciRange using hI
  choose! cq hcq hcqRange using hQ
  obtain ⟨-, hcilen, hcqlen, htxlen⟩ := modulate_checks_of_no_error ht herr
  obtain ⟨w, hbody, hw⟩ := modulateBody_written (startCommand (encode .modulate) s) b ci cq hcfg hvalid hcilen
    hcqlen htxlen hb hci hcq
  cases (runCommand_of_ended hbody).symm.trans ht
  exact ⟨_, hw.filled hk, fun hne => sentSample_range_of_ne_qpsk hne b cq (hciRange k hk),
    sentSample_range b (hciRange k hk) fun hq => hcqRange hq k hk⟩

/-! ## The checks after CFG_VALID, in their order (R176, R201, R221) -/

theorem requireConfigured_of_configured {s : State} (h : s.ctl.cfgValid = true) (rest : Completion) :
    requireConfigured s rest = rest :=
  requireElse_of h _ _ _

/-- The carriers the active scheme needs are there (R176, R221). -/
def CarriersPresent (s : State) : Prop :=
  s.len.cilen = s.cfg.fs ∧ (s.cfg.scheme = .qpsk → s.len.cqlen = s.cfg.fs)

theorem requireCarriers_of_present {s : State} (h : CarriersPresent s) (rest : Completion) :
    requireCarriers s rest = rest := by
  rw [requireCarriers, requireElse_of h.1, requireElse_of h.2]

/-- Both checks of the carriers raise the same cause. -/
theorem requireCarriers_of_not_present {s : State} (h : ¬ CarriersPresent s) (rest : Completion) :
    requireCarriers s rest = .raised .noCarriers s := by
  by_cases hI : s.len.cilen = s.cfg.fs
  · rw [requireCarriers, requireElse_of hI, requireElse_of_not fun hQ => h ⟨hI, hQ⟩]
  · rw [requireCarriers, requireElse_of_not hI]

theorem not_carriersPresent_iff {s : State} :
    ¬ CarriersPresent s ↔ s.len.cilen ≠ s.cfg.fs ∨ s.cfg.scheme = .qpsk ∧ s.len.cqlen ≠ s.cfg.fs := by
  rw [CarriersPresent, not_and_or, Classical.not_imp]

section
variable {s : State} (hcfg : s.ctl.cfgValid = true)
include hcfg

theorem modulateBody_of_no_carriers (h : ¬ CarriersPresent s) : modulateBody s = .raised .noCarriers s := by
  rw [modulateBody, requireConfigured_of_configured hcfg, requireCarriers_of_not_present h]

theorem demodulateBody_of_no_carriers (h : ¬ CarriersPresent s) : demodulateBody s = .raised .noCarriers s := by
  rw [demodulateBody, requireConfigured_of_configured hcfg, requireCarriers_of_not_present h]

theorem modulateBody_of_bad_bits_len (h : CarriersPresent s) (hlen : s.len.txlen ≠ s.cfg.nbits) :
    modulateBody s = .raised .badBitsLen s := by
  rw [modulateBody, requireConfigured_of_configured hcfg, requireCarriers_of_present h, requireElse_of_not hlen]

theorem demodulateBody_of_bad_wave_len (h : CarriersPresent s) (hlen : s.len.wlen ≠ s.cfg.fs) :
    demodulateBody s = .raised .badWaveLen s := by
  rw [demodulateBody, requireConfigured_of_configured hcfg, requireCarriers_of_present h, requireElse_of_not hlen]

theorem addNoiseBody_of_negative_sigma {src : SigmaSource} (h : sigmaOf src s < 0) :
    addNoiseBody src s = .raised .negativeSigma s := by
  rw [addNoiseBody, requireConfigured_of_configured hcfg, requireElse_of_not (Int.not_le.mpr h)]

theorem addNoiseBody_of_bad_wave_len {src : SigmaSource} (h : 0 ≤ sigmaOf src s) (hlen : s.len.wlen ≠ s.cfg.fs) :
    addNoiseBody src s = .raised .badWaveLen s := by
  rw [addNoiseBody, requireConfigured_of_configured hcfg, requireElse_of h, requireElse_of_not hlen]

end

/-- Settles O33: each clause is the exit of one check, by its lemma above. -/
theorem missingArgumentsAreReportedInOrder : Obligations.MissingArgumentsAreReportedInOrder := by
  refine fun s hcfg => ⟨fun h => ?noCarriers, fun hI hQ => ⟨fun hlen => ?badBitsLen, fun hlen => ?badWaveLen⟩,
    fun hneg => ?negative, fun hpos hlen => ?noiseBadWaveLen, fun sigma hneg => ?negativeImmediate,
    fun sigma hpos hlen => ?immediateBadWaveLen, by decide⟩
  case noCarriers =>
    rw [← not_carriersPresent_iff] at h
    exact ⟨runCommand_of_raised (modulateBody_of_no_carriers (s := startCommand _ s) hcfg h),
      runCommand_of_raised (demodulateBody_of_no_carriers (s := startCommand _ s) hcfg h)⟩
  case badBitsLen =>
    exact runCommand_of_raised (modulateBody_of_bad_bits_len (s := startCommand _ s) hcfg ⟨hI, hQ⟩ hlen)
  case badWaveLen =>
    exact runCommand_of_raised (demodulateBody_of_bad_wave_len (s := startCommand _ s) hcfg ⟨hI, hQ⟩ hlen)
  case negative =>
    exact runCommand_of_raised (addNoiseBody_of_negative_sigma (s := startCommand _ s) hcfg (src := .config) hneg)
  case noiseBadWaveLen =>
    exact runCommand_of_raised (addNoiseBody_of_bad_wave_len (s := startCommand _ s) hcfg (src := .config) hpos hlen)
  case negativeImmediate =>
    exact runCommand_of_raised
      (addNoiseBody_of_negative_sigma (s := startCommand _ s) hcfg (src := .immediate sigma) hneg)
  case immediateBadWaveLen =>
    exact runCommand_of_raised
      (addNoiseBody_of_bad_wave_len (s := startCommand _ s) hcfg (src := .immediate sigma) hpos hlen)

end Sys2Proof.Machine

/-! SUPPORT. What the two noise commands do on a waveform of FS samples (R201 to R205); the proofs of
AddNoiseAddsScaledVariates and ZeroSigmaIsPassThrough. -/

namespace Sys2Proof.Machine

/-- The command is an ADD_NOISE form with the operand sigma (R201, R207). -/
def AddsNoise (i : Instr) (s : State) (sigma : Int) : Prop :=
  i = .addNoise ∧ sigma = s.cfg.noiseStd.toInt ∨ i = .addNoiseI sigma

/-- Both forms run the one body of R201, each with its own source of sigma. -/
theorem AddsNoise.exists_sigmaSource {i : Instr} {s : State} {sigma : Int} (h : AddsNoise i s sigma) :
    ∃ src, (∀ u, exec i u = runCommand (encode i) (addNoiseBody src) u) ∧ sigmaOf src s = sigma := by
  rcases h with ⟨rfl, rfl⟩ | rfl
  · exact ⟨.config, fun _ => rfl, rfl⟩
  · exact ⟨.immediate sigma, fun _ => rfl, rfl⟩

/-- With its three checks met either form completes, and changes WAVE below FS, PRNG and the count of draws. -/
theorem exec_of_addsNoise {i : Instr} {s : State} {sigma : Int} (h : AddsNoise i s sigma)
    (hcfg : s.ctl.cfgValid = true) (hsigma : 0 ≤ sigma) (hlen : s.len.wlen = s.cfg.fs) : ∃ w d,
    exec i s = .next { s with
      mem := { s.mem with wave := w }
      prng := prngNext^[2 * ((s.cfg.fs.toNat + 1) / 2)] s.prng
      ctl := doneCtl i s
      draws := d } ∧
    Buffer.Filling s.cfg.fs.toNat (NoisyFits s sigma) s.mem.wave w ∧
    (s.mem.wave.filled s.cfg.fs.toNat → d = s.draws) := by
  obtain ⟨src, hexec, rfl⟩ := h.exists_sigmaSource
  have hstart : sigmaOf src (startCommand (encode i) s) = sigmaOf src s := sigmaOf_congr rfl src
  rw [← hstart] at hsigma ⊢
  obtain ⟨w, d, hbody, hw, hd⟩ := addNoiseBody_spec src (startCommand (encode i) s) hcfg hsigma hlen
  exact ⟨w, d, (hexec s).trans (runCommand_of_ended hbody), hw, hd⟩

/-- R204's scaling and R205's saturation, with their constants written out. -/
theorem satAdd32_noiseSample (x : Word) (sigma z : Int) : satAdd32 x (noiseSample sigma z) =
    BitVec.ofInt 32 (max (-2147483648) (min 2147483647 (x.toInt + (sigma * z + 512) / 1024))) :=
  rfl

/-- Sigma 0 leaves a written sample its own value (R202). -/
theorem NoisyFits.eq_of_zero_sigma {s : State} {k : Nat} {v x : Word} (h : NoisyFits s 0 k v)
    (hx : s.mem.wave.read? k = some x) : v = x := by
  rw [h x hx, noiseSample_zero, satAdd32_zero]

/-- Settles O34: ADD_NOISE ends as `exec_of_addsNoise` says, and `NoisyFits` leaves a written sample one value. -/
theorem addNoiseAddsScaledVariates : Obligations.AddNoiseAddsScaledVariates := by
  intro s i sigma hi hcfg hsigma hlen
  obtain ⟨w, d, hexec, ⟨hfill, habove⟩, hd⟩ := exec_of_addsNoise hi hcfg hsigma hlen
  refine ⟨w, d, hexec, fun k hk => (hfill k hk).imp fun _ h => h.1, habove, hd, fun k x hk hx =>
    ⟨variate s.prng k, rfl, ?_⟩⟩
  obtain ⟨v, hv, hfits⟩ := hfill k hk
  rw [hv, hfits x hx, satAdd32_noiseSample]

/-- Settles O35: below FS each sample is rewritten with its own value, above it none is written. -/
theorem zeroSigmaIsPassThrough : Obligations.ZeroSigmaIsPassThrough := by
  refine ⟨noiseSample_zero, fun s i hi hcfg hlen hfilled => ?_⟩
  have hadds : AddsNoise i s 0 := hi.imp_left fun ⟨hname, hstd⟩ => ⟨hname, by rw [hstd]; rfl⟩
  obtain ⟨w, d, hexec, ⟨hfill, habove⟩, hd⟩ := exec_of_addsNoise hadds hcfg (Int.le_refl 0) hlen
  obtain rfl := hd hfilled
  refine ⟨w, hexec, fun k => ?_⟩
  rcases Nat.lt_or_ge k s.cfg.fs.toNat with hk | hk
  · obtain ⟨x, hx⟩ := hfilled k hk
    obtain ⟨v, hv, hfits⟩ := hfill k hk
    rw [hv, hx, hfits.eq_of_zero_sigma hx]
  · exact habove k hk

end Sys2Proof.Machine

/-! SUPPORT. How a DEMODULATE with its checks met ends (R221), and that it does not see what was transmitted (R220);
the proofs of DemodulateAskTakesMajority, DemodulateBpskTakesCorrelationSign, DemodulateQpskTakesBothSigns and
DemodulateIgnoresTransmittedBits. -/

namespace Sys2Proof.Machine

/-! ## The three schemes (R223, R224, R225) -/

/-- DEMODULATE with its four checks met, when its loop ends in these bits, accumulators and draws. -/
theorem exec_demodulate_of_loop {s : State} {rx : Buffer 1} {a q : Acc} {d : Nat} (hcfg : s.ctl.cfgValid = true)
    (hcarriers : CarriersPresent s) (hlen : s.len.wlen = s.cfg.fs)
    (hloop : demodulateAll (startCommand (encode .demodulate) s) =
      demodulated (startCommand (encode .demodulate) s) rx { s.res with accI := a, accQ := q } d) :
    exec .demodulate s = .next { s with
      mem := { s.mem with rxbits := rx }
      len := { s.len with rxlen := s.cfg.nbits }
      res := { s.res with accI := a, accQ := q }
      ctl := doneCtl .demodulate s
      draws := d } := by
  have hbody := demodulateBody_of_checks (startCommand (encode .demodulate) s) hcfg hcarriers.1 hcarriers.2 hlen
  rw [hloop] at hbody
  exact runCommand_of_ended hbody

theorem demodulateAll_rxbits_filled (s : State) (hv : s.cfg.Valid s.params) :
    (demodulateAll s).mem.rxbits.filled s.cfg.nbits.toNat := by
  obtain ⟨rx, a, q, d, hloop, hfilled⟩ := demodulateAll_filled s hv
  rw [hloop]
  exact hfilled

/-- Settles O37: the loop ends as `demodulateAll_ask` says, and `AskFits` leaves each bit and the last count one
value where the waveform has been written. -/
theorem demodulateAskTakesMajority : Obligations.DemodulateAskTakesMajority := by
  intro s hcfg hv hscheme hci hlen
  obtain ⟨rx, a, d, hloop, ⟨hbits, habove⟩, ⟨_, -, hlast⟩, hd⟩ := demodulateAll_ask (startCommand _ s) hv hscheme
  refine ⟨rx, a, d, exec_demodulate_of_loop hcfg ⟨hci, by simp [hscheme]⟩ hlen hloop,
    fun j hj => (hbits j hj).imp fun _ h => h.1, habove, fun x hx => ⟨hd ⟨x, hx⟩, fun j hj => ?_, (hlast x hx).1⟩⟩
  obtain ⟨_, hread, _, _, -, hfits⟩ := hbits j hj
  exact hread.trans (congrArg some (hfits x hx).2)

/-- Settles O38: the loop ends as `demodulateAll_bpsk` says, and `BpskFits` leaves each bit and the last
correlation one value where the waveform and the carrier have been written. -/
theorem demodulateBpskTakesCorrelationSign : Obligations.DemodulateBpskTakesCorrelationSign := by
  intro s hcfg hv hscheme hci hlen
  obtain ⟨rx, a, d, hloop, ⟨hbits, habove⟩, ⟨_, -, hlast⟩, hd⟩ := demodulateAll_bpsk (startCommand _ s) hv hscheme
  refine ⟨rx, a, d, exec_demodulate_of_loop hcfg ⟨hci, by simp [hscheme]⟩ hlen hloop,
    fun j hj => (hbits j hj).imp fun _ h => h.1, habove, fun x c h => ?_⟩
  have hx : WaveIs s x := fun k hk => (h k hk).1
  have hc : CarrIIs s c := fun k hk => (h k hk).2
  refine ⟨hd ⟨x, c, hx, hc⟩, fun j hj => ?_, (hlast x c hx hc).1⟩
  obtain ⟨_, hread, _, _, -, hfits⟩ := hbits j hj
  exact hread.trans (congrArg some (hfits x c hx hc).2)

/-- Settles O39: the loop ends as `demodulateAll_qpsk` says, and `QpskFits` leaves both bits of a symbol and the
last two correlations one value where the waveform and the carriers have been written. -/
theorem demodulateQpskTakesBothSigns : Obligations.DemodulateQpskTakesBothSigns := by
  intro s hcfg hv hscheme hci hcq hlen
  obtain ⟨rx, a, q, d, hloop, hbits, habove, ⟨_, _, hlast⟩, hd⟩ := demodulateAll_qpsk (startCommand _ s) hv hscheme
  have hfilled := demodulateAll_rxbits_filled (startCommand (encode .demodulate) s) hv
  rw [hloop] at hfilled
  refine ⟨rx, a, q, d, exec_demodulate_of_loop hcfg ⟨hci, fun _ => hcq⟩ hlen hloop, hfilled, habove,
    fun x ci cq h => ?_⟩
  have hx : WaveIs s x := fun k hk => (h k hk).1
  have hI : CarrIIs s ci := fun k hk => (h k hk).2.1
  have hQ : CarrQIs s cq := fun k hk => (h k hk).2.2
  obtain ⟨hlastI, hlastQ, -, -⟩ := hlast x ci cq hx hI hQ
  refine ⟨hd ⟨x, ci, cq, hx, hI, hQ⟩, fun n hn => ?_, hlastI, hlastQ⟩
  obtain ⟨_, _, _, _, heven, hodd, hfits⟩ := hbits n hn
  obtain ⟨-, -, hevenBit, hoddBit⟩ := hfits x ci cq hx hI hQ
  exact ⟨heven.trans (congrArg some hevenBit), hodd.trans (congrArg some hoddBit)⟩

/-! ## What was transmitted (R220) -/

/-- The state with another transmitted sequence and generator. -/
def withTransmitted (tx : Buffer 1) (len prng : Word) (s : State) : State :=
  { s with mem := { s.mem with txbits := tx }, len := { s.len with txlen := len }, prng := prng }

/-- A change of the state that commutes with every iteration commutes with the loop. -/
theorem forUpTo_comm {α : Type} {n : Nat} {body : Nat → α → α} {f : α → α} (h : ∀ k x, body k (f x) = f (body k x))
    (a : α) : forUpTo n body (f a) = f (forUpTo n body a) := by
  induction n with
  | zero => rfl
  | succ n ih => rw [forUpTo_succ, forUpTo_succ, ih, h]

/-- The same change in the state a command's pseudocode ends in. -/
def Completion.map (f : State → State) : Completion → Completion
  | .ended s => .ended (f s)
  | .raised c s => .raised c (f s)

section
variable (tx : Buffer 1) (len prng : Word)

theorem fetchElem_withTransmitted {w : Nat} (b : Buffer w) (k : Nat) (s : State) :
    fetchElem b k (withTransmitted tx len prng s) =
      ((fetchElem b k s).1, withTransmitted tx len prng (fetchElem b k s).2) := by
  unfold fetchElem
  split <;> rfl

theorem readWave_withTransmitted (k : Nat) (s : State) : readWave k (withTransmitted tx len prng s) =
    ((readWave k s).1, withTransmitted tx len prng (readWave k s).2) :=
  fetchElem_withTransmitted tx len prng s.mem.wave k s

theorem readCarrI_withTransmitted (k : Nat) (s : State) : readCarrI k (withTransmitted tx len prng s) =
    ((readCarrI k s).1, withTransmitted tx len prng (readCarrI k s).2) :=
  fetchElem_withTransmitted tx len prng s.mem.carrI k s

theorem readCarrQ_withTransmitted (k : Nat) (s : State) : readCarrQ k (withTransmitted tx len prng s) =
    ((readCarrQ k s).1, withTransmitted tx len prng (readCarrQ k s).2) :=
  fetchElem_withTransmitted tx len prng s.mem.carrQ k s

theorem countHigh_withTransmitted (k : Nat) (s : State) :
    countHigh k (withTransmitted tx len prng s) = withTransmitted tx len prng (countHigh k s) := by
  simp only [countHigh, readWave_withTransmitted, apply_ite (withTransmitted tx len prng)]
  rfl

theorem correlateI_withTransmitted (k : Nat) (s : State) :
    correlateI k (withTransmitted tx len prng s) = withTransmitted tx len prng (correlateI k s) := by
  simp only [correlateI, readWave_withTransmitted, readCarrI_withTransmitted]
  rfl

theorem correlateQ_withTransmitted (k : Nat) (s : State) :
    correlateQ k (withTransmitted tx len prng s) = withTransmitted tx len prng (correlateQ k s) := by
  simp only [correlateQ, readWave_withTransmitted, readCarrQ_withTransmitted]
  rfl

theorem cfg_withTransmitted (s : State) : (withTransmitted tx len prng s).cfg = s.cfg := rfl

/-- A segment's loop starts with both accumulators cleared. -/
theorem segmentLoop_withTransmitted {body : Nat → State → State} (n : Nat)
    (h : ∀ m u, body m (withTransmitted tx len prng u) = withTransmitted tx len prng (body m u)) (s : State) :
    forUpTo n body (setAcc 0 0 (withTransmitted tx len prng s)) =
      withTransmitted tx len prng (forUpTo n body (setAcc 0 0 s)) :=
  forUpTo_comm h (setAcc 0 0 s)

theorem demodulateAsk_withTransmitted (j : Nat) (s : State) :
    demodulateAsk j (withTransmitted tx len prng s) = withTransmitted tx len prng (demodulateAsk j s) := by
  simp only [demodulateAsk, cfgSpb, cfg_withTransmitted,
    segmentLoop_withTransmitted tx len prng _ fun m => countHigh_withTransmitted tx len prng (j * s.cfg.spb.toNat + m)]
  rfl

theorem demodulateBpsk_withTransmitted (j : Nat) (s : State) :
    demodulateBpsk j (withTransmitted tx len prng s) = withTransmitted tx len prng (demodulateBpsk j s) := by
  simp only [demodulateBpsk, cfgSps, cfg_withTransmitted,
    segmentLoop_withTransmitted tx len prng _ fun m => correlateI_withTransmitted tx len prng (j * s.cfg.sps.toNat + m)]
  rfl

theorem demodulateQpsk_withTransmitted (n : Nat) (s : State) :
    demodulateQpsk n (withTransmitted tx len prng s) = withTransmitted tx len prng (demodulateQpsk n s) := by
  have hloop := segmentLoop_withTransmitted tx len prng s.cfg.sps.toNat
    (body := fun m u => correlateQ (n * s.cfg.sps.toNat + m) (correlateI (n * s.cfg.sps.toNat + m) u))
    fun m u => by rw [correlateI_withTransmitted, correlateQ_withTransmitted]
  simp only [demodulateQpsk, cfgSps, cfg_withTransmitted, hloop]
  rfl

theorem demodulateAll_withTransmitted (s : State) :
    demodulateAll (withTransmitted tx len prng s) = withTransmitted tx len prng (demodulateAll s) := by
  unfold demodulateAll
  rw [cfg_withTransmitted]
  cases s.cfg.scheme with
  | ask => exact forUpTo_comm (demodulateAsk_withTransmitted tx len prng) s
  | bpsk => exact forUpTo_comm (demodulateBpsk_withTransmitted tx len prng) s
  | qpsk => exact forUpTo_comm (demodulateQpsk_withTransmitted tx len prng) s

theorem requireElse_map {c : Prop} [Decidable c] {e : Cause} {s : State} {f : State → State} {r r' : Completion}
    (h : r' = r.map f) : requireElse c e (f s) r' = (requireElse c e s r).map f := by
  rw [h]
  unfold requireElse
  split <;> rfl

/-- The four checks read nothing of what was transmitted. -/
theorem demodulateBody_withTransmitted (s : State) :
    demodulateBody (withTransmitted tx len prng s) = (demodulateBody s).map (withTransmitted tx len prng) := by
  refine requireElse_map (requireElse_map (requireElse_map (requireElse_map ?_)))
  rw [demodulateAll_withTransmitted]
  rfl

end

/-- Settles O40: the pseudocode commutes with the change, whether it ends or raises, and so do the start and the end
of the command. -/
theorem demodulateIgnoresTransmittedBits : Obligations.DemodulateIgnoresTransmittedBits := by
  intro s t tx len prng ht
  have hbody := demodulateBody_withTransmitted tx len prng (startCommand (encode .demodulate) s)
  rcases runCommand_cases (encode .demodulate) demodulateBody s with ⟨u, hu, e⟩ | ⟨c, u, hu, e⟩ <;>
    cases e.symm.trans ht <;> rw [hu] at hbody
  case inl => exact runCommand_of_ended (s := withTransmitted tx len prng s) hbody
  case inr => exact runCommand_of_raised (s := withTransmitted tx len prng s) hbody

end Sys2Proof.Machine

/-! SUPPORT. MODULATE then DEMODULATE without noise (R230 to R234): which bits the receiver decides on, and the two
correlations and the count it decides by; the proofs of BpskRoundTrip, QpskRoundTrip and AskRoundTrip. -/

namespace Sys2Proof.Machine

/-! ## The two commands, one after the other -/

/-- The transmission of the bits `b` on the carriers `ci` and `cq` can run: MODULATE's checks are met and all it
reads has been written. -/
structure TransmitReady (s : State) (b : Nat → Bit) (ci cq : Nat → Half) : Prop extends TrialReady s ci cq where
  txlen : s.len.txlen = s.cfg.nbits
  bits : TxIs s b

/-- Both commands complete, and RXBITS are the bits recovered from the transmitted waveform. -/
theorem execAll_modulate_demodulate {s : State} {b : Nat → Bit} {ci cq : Nat → Half} (h : TransmitReady s b ci cq)
    (herr : s.ctl.err = false) : ∃ t, execAll [.modulate, .demodulate] s = .next t ∧ t.ctl.err = false ∧
      ∀ j, j < s.cfg.nbits.toNat →
        t.mem.rxbits.read? j = some (recoveredBit s (sentSample s.cfg b ci cq) ci cq j) := by
  obtain ⟨w, hmod, hw⟩ := modulateBody_written (startCommand (encode .modulate) s) b ci cq h.configured h.valid
    h.cilen h.cqlen h.txlen h.bits h.carrI h.carrQ
  obtain ⟨rx, hdemod, hrx⟩ := demodulateBody_written (startCommand (encode .demodulate) { s with
      mem := { s.mem with wave := w }
      len := { s.len with wlen := s.cfg.fs }
      ctl := doneCtl .modulate s }) (sentSample s.cfg b ci cq) ci cq h.configured h.valid h.cilen h.cqlen rfl
    (fun k hk => hw.filled hk) h.carrI h.carrQ
  refine ⟨_, (execAll_cons_of_next (i := .modulate) (runCommand_of_ended hmod) herr).trans
    (execAll_cons_of_next (i := .demodulate) (runCommand_of_ended hdemod) herr), herr, fun j hj => hrx.filled hj⟩

/-! ## Segments of the transmitted waveform (R68) -/

/-- Sample `m` of segment `j` belongs to bit or symbol `j`. -/
theorem segment_div {j L m : Nat} (hm : m < L) : (j * L + m) / L = j :=
  Nat.div_eq_of_lt_le (by omega) (by rw [Nat.succ_mul]; omega)

theorem segmentProduct_comm (c d : Nat → Half) (L j : Nat) : segmentProduct c d L j = segmentProduct d c L j :=
  Finset.sum_congr rfl fun _ _ => mul_comm _ _

/-- The energy of a segment is positive exactly when one of its samples is not 0 (R231). -/
theorem segmentProduct_self_pos_iff (c : Nat → Half) (L j : Nat) :
    0 < segmentProduct c c L j ↔ ∃ m, m < L ∧ c (j * L + m) ≠ 0 := by
  have hzero : ∀ x : Half, x.toInt ≠ 0 ↔ x ≠ 0 := fun x => by
    rw [Ne, ← BitVec.toInt_zero (w := 16), BitVec.toInt_inj]
    rfl
  unfold segmentProduct
  rw [Finset.sum_pos_iff_of_nonneg fun _ _ => mul_self_nonneg _]
  simp only [Finset.mem_range, mul_self_pos, hzero]

theorem segmentProduct_self_nonneg (c : Nat → Half) (L j : Nat) : 0 ≤ segmentProduct c c L j :=
  Finset.sum_nonneg fun _ _ => mul_self_nonneg _

/-! ## BPSK (R231) -/

theorem keySign_zero : keySign 0 = 1 := rfl
theorem keySign_one : keySign 1 = -1 := rfl

/-- Keying a carrier multiplies it by the sign of its bit (R179). -/
theorem keyedSample_toInt_eq_keySign_mul (b : Bit) (c : Half) :
    (keyedSample b c).toInt = keySign b * c.toInt := by
  rw [keyedSample_toInt, keySign]
  split <;> ring

/-- The correlation of a transmitted BPSK segment: its energy with the sign of its bit. -/
theorem segmentCorrelation_sentSample_bpsk {c : ActiveConfig} (hc : c.scheme = .bpsk) (b : Nat → Bit)
    (ci cq : Nat → Half) (j : Nat) : segmentCorrelation (sentSample c b ci cq) ci c.spb.toNat j =
      keySign (b j) * segmentProduct ci ci c.spb.toNat j := by
  unfold segmentCorrelation segmentProduct
  rw [Finset.mul_sum]
  refine Finset.sum_congr rfl fun m hm => ?_
  simp only [sentSample, hc, segment_div (Finset.mem_range.mp hm), keyedSample_toInt_eq_keySign_mul]
  ring

/-- Settles O41: the correlation of a segment is plus or minus its energy, which is positive exactly when a sample
is not 0, and a correlation that is not positive decodes to 1. -/
theorem bpskRoundTrip : Obligations.BpskRoundTrip := by
  intro s b c hcfg hv herr hscheme hci htx hbits hcarr
  have hsps : s.cfg.sps = s.cfg.spb := (hv.single (by simp [hscheme])).2
  have hready : TransmitReady s b c c :=
    ⟨⟨hcfg, hv, hci, by simp [hscheme], hcarr, by simp [hscheme]⟩, htx, hbits⟩
  obtain ⟨t, hrun, hterr, hrx⟩ := execAll_modulate_demodulate hready herr
  refine ⟨t, hrun, hterr, fun j hj => ?_⟩
  have hbit : recoveredBit s (sentSample s.cfg b c c) c c j =
      correlationBit (keySign (b j) * segmentProduct c c s.cfg.spb.toNat j) := by
    simp only [recoveredBit, hscheme, hsps, segmentCorrelation_sentSample_bpsk hscheme]
  have henergy := segmentProduct_self_nonneg c s.cfg.spb.toNat j
  rw [hrx j hj, hbit, ← segmentProduct_self_pos_iff]
  refine ⟨fun h1 => ?_, fun h0 => ?_⟩
  · rw [h1, keySign_one, correlationBit, if_neg (by omega)]
  · rw [h0, keySign_zero, one_mul, correlationBit]
    simp

/-! ## QPSK (R233) -/

/-- A transmitted QPSK sample is the signed sum of its two carriers: in 32 bits it does not wrap (R180). -/
theorem keyedSum_toInt (i q : Bit) (ci cq : Half) : (keyedSample i ci + keyedSample q cq).toInt =
    keySign i * ci.toInt + keySign q * cq.toInt := by
  have hlt := fun x : Half => BitVec.toInt_lt (x := x)
  have hle := fun x : Half => BitVec.le_toInt (x := x)
  norm_num at hlt hle
  have hbound : ∀ (b : Bit) (x : Half), -32768 ≤ keySign b * x.toInt ∧ keySign b * x.toInt ≤ 32768 := fun b x => by
    have := hlt x
    have := hle x
    unfold keySign
    split <;> omega
  have := hbound i ci
  have := hbound q cq
  rw [BitVec.toInt_add, keyedSample_toInt_eq_keySign_mul, keyedSample_toInt_eq_keySign_mul, Int.bmod_eq_of_le] <;>
    omega

/-- The correlation of a transmitted QPSK segment with any carrier `d`: the signed sum of the products of the two
carriers with `d`. -/
theorem segmentCorrelation_sentSample_qpsk {c : ActiveConfig} (hc : c.scheme = .qpsk) (b : Nat → Bit)
    (ci cq d : Nat → Half) (n : Nat) : segmentCorrelation (sentSample c b ci cq) d c.sps.toNat n =
      keySign (b (2 * n)) * segmentProduct ci d c.sps.toNat n +
        keySign (b (2 * n + 1)) * segmentProduct cq d c.sps.toNat n := by
  unfold segmentCorrelation segmentProduct
  rw [Finset.mul_sum, Finset.mul_sum, ← Finset.sum_add_distrib]
  refine Finset.sum_congr rfl fun m hm => ?_
  simp only [sentSample, hc, segment_div (Finset.mem_range.mp hm), keyedSum_toInt]
  ring

/-- A correlation takes the sign of its energy term when the cross term is smaller (R233). -/
theorem correlationBit_of_cross_lt {energy cross : Int} (h : |cross| < energy) (b e : Bit) :
    correlationBit (keySign b * energy + keySign e * cross) = b := by
  obtain ⟨hlow, hhigh⟩ := abs_lt.mp h
  have hcross : -energy < keySign e * cross ∧ keySign e * cross < energy := by
    unfold keySign
    split <;> omega
  rcases bit_eq_zero_or_one b with rfl | rfl
  · exact if_pos (by rw [keySign_zero]; omega)
  · exact if_neg (by rw [keySign_one]; omega)

/-- Settles O42: both correlations of a symbol by `segmentCorrelation_sentSample_qpsk`; the cross term of the second
one is that of the first, and below both energies it does not turn a sign. -/
theorem qpskRoundTrip : Obligations.QpskRoundTrip := by
  intro s b ci cq hcfg hv herr hscheme hci hcq htx hbits hcarr
  have hready : TransmitReady s b ci cq :=
    ⟨⟨hcfg, hv, hci, fun _ => hcq, fun k hk => (hcarr k hk).1, fun _ k hk => (hcarr k hk).2⟩, htx, hbits⟩
  obtain ⟨t, hrun, hterr, hrx⟩ := execAll_modulate_demodulate hready herr
  refine ⟨t, hrun, hterr, fun n hn => ?_⟩
  have hpairs := (hv.qpsk hscheme).1
  have heven : t.mem.rxbits.read? (2 * n) = some (correlationBit
      (keySign (b (2 * n)) * segmentProduct ci ci s.cfg.sps.toNat n +
        keySign (b (2 * n + 1)) * segmentProduct ci cq s.cfg.sps.toNat n)) := by
    rw [hrx _ (by omega), segmentProduct_comm ci cq]
    simp [recoveredBit, hscheme, segmentCorrelation_sentSample_qpsk hscheme]
  have hodd : t.mem.rxbits.read? (2 * n + 1) = some (correlationBit
      (keySign (b (2 * n)) * segmentProduct ci cq s.cfg.sps.toNat n +
        keySign (b (2 * n + 1)) * segmentProduct cq cq s.cfg.sps.toNat n)) := by
    rw [hrx _ (by omega)]
    simp [recoveredBit, hscheme, segmentCorrelation_sentSample_qpsk hscheme, show (2 * n + 1) / 2 = n by omega]
  refine ⟨heven, hodd, fun hI hQ => ⟨?_, ?_⟩⟩
  · rw [heven, correlationBit_of_cross_lt hI]
  · rw [hodd, add_comm, correlationBit_of_cross_lt hQ]

/-! ## ASK (R234) -/

theorem sext32_toInt (c : Half) : (sext32 c).toInt = c.toInt :=
  BitVec.toInt_signExtend_of_le (by decide)

/-- Sample `m` of a transmitted ASK segment: the carrier for a 1, zero for a 0 (R178). -/
theorem sentSample_ask_toInt {c : ActiveConfig} (hc : c.scheme = .ask) (b : Nat → Bit) (ci cq : Nat → Half)
    {j m : Nat} (hm : m < c.spb.toNat) : (sentSample c b ci cq (j * c.spb.toNat + m)).toInt =
      if b j = 1 then (ci (j * c.spb.toNat + m)).toInt else 0 := by
  simp only [sentSample, hc, segment_div hm]
  split
  · exact sext32_toInt _
  · rfl

/-- The samples of a transmitted ASK segment above the threshold: for a 1 those of the carrier, for a 0 none. -/
theorem highCount_sentSample {s : State} (hs : s.cfg.scheme = .ask) (b : Nat → Bit) (ci cq : Nat → Half) (j : Nat) :
    highCount s (sentSample s.cfg b ci cq) (j * s.cfg.spb.toNat) s.cfg.spb.toNat =
      if b j = 1 then ((Finset.range s.cfg.spb.toNat).filter
        (fun m => s.askThresh.toNat < (ci (j * s.cfg.spb.toNat + m)).toInt.natAbs)).card else 0 := by
  have hsent : ∀ m ∈ Finset.range s.cfg.spb.toNat,
      (sentSample s.cfg b ci cq (j * s.cfg.spb.toNat + m)).toInt =
        if b j = 1 then (ci (j * s.cfg.spb.toNat + m)).toInt else 0 :=
    fun m hm => sentSample_ask_toInt hs b ci cq (Finset.mem_range.mp hm)
  unfold highCount
  rw [Finset.filter_congr fun m hm => by rw [hsent m hm]]
  split <;> simp

/-- Settles O43: a 0 sends no sample above the threshold, and a 1 sends its carrier segment. -/
theorem askRoundTrip : Obligations.AskRoundTrip := by
  intro s b c hcfg hv herr hscheme hci htx hbits hcarr
  have hready : TransmitReady s b c c :=
    ⟨⟨hcfg, hv, hci, by simp [hscheme], hcarr, by simp [hscheme]⟩, htx, hbits⟩
  obtain ⟨t, hrun, hterr, hrx⟩ := execAll_modulate_demodulate hready herr
  refine ⟨t, hrun, hterr, fun j hj => ?_⟩
  simp only [hrx j hj, recoveredBit, hscheme, highCount_sentSample hscheme]
  refine ⟨fun h0 => ?_, fun h1 => ?_⟩
  · simp [h0]
  · simp [h1]

end Sys2Proof.Machine

/-! SUPPORT. How SCORE ends (R251), and the count of two equal or complementary sequences (R253); the proofs of
ScoreCountsDifferingPositions, BerBounds and ScoreRejectsMismatchThenEmpty. -/

namespace Sys2Proof.Machine

/-! ## The two checks (R251) -/

theorem scoreBody_of_length_mismatch {s : State} (h : s.len.txlen ≠ s.len.rxlen) :
    scoreBody s = .raised .lengthMismatch s :=
  requireElse_of_not h _ _ _

theorem scoreBody_of_empty {s : State} (hlen : s.len.txlen = s.len.rxlen) (h : s.len.txlen = 0) :
    scoreBody s = .raised .zeroBits s := by
  rw [scoreBody, requireElse_of hlen, requireElse_of_not (by simp [h])]

/-- SCORE ends without an error only with its two checks met. -/
theorem score_checks_of_no_error {s t : State} (ht : exec .score s = .next t) (herr : t.ctl.err = false) :
    s.len.txlen = s.len.rxlen ∧ 1 ≤ s.len.txlen.toNat := by
  rcases scoreBody_raises_or (startCommand (encode .score) s) with ⟨c, hbody⟩ | hchecks
  · cases (runCommand_of_raised hbody).symm.trans ht
    exact nomatch herr
  · exact hchecks

/-- Settles O46: each clause is the exit of one check. -/
theorem scoreRejectsMismatchThenEmpty : Obligations.ScoreRejectsMismatchThenEmpty := fun s =>
  ⟨fun h => runCommand_of_raised (scoreBody_of_length_mismatch (s := startCommand _ s) h),
    fun hlen h => runCommand_of_raised (scoreBody_of_empty (s := startCommand _ s) hlen h), by decide⟩

/-! ## The count (R250) -/

/-- Settles O44: with its checks met SCORE ends as `scoreBody_spec` says. -/
theorem scoreCountsDifferingPositions : Obligations.ScoreCountsDifferingPositions := by
  intro s hlen hpos
  obtain ⟨n, d, hbody, hle, hcount⟩ := scoreBody_spec (startCommand (encode .score) s) hlen hpos
  exact ⟨n, d, runCommand_of_ended hbody, hle, fun x y hxy => (hcount x y hxy).symm⟩

theorem differing_self (x : Nat → Bit) (n : Nat) : differing x x n = 0 := by
  simp [differing]

/-- A bit never equals its complement. -/
theorem bit_ne_complement (b : Bit) : b ≠ b ^^^ 1 := by
  rcases bit_eq_zero_or_one b with rfl | rfl <;> decide

theorem differing_complement (x : Nat → Bit) (n : Nat) : differing x (fun j => x j ^^^ 1) n = n := by
  rw [differing, Finset.filter_true_of_mem fun j _ => bit_ne_complement (x j), Finset.card_range]

/-- Settles O45: an errorless SCORE has met its checks, so it counts the differing positions; they are none in equal
sequences and all in complementary ones. -/
theorem berBounds : Obligations.BerBounds := by
  intro s t _ ht hterr
  obtain ⟨hlen, hpos⟩ := score_checks_of_no_error ht hterr
  obtain ⟨n, d, hexec, hle, hcount⟩ := scoreCountsDifferingPositions s hlen hpos
  cases hexec.symm.trans ht
  refine ⟨hle, fun htx hrx => ?identical, fun htx hrx => ?complementary⟩ <;> choose! x hx using htx
  case identical =>
    obtain ⟨-, hn⟩ := hcount x x fun j hj => ⟨hx j hj, (hrx j hj).trans (hx j hj)⟩
    exact BitVec.eq_of_toNat_eq (hn.trans (differing_self x _))
  case complementary =>
    obtain ⟨-, hn⟩ := hcount x (fun j => x j ^^^ 1) fun j hj => ⟨hx j hj, hrx j (x j) hj (hx j hj)⟩
    exact BitVec.eq_of_toNat_eq (hn.trans (differing_complement x _))

end Sys2Proof.Machine

/-! SUPPORT. How RUN_SWEEP ends (R262, R267, R270) and that it runs the manual trials (R260, R263), and its noise
table (R266); the proofs of RunSweepReachesDoneWithOrderedRecords, SweepIsManualTrials,
StepCountAboveMaximumIsRefused and SigmaRomFollowsNoiseFormula. -/

namespace Sys2Proof.Machine

/-! ## How RUN_SWEEP ends (R262) -/

theorem runSweepBody_of_step_count_gt {P : Config.Params} {k : Nat} {s : State} (hcfg : s.ctl.cfgValid = true)
    (h : P.stepMax < k) : runSweepBody P k s = .raised .stepRange s := by
  rw [runSweepBody, requireConfigured_of_configured hcfg, requireElse_of_not (Nat.not_le.mpr h)]

/-- Settles O49: the step count is the second check, after CFG_VALID. -/
theorem stepCountAboveMaximumIsRefused : Obligations.StepCountAboveMaximumIsRefused :=
  ⟨fun _ _ hcfg h => runCommand_of_raised (runSweepBody_of_step_count_gt (s := startCommand _ _) hcfg h), by decide⟩

/-- The state after RUN_SWEEP in terms of the one its loop leaves. -/
theorem exec_runSweep_spec {s : State} {k : Nat} (hcfg : s.ctl.cfgValid = true) (hv : s.cfg.Valid s.params)
    (hk : k ≤ s.params.stepMax) : ∃ ci cq t,
    exec (.runSweep k) s = .next (completeCommand (endSweep k t)) ∧
    Buffer.Prefixed s.cfg.fs.toNat (inPhaseReference s.cfg) s.mem.carrI ci ∧
    Buffer.Prefixed (if s.cfg.scheme = .qpsk then s.cfg.fs.toNat else 0) (quadratureReference s.cfg) s.mem.carrQ cq ∧
    SweepAfter (sweepStart (startCommand (encode (.runSweep k)) s) ci cq) (inPhaseReference s.cfg)
      (quadratureReference s.cfg) k t := by
  obtain ⟨ci, cq, t, hbody, hci, hcq, a⟩ :=
    runSweepBody_spec s.params k (startCommand (encode (.runSweep k)) s) hcfg hv hk
  exact ⟨ci, cq, t, runCommand_of_ended hbody, hci, hcq, a⟩

/-- The control registers at the end of RUN_SWEEP are those of a completed command. -/
theorem SweepAfter.ctl_eq_doneCtl {s t : State} {ci cq : Buffer 16} {i q : Nat → Half} {k : Nat}
    (a : SweepAfter (sweepStart (startCommand (encode (.runSweep k)) s) ci cq) i q k t) :
    (completeCommand (endSweep k t)).ctl = doneCtl (.runSweep k) s := by
  rw [completeCommand_ctl, endSweep_ctl, a.ctl]
  rfl

/-- Settles O47: everything but word 7 is a clause of `SweepAfter`; word 7 of record `r` and the ERR_COUNT of the
sweep of `r + 1` steps are both the errors of step `r`. -/
theorem runSweepReachesDoneWithOrderedRecords : Obligations.RunSweepReachesDoneWithOrderedRecords := by
  intro s k hcfg hv hk
  obtain ⟨ci, cq, t, hexec, hci, hcq, a⟩ := exec_runSweep_spec hcfg hv hk
  obtain ⟨hword7, hlast⟩ := a.errors s rfl rfl rfl
  refine ⟨_, hexec, a.ctl_eq_doneCtl, ?sweep, fun r hr => ?record, a.logAbove, a.prng, a.stg, a.cfg,
    a.askThresh, a.host, a.draws, a.params, a.name, a.cilen, a.cqlen, fun hzero => ?noSteps, fun hpos => ?someSteps,
    fun n hn => ?samplesAbove, fun n hn => ⟨a.txAbove n hn, a.rxAbove n hn⟩⟩
  case sweep =>
    rw [completeCommand_sweep, endSweep_sweep, ← a.logCount]
  case record =>
    have field := a.records r hr
    refine ⟨(field 0 _ rfl).trans ?_, field 1 _ rfl, field 2 _ rfl, field 3 _ rfl, field 4 _ rfl, field 5 _ rfl,
      field 6 _ rfl, ?_⟩
    · show some (zext32 (schemeCode s.cfg.scheme)) = _
      cases s.cfg.scheme <;> rfl
    · obtain ⟨ci', cq', u, hexec', -, -, a'⟩ := exec_runSweep_spec (k := r + 1) hcfg hv (by omega)
      have herr : u.res.errCount = _ := (a'.errors s rfl rfl rfl).2 r.succ_pos
      refine ⟨_, hexec', a'.ctl_eq_doneCtl, (hword7 r hr).trans (congrArg some herr.symm), ?_⟩
      exact herr ▸ sweepErrors_le s _ _ r
  case noSteps =>
    rw [a.noSteps hzero]
    exact ⟨rfl, rfl, rfl, rfl, rfl, rfl, rfl⟩
  case someSteps =>
    obtain ⟨htx, hrx, hw, hden, -, -⟩ := a.someSteps hpos
    exact ⟨htx, hrx, hw, hden, (hword7 (k - 1) (by omega)).trans (congrArg some (hlast hpos).symm)⟩
  case samplesAbove =>
    refine ⟨?_, ?_, a.bufAbove n hn⟩
    · exact (congrArg (Buffer.read? · n) a.carrI).trans (hci.above hn)
    · exact (congrArg (Buffer.read? · n) a.carrQ).trans (hcq.above (by split <;> omega))

/-! ## A sweep and the manual trials (R260, R263) -/

theorem runSweepBody_of_steps {P : Config.Params} {k : Nat} {s s1 t : State} (hcfg : s.ctl.cfgValid = true)
    (hk : k ≤ P.stepMax) (hgen : genCarriersBody (startSweep s) = .ended s1) (hsteps : sweepSteps k s1 = .ended t) :
    runSweepBody P k s = .ended (endSweep k t) := by
  rw [runSweepBody, requireConfigured_of_configured hcfg, requireElse_of hk, hgen, andThen_ended, hsteps, andThen_ended]

/-- GEN_CARRIERS leaves what a trial needs. -/
theorem trialReady_of_genCarriersBody {s t : State} (hcfg : s.ctl.cfgValid = true) (hv : s.cfg.Valid s.params)
    (hgen : genCarriersBody s = .ended t) : TrialReady t (inPhaseReference s.cfg) (quadratureReference s.cfg) := by
  obtain ⟨ci, cq, e, hci, hcq⟩ := genCarriersBody_spec s hcfg
  cases e.symm.trans hgen
  exact trialReady_of_carriers hcfg hv rfl (fun hq => if_pos hq) hci hcq

/-- From states that agree, GEN_CARRIERS leaves states that agree and have the carriers a trial needs. -/
theorem SameTrialState.genCarriers {s u : State} (h : SameTrialState s u) (hs : s.ctl.cfgValid = true)
    (hu : u.ctl.cfgValid = true) (hv : s.cfg.Valid s.params) (hparams : u.params = s.params) : ∃ s' u',
    genCarriersBody s = .ended s' ∧ genCarriersBody u = .ended u' ∧ SameTrialState s' u' ∧ u'.ctl = u.ctl ∧
    TrialReady s' (inPhaseReference s.cfg) (quadratureReference s.cfg) ∧
    TrialReady u' (inPhaseReference s.cfg) (quadratureReference s.cfg) := by
  obtain ⟨ci, cq, hgen, hci, hcq⟩ := genCarriersBody_spec s hs
  obtain ⟨ci', cq', hgen', hci', hcq'⟩ := genCarriersBody_spec u hu
  have hvu : u.cfg.Valid u.params := by rwa [h.cfg, hparams]
  have hready := trialReady_of_genCarriersBody hs hv hgen
  have hready' := trialReady_of_genCarriersBody hu hvu hgen'
  rw [h.cfg] at hci' hcq'
  refine ⟨_, _, hgen, hgen', ?_, rfl, hready, h.cfg ▸ hready'⟩
  exact { h with
    len := by simp only [h.len, h.cfg]
    carrI := hci.read?_congr hci' (fun _ _ => rfl) h.carrI
    carrQ := hcq.read?_congr hcq' (fun _ _ => rfl) h.carrQ }

/-- The start of RUN_SWEEP and the start of another command leave the same to a trial. -/
theorem sameTrialState_startSweep (w w' : Word) (s : State) :
    SameTrialState (startSweep (startCommand w s)) (startCommand w' s) :=
  ⟨rfl, rfl, rfl, rfl, rfl, fun _ => rfl, fun _ => rfl, fun _ => rfl, fun _ => rfl, fun _ => rfl, rfl⟩

/-- Settles O48: RUN_SWEEP's GEN_CARRIERS and the command of that name leave states that agree, and from such states
`sweepSteps_manual` runs the two side by side. -/
theorem sweepIsManualTrials : Obligations.SweepIsManualTrials := by
  intro s k hcfg hv herr hk
  have hstart := sameTrialState_startSweep (encode (.runSweep k)) (encode .genCarriers) s
  obtain ⟨s', u', hgen, hgen', hsame, hctl, hready, hready'⟩ := hstart.genCarriers hcfg hcfg hv rfl
  have hexec : exec .genCarriers s = .next (completeCommand u') := runCommand_of_ended hgen'
  have herr' : (completeCommand u').ctl.err = false := (congrArg Control.err hctl).trans herr
  obtain ⟨t, u, hsteps, htrials, hend, -, -, huerr, hrecords⟩ :=
    sweepSteps_manual (u := completeCommand u') { hsame with } hready { hready' with } herr' k
  have hbody := runSweepBody_of_steps (s := startCommand _ s) hcfg hk hgen hsteps
  have hmanual (n : Nat) := execAll_cons_of_next (rest := manualTrials n) hexec herr'
  refine ⟨_, u, runCommand_of_ended hbody, (hmanual k).trans htrials, huerr, { hend with }, fun r hr => ?_⟩
  obtain ⟨v, hrun, hverr, hword7⟩ := hrecords r hr
  exact ⟨v, (hmanual (r + 1)).trans hrun, hverr, hword7⟩

/-! ## The noise table (R266) -/

/-- Settles O50: each of the 32 entries is evaluated, with `2^290` in two factors whose exponents `decide` accepts. -/
theorem sigmaRomFollowsNoiseFormula : Obligations.SigmaRomFollowsNoiseFormula := by
  unfold Obligations.SigmaRomFollowsNoiseFormula
  rw [show 290 = 145 + 145 from rfl, pow_add]
  decide

end Sys2Proof.Machine

/-! SUPPORT. What an error state keeps until a reset (R291), and the invariant at reset (R310); the proofs of
ErrorIsStickyUntilReset and InvHoldsAtReset. -/

namespace Sys2Proof.Machine

/-! ## The error state (R291) -/

/-- What a command writes and the host can not is the same in both states. -/
def SameCommandState (s t : State) : Prop :=
  t.ctl = s.ctl ∧ t.cfg = s.cfg ∧ t.res = s.res ∧ t.sweep = s.sweep ∧ t.len.cilen = s.len.cilen ∧
    t.len.cqlen = s.len.cqlen ∧ t.len.rxlen = s.len.rxlen ∧ t.mem.carrI = s.mem.carrI ∧
    t.mem.carrQ = s.mem.carrQ ∧ t.mem.rxbits = s.mem.rxbits ∧ t.mem.log = s.mem.log

theorem SameCommandState.refl (s : State) : SameCommandState s s :=
  ⟨rfl, rfl, rfl, rfl, rfl, rfl, rfl, rfl, rfl, rfl, rfl⟩

theorem sameCommandState_writePlace (p : Place) (v : Word) (s : State) : SameCommandState s (writePlace p v s) := by
  obtain ⟨_, _, _, _, _, _, _, e⟩ := writePlace_spec p v s
  rw [e]
  exact SameCommandState.refl s

theorem sameCommandState_hostRead (a : Addr) (s : State) : SameCommandState s (hostRead a s) := by
  obtain ⟨_, _, e⟩ := hostRead_spec a s
  rw [e]
  exact SameCommandState.refl s

theorem sameCommandState_hostWait (s : State) : SameCommandState s (hostWait s) := by
  unfold hostWait
  split <;> exact SameCommandState.refl s

/-- A host write to an error state runs no command, or it is SOFT_RESET's word to CMD (R96). -/
theorem hostWrite_of_err {a : Addr} {v : Word} {s t : State} (herr : s.ctl.err = true)
    (ht : hostWrite a v s = .next t) :
    SameCommandState s t ∨ a = regAddr .cmd ∧ v = encode .softReset ∧ t = resetBlock s := by
  rcases hostWrite_cases a v s with e | ⟨ha, e⟩ | e
  case inr.inl =>
    rcases writeCmd_cases v s with ⟨-, hv, ew⟩ | ⟨-, -, ew⟩ | ⟨hok, -⟩ | ⟨hok, -⟩
    · exact .inr ⟨ha, hv, Host.Outcome.next.inj ((e.trans ew).symm.trans ht).symm⟩
    · cases (e.trans ew).symm.trans ht
      exact .inl (SameCommandState.refl s)
    all_goals exact absurd (herr.symm.trans hok) (by decide)
  all_goals cases e.symm.trans ht
  · exact .inl (SameCommandState.refl s)
  · exact .inl (sameCommandState_writePlace _ v s)

/-- Settles O10: of the items of the script only SOFT_RESET's word to CMD and a hardware reset touch what commands
write. -/
theorem errorIsStickyUntilReset : Obligations.ErrorIsStickyUntilReset := by
  intro s t herr ht
  rcases step_cases s with ⟨-, e⟩ | ⟨x, rest, hscript, e⟩
  · cases e.symm.trans ht
    exact .inl (SameCommandState.refl s)
  have hx := e.symm.trans ht
  rw [hscript]
  cases x with
  | hostWrite a v =>
    have hcases := hostWrite_of_err (s := { s with host := { s.host with script := rest } }) herr hx
    rcases hcases with hsame | ⟨rfl, rfl, rfl⟩
    · exact .inl hsame
    · exact .inr ⟨.inl rfl, rfl⟩
  | hostRead a =>
    cases hx
    exact .inl (sameCommandState_hostRead a _)
  | wait =>
    cases hx
    exact .inl (sameCommandState_hostWait _)
  | hardwareReset =>
    cases hx
    exact .inr ⟨.inr rfl, rfl⟩

/-! ## The invariant at reset (R310) -/

/-- Settles O53: `resetWith_inv`, and R5's own values are among those it allows. -/
theorem invHoldsAtReset : Obligations.InvHoldsAtReset :=
  ⟨resetWith_inv (by decide), fun _ => resetWith_inv⟩

end Sys2Proof.Machine
